-- ==== Sys2Proof/Word.lean ====
section
/-! DEFINITION. The widths of the spec: a byte, the 16-bit word of a register access, the 32-bit transaction word. -/

namespace Sys2Proof

/-- A byte is 8 bits (R8). -/
abbrev Byte := BitVec 8

/-- A word is 16 bits (R8); the value of a register access is one word (R64). -/
abbrev Word := BitVec 16

/-- A level-0 transaction is one 32-bit word (R90). -/
abbrev TxnWord := BitVec 32

end Sys2Proof
end

