-- ==== Sys2Proof/Config.lean ====
section
/-! DEFINITION. What is fixed for a machine (the parameters of R6 and R7), the agents' moves (R11), and the free
values: constants with no body, so that no proof can rest on a value the spec leaves open. -/

namespace Sys2Proof

/-- The two serial ports, in the order that numbers them 0 and 1 (R96). -/
inductive Port where
  | ext
  | ctrl2
  deriving DecidableEq, Repr, Inhabited

/-- The range of `BaudRate()`, in bits a second (R155). -/
inductive Baud where
  | b300
  | b1200
  | b2400
  | b4800
  deriving DecidableEq, Repr, Inhabited

/-- The coprocessor's internal state. The spec gives it no structure (R41): a token that names one of the
coprocessor's states, which no rule reads (log 7, DESIGN CHOICE). -/
structure CpState where
  token : Nat
  deriving DecidableEq, Repr, Inhabited

/-- `BAUD_DECODE` as the table of its four values, code 0 first (R7, R155). -/
structure BaudTable where
  code0 : Baud
  code1 : Baud
  code2 : Baud
  code3 : Baud
  deriving DecidableEq, Repr

/-- The parameters of R6 and R7, each with the default the spec gives it; the defaults of `AVAIL_CAP` and `IMASK_INIT`
follow `N` and `RX_IRQ_LEVEL`. `ACK_BOUND` is read by no rule and is not here (log 23). -/
structure Params where
  /-- `SERIAL_BUFLEN`, written `N` (R6). -/
  bufLen : Nat := 4096
  /-- `CPMEM_SIZE`. -/
  cpmemSize : Nat := 8192
  /-- `UPLOAD_BASE`. -/
  uploadBase : Nat := 0
  /-- `POLL_BOUND`; `none` is infinity, no timeout. -/
  pollBound : Option Nat := none
  /-- `TXFIFO_DEPTH`. -/
  txDepth : Nat := 1
  /-- `RXFIFO_DEPTH`. -/
  rxDepth : Nat := 1
  /-- `RB_STRICT`: a ring write on a full buffer is refused instead of performed. -/
  rbStrict : Bool := false
  /-- `AVAIL_CAP`, the word `capacity` of the `Available()` formula; by default `N - 1` (R175). -/
  availCap : Nat := bufLen - 1
  /-- `BAUD_DECODE`. -/
  baudDecode : BaudTable := { code0 := .b4800, code1 := .b4800, code2 := .b4800, code3 := .b300 }
  /-- `BAUD_INIT_CODE`. -/
  baudInitCode : BitVec 2 := 0
  /-- `CTRL_INIT`. -/
  ctrlInit : Byte := 0
  /-- `SUBFN_INIT`. -/
  subfnInit : BitVec 2 := 3
  /-- `RX_IRQ_LEVEL`. -/
  rxIrqLevel : Nat := 2
  /-- `IMASK_INIT`; by default `RX_IRQ_LEVEL - 1` (log 8). -/
  imaskInit : BitVec 3 := BitVec.ofNat 3 (rxIrqLevel - 1)
  /-- `CP_RESET_STATE`, OPEN and abstract in the spec; the token 0 is this model's default (log 7, DESIGN CHOICE). -/
  cpResetState : CpState := { token := 0 }
  deriving DecidableEq, Repr

/-- Which agent takes the next step, with what its environment chooses (R11). Any of them may be next (R206, R70). -/
inductive Move where
  /-- The next transaction of the main context. -/
  | main
  /-- The next step of the interrupt context: `INT_ENTER`, a transaction of `RxDrain` (or of what a handler issues after
  it, log 24), or `INT_EXIT`. -/
  | int
  /-- `GRANT` of the arbiter (R113). -/
  | grant
  /-- `RESUME` of the arbiter (R114). -/
  | resume
  /-- `CP_STEP` (R115): the coprocessor's new state, the bytes it stores in order, its new readiness flag. -/
  | cpStep (state : CpState) (stores : List Host.Cell) (ready : Bool)
  /-- `RX_ARRIVE(p, b)` (R146). -/
  | rxArrive (p : Port) (b : Byte)
  /-- `TX_SHIFT(p)` (R147). -/
  | txShift (p : Port)
  deriving DecidableEq, Repr, Inhabited

/-- The byte of coprocessor memory that nothing has written since block reset, drawn once an address (R44, U7; log 4). -/
opaque Config.cpmemPowerOn : Nat → Byte

/-- The byte of a ring slot that nothing has written since block reset, drawn once a slot (R44, U6, U7; log 4). -/
opaque Config.ringPowerOn : Nat → Byte

/-- The byte that the n-th draw gives: an `unspecified` byte (R9; log 9). -/
opaque Config.freeByte : Nat → Byte

/-- The byte that the n-th draw gives for an index past the end of an image, by the index (R119; log 17). -/
opaque Config.freeImageByte : Nat → Nat → Byte

/-- The 16-bit value that the n-th draw gives: the result of an illegal read (R97; log 10), and of an `MRD` that faults
(R120; log 9). -/
opaque Config.freeWord : Nat → Word

/-- Further bytes of the n-th draw: a FIFO's content after an overrun (R142, R146; log 11). -/
opaque Config.freeBytes : Nat → List Byte

/-- The agent that the n-th draw makes move next, once the script is used up (R11, R206; log 2). -/
opaque Config.freeMove : Nat → Move

end Sys2Proof
end

