-- ==== Sys2Proof/Syntax.lean ====
section
/-! DEFINITION. The instructions: one constructor for each row of spec/opcode_table.json, the 23 level-0 transactions
(R94) and the 17 level-1 operations (R102). -/

namespace Sys2Proof

/-- `d` is the `DATA` field of a write, `p` the port bit, `a` the `ADDR` field, `b` the `BYTE` field or a byte operand. -/
inductive Instr where
  /-- `WR.ARBCTL #d` (R111). -/
  | wrArbctl (d : Word)
  /-- `RD.ARBCTL` (R122). -/
  | rdArbctl
  /-- `RD.ARBSTAT` (R123). -/
  | rdArbstat
  /-- `RD.FLT` (R208). -/
  | rdFlt
  /-- `WR.CTRL p, #d` (R140). -/
  | wrCtrl (p : Port) (d : Word)
  /-- `RD.CTRL p` (R141). -/
  | rdCtrl (p : Port)
  /-- `WR.SCTRL p, #d` (R145). -/
  | wrSctrl (p : Port) (d : Word)
  /-- `RD.SCTRL p` (R144). -/
  | rdSctrl (p : Port)
  /-- `WR.TXDATA p, #d` (R142). -/
  | wrTxdata (p : Port) (d : Word)
  /-- `RD.RXDATA p` (R143). -/
  | rdRxdata (p : Port)
  /-- `WR.MODE #d` (R209). -/
  | wrMode (d : Word)
  /-- `RD.MODE` (R210). -/
  | rdMode
  /-- `WR.IMASK #d` (R211). -/
  | wrImask (d : Word)
  /-- `RD.IMASK` (R212). -/
  | rdImask
  /-- `WR.RBDATA #d` (R172). -/
  | wrRbdata (d : Word)
  /-- `RD.RBDATA` (R173). -/
  | rdRbdata
  /-- `RD.RBSTAT` (R174). -/
  | rdRbstat
  /-- `RD.RBAVAIL` (R175). -/
  | rdRbavail
  /-- `RD.RBRD` (R182). -/
  | rdRbrd
  /-- `RD.RBWR` (R183). -/
  | rdRbwr
  /-- `WR.RBCTL #d` (R176). -/
  | wrRbctl (d : Word)
  /-- `MRD a` (R120). -/
  | mrd (a : Word)
  /-- `MWR a, #b` (R121). -/
  | mwr (a : Word) (b : Byte)
  /-- `RequestBus(reset)` (R116). -/
  | requestBus (reset : Bool)
  /-- `ReleaseBus()` (R117). -/
  | releaseBus
  /-- `IsBusTaken()` (R118). -/
  | isBusTaken
  /-- `UploadProgram(image, length, resetFirst)` (R119). -/
  | uploadProgram (image : List Byte) (length : Nat) (resetFirst : Bool)
  /-- `SerialInit(port, rxInt)` (R148). -/
  | serialInit (port : Port) (rxInt : Bool)
  /-- `IsPresent()` (R149). -/
  | isPresent
  /-- `WriteReady()` (R150). -/
  | writeReady
  /-- `SerWrite(b)` (R151). -/
  | serWrite (b : Byte)
  /-- `ReadReady()` (R152). -/
  | readReady
  /-- `SerRead()` (R153). -/
  | serRead
  /-- `ResetFifos()` (R154). -/
  | resetFifos
  /-- `BaudRate()` (R155). -/
  | baudRate
  /-- `RbWrite(b)` (R177). -/
  | rbWrite (b : Byte)
  /-- `RbRead()` (R178). -/
  | rbRead
  /-- `RbCanRead()` (R179). -/
  | rbCanRead
  /-- `RbAvailable()` (R181). -/
  | rbAvailable
  /-- `RxDrain()` (R180). -/
  | rxDrain
  deriving DecidableEq, Repr

end Sys2Proof
end

