-- ==== Sys2Proof/WellFormed.lean ====
section
/-! DEFINITION. What the spec asks of an instruction's operands and of the parameters. -/

namespace Sys2Proof

/-- `UploadProgram` needs an image of at least `length` bytes (R119, Operands). Every other operand is any value of
its field. -/
def Instr.wf : Instr → Bool
  | .uploadProgram image length _ => decide (length ≤ image.length)
  | .wrArbctl _ | .rdArbctl | .rdArbstat | .rdFlt | .wrCtrl _ _ | .rdCtrl _ | .wrSctrl _ _ | .rdSctrl _
  | .wrTxdata _ _ | .rdRxdata _ | .wrMode _ | .rdMode | .wrImask _ | .rdImask | .wrRbdata _ | .rdRbdata
  | .rdRbstat | .rdRbavail | .rdRbrd | .rdRbwr | .wrRbctl _ | .mrd _ | .mwr _ _ | .requestBus _ | .releaseBus
  | .isBusTaken | .serialInit _ _ | .isPresent | .writeReady | .serWrite _ | .readReady | .serRead | .resetFifos
  | .baudRate | .rbWrite _ | .rbRead | .rbCanRead | .rbAvailable | .rxDrain => true

/-- A level-0 transaction, which has an encoding of its own (R94); the others are level-1 operations (R102). -/
def Instr.level0 : Instr → Bool
  | .wrArbctl _ | .rdArbctl | .rdArbstat | .rdFlt | .wrCtrl _ _ | .rdCtrl _ | .wrSctrl _ _ | .rdSctrl _
  | .wrTxdata _ _ | .rdRxdata _ | .wrMode _ | .rdMode | .wrImask _ | .rdImask | .wrRbdata _ | .rdRbdata
  | .rdRbstat | .rdRbavail | .rdRbrd | .rdRbwr | .wrRbctl _ | .mrd _ | .mwr _ _ => true
  | .requestBus _ | .releaseBus | .isBusTaken | .uploadProgram _ _ _ | .serialInit _ _ | .isPresent | .writeReady
  | .serWrite _ | .readReady | .serRead | .resetFifos | .baudRate | .rbWrite _ | .rbRead | .rbCanRead
  | .rbAvailable | .rxDrain => false

/-- The four values of `BAUD_DECODE`, code 0 first. -/
def BaudTable.values (t : BaudTable) : List Baud := [t.code0, t.code1, t.code2, t.code3]

/-- The limits R6, R7 and R155 put on the parameters: `2 ≤ N ≤ 65536`, `1 ≤ CPMEM_SIZE ≤ 65536`, FIFO depths at
least 1, exactly three baud codes mapping to 4800, and `BAUD_DECODE(BAUD_INIT_CODE) = 4800`. -/
def Params.wf (c : Params) : Bool :=
  decide (2 ≤ c.bufLen) && decide (c.bufLen ≤ 65536) && decide (1 ≤ c.cpmemSize) && decide (c.cpmemSize ≤ 65536)
    && decide (1 ≤ c.txDepth) && decide (1 ≤ c.rxDepth) && decide (c.baudDecode.values.count .b4800 = 3)
    && decide (c.baudDecode.values[c.baudInitCode.toNat]? = some .b4800)

end Sys2Proof
end

