-- ==== Sys2Proof/Decode.lean ====
section
/-! DEFINITION. The decoder of the 32-bit transaction word (R90 to R98), total and rejecting by name; the opcode
table's masks and match values (R94); and after them the encoder of a level-0 transaction (R91 to R93). -/

namespace Sys2Proof

/-- Why a word is an illegal transaction: the four cases of R97, each of which makes `step` raise `BAD_TXN`. -/
inductive DecodeError where
  /-- One of bits 29:24 is 1. -/
  | reservedBits
  /-- `S = 0` and `REG` is not implemented. -/
  | unimplementedRegister
  /-- `S = 0` and the direction `W` is illegal for `REG`. -/
  | illegalDirection
  /-- `W = 0` and the `DATA` or `BYTE` field is not zero. -/
  | nonzeroReadData
  deriving DecidableEq, Repr

/-- Bit 31, `W`: 1 for a write (R90). -/
def fieldW (t : TxnWord) : Bool := t.getLsbD 31

/-- Bit 30, `S`: 0 the register bank, 1 coprocessor memory (R90). -/
def fieldS (t : TxnWord) : Bool := t.getLsbD 30

/-- Bits 29:24, which must be 0 (R90). -/
def fieldReserved (t : TxnWord) : BitVec 6 := t.extractLsb' 24 6

/-- Bits 23:16 of format R, the register number (R91). -/
def fieldReg (t : TxnWord) : BitVec 8 := t.extractLsb' 16 8

/-- Bits 15:0 of format R (R91). -/
def fieldData (t : TxnWord) : Word := t.extractLsb' 0 16

/-- Bits 23:8 of format M (R92). -/
def fieldAddr (t : TxnWord) : Word := t.extractLsb' 8 16

/-- Bits 7:0 of format M (R92). -/
def fieldByte (t : TxnWord) : Byte := t.extractLsb' 0 8

/-- The write transactions of the register map (R93), by register number. -/
def decodeWrite (reg : BitVec 8) (d : Word) : Except DecodeError Instr :=
  match reg.toNat with
  | 0x00 => .ok (.wrArbctl d)
  | 0x10 => .ok (.wrCtrl .ext d)
  | 0x14 => .ok (.wrCtrl .ctrl2 d)
  | 0x11 => .ok (.wrSctrl .ext d)
  | 0x15 => .ok (.wrSctrl .ctrl2 d)
  | 0x12 => .ok (.wrTxdata .ext d)
  | 0x16 => .ok (.wrTxdata .ctrl2 d)
  | 0x20 => .ok (.wrMode d)
  | 0x21 => .ok (.wrImask d)
  | 0x30 => .ok (.wrRbdata d)
  | 0x35 => .ok (.wrRbctl d)
  | 0x01 | 0x02 | 0x13 | 0x17 | 0x31 | 0x32 | 0x33 | 0x34 => .error .illegalDirection
  | _ => .error .unimplementedRegister

/-- The read transactions of the register map (R93), by register number. -/
def decodeRead (reg : BitVec 8) : Except DecodeError Instr :=
  match reg.toNat with
  | 0x00 => .ok .rdArbctl
  | 0x01 => .ok .rdArbstat
  | 0x02 => .ok .rdFlt
  | 0x10 => .ok (.rdCtrl .ext)
  | 0x14 => .ok (.rdCtrl .ctrl2)
  | 0x11 => .ok (.rdSctrl .ext)
  | 0x15 => .ok (.rdSctrl .ctrl2)
  | 0x13 => .ok (.rdRxdata .ext)
  | 0x17 => .ok (.rdRxdata .ctrl2)
  | 0x20 => .ok .rdMode
  | 0x21 => .ok .rdImask
  | 0x30 => .ok .rdRbdata
  | 0x31 => .ok .rdRbstat
  | 0x32 => .ok .rdRbavail
  | 0x33 => .ok .rdRbrd
  | 0x34 => .ok .rdRbwr
  | 0x12 | 0x16 | 0x35 => .error .illegalDirection
  | _ => .error .unimplementedRegister

/-- The decoder: every 32-bit word is a level-0 transaction or is rejected by name (R90 to R97). -/
def decode (t : TxnWord) : Except DecodeError Instr :=
  if fieldReserved t ≠ 0 then .error .reservedBits
  else if fieldS t then
    if fieldW t then .ok (.mwr (fieldAddr t) (fieldByte t))
    else if fieldByte t ≠ 0 then .error .nonzeroReadData
    else .ok (.mrd (fieldAddr t))
  else if fieldW t then decodeWrite (fieldReg t) (fieldData t)
  else
    match decodeRead (fieldReg t) with
    | .error e => .error e
    | .ok i => if fieldData t ≠ 0 then .error .nonzeroReadData else .ok i

/-- The instruction the decoder reads from a row's bits. A transaction is one 32-bit word, bit 0 its least significant
(R90, R98); a number that does not fit 32 bits is no transaction. -/
def decodeTableWord (_nbits w : Nat) : Option Instr :=
  if w < 2 ^ 32 then
    match decode (BitVec.ofNat 32 w) with
    | .ok i => some i
    | .error _ => none
  else none

/-- One row of the opcode map (R94): a word is the row's transaction when its bits under `mask` are `value`. -/
structure OpcodeRow where
  mnemonic : String
  value : TxnWord
  mask : TxnWord
  deriving DecidableEq, Repr

/-- The word has the bits the row fixes. -/
def OpcodeRow.matches (r : OpcodeRow) (t : TxnWord) : Bool := decide (t &&& r.mask = r.value)

/-- The arbiter's and the platform's rows of spec/opcode_table.json. -/
def opcodeRowsArbiter : List OpcodeRow :=
  [{ mnemonic := "WR.ARBCTL", value := 0x80000000, mask := 0xFFFF0000 },
   { mnemonic := "RD.ARBCTL", value := 0x00000000, mask := 0xFFFFFFFF },
   { mnemonic := "RD.ARBSTAT", value := 0x00010000, mask := 0xFFFFFFFF },
   { mnemonic := "RD.FLT", value := 0x00020000, mask := 0xFFFFFFFF },
   { mnemonic := "WR.MODE", value := 0x80200000, mask := 0xFFFF0000 },
   { mnemonic := "RD.MODE", value := 0x00200000, mask := 0xFFFFFFFF },
   { mnemonic := "WR.IMASK", value := 0x80210000, mask := 0xFFFF0000 },
   { mnemonic := "RD.IMASK", value := 0x00210000, mask := 0xFFFFFFFF },
   { mnemonic := "MRD", value := 0x40000000, mask := 0xFF0000FF },
   { mnemonic := "MWR", value := 0xC0000000, mask := 0xFF000000 }]

/-- The port and ring-buffer rows of spec/opcode_table.json. -/
def opcodeRowsSerial : List OpcodeRow :=
  [{ mnemonic := "WR.CTRL", value := 0x80100000, mask := 0xFFFB0000 },
   { mnemonic := "RD.CTRL", value := 0x00100000, mask := 0xFFFBFFFF },
   { mnemonic := "WR.SCTRL", value := 0x80110000, mask := 0xFFFB0000 },
   { mnemonic := "RD.SCTRL", value := 0x00110000, mask := 0xFFFBFFFF },
   { mnemonic := "WR.TXDATA", value := 0x80120000, mask := 0xFFFB0000 },
   { mnemonic := "RD.RXDATA", value := 0x00130000, mask := 0xFFFBFFFF },
   { mnemonic := "WR.RBDATA", value := 0x80300000, mask := 0xFFFF0000 },
   { mnemonic := "RD.RBDATA", value := 0x00300000, mask := 0xFFFFFFFF },
   { mnemonic := "RD.RBSTAT", value := 0x00310000, mask := 0xFFFFFFFF },
   { mnemonic := "RD.RBAVAIL", value := 0x00320000, mask := 0xFFFFFFFF },
   { mnemonic := "RD.RBRD", value := 0x00330000, mask := 0xFFFFFFFF },
   { mnemonic := "RD.RBWR", value := 0x00340000, mask := 0xFFFFFFFF },
   { mnemonic := "WR.RBCTL", value := 0x80350000, mask := 0xFFFF0000 }]

/-- The opcode map, all 23 rows that have an encoding (R94). -/
def opcodeRows : List OpcodeRow := opcodeRowsArbiter ++ opcodeRowsSerial

/-- A format R word (R91): `W`, the register number in bits 23:16, `DATA` in bits 15:0. -/
def packR (w : Bool) (reg : BitVec 8) (d : Word) : TxnWord :=
  ((BitVec.ofBool w).setWidth 32 <<< 31) ||| (reg.setWidth 32 <<< 16) ||| d.setWidth 32

/-- A format M word (R92): `W`, `S = 1`, `ADDR` in bits 23:8, `BYTE` in bits 7:0. -/
def packM (w : Bool) (a : Word) (b : Byte) : TxnWord :=
  ((BitVec.ofBool w).setWidth 32 <<< 31) ||| (0x40000000#32) ||| (a.setWidth 32 <<< 8) ||| b.setWidth 32

/-- The register number of a port register (R93, R96): `0b0001_0prr`, with `rr` the register and `p` its bit 2. -/
def portReg (p : Port) (rr : BitVec 8) : BitVec 8 :=
  match p with
  | .ext => 0x10 ||| rr
  | .ctrl2 => 0x14 ||| rr

/-- The word of a level-0 transaction (R91 to R93); a level-1 operation has none (R102). -/
def encode : Instr → Option TxnWord
  | .wrArbctl d => some (packR true 0x00 d)
  | .rdArbctl => some (packR false 0x00 0)
  | .rdArbstat => some (packR false 0x01 0)
  | .rdFlt => some (packR false 0x02 0)
  | .wrCtrl p d => some (packR true (portReg p 0) d)
  | .rdCtrl p => some (packR false (portReg p 0) 0)
  | .wrSctrl p d => some (packR true (portReg p 1) d)
  | .rdSctrl p => some (packR false (portReg p 1) 0)
  | .wrTxdata p d => some (packR true (portReg p 2) d)
  | .rdRxdata p => some (packR false (portReg p 3) 0)
  | .wrMode d => some (packR true 0x20 d)
  | .rdMode => some (packR false 0x20 0)
  | .wrImask d => some (packR true 0x21 d)
  | .rdImask => some (packR false 0x21 0)
  | .wrRbdata d => some (packR true 0x30 d)
  | .rdRbdata => some (packR false 0x30 0)
  | .rdRbstat => some (packR false 0x31 0)
  | .rdRbavail => some (packR false 0x32 0)
  | .rdRbrd => some (packR false 0x33 0)
  | .rdRbwr => some (packR false 0x34 0)
  | .wrRbctl d => some (packR true 0x35 d)
  | .mrd a => some (packM false a 0)
  | .mwr a b => some (packM true a b)
  | .requestBus _ | .releaseBus | .isBusTaken | .uploadProgram _ _ _ | .serialInit _ _ | .isPresent | .writeReady
  | .serWrite _ | .readReady | .serRead | .resetFifos | .baudRate | .rbWrite _ | .rbRead | .rbCanRead
  | .rbAvailable | .rxDrain => none

end Sys2Proof
end

