-- ==== Sys2Proof/Machine/State.lean ====
section
/-! DEFINITION. The state of the block (R20), the arguments of the step relation that the host's step has no other
place for (R20, R22, R234), the outcomes' reasons, and the state after block reset (R44). Plain data throughout. -/

namespace Sys2Proof.Machine

/-- Bytes by index, in one canonical form: indices strictly rising. An index that is not listed holds no value that
anything wrote since block reset; what reading it gives is said by the operation that reads (log 4). -/
abbrev Memory := List Host.Cell

/-- The registers, FIFOs and line history of one port (R20, R27, R28, R39). -/
structure PortRegs where
  /-- `ctrl[p]`. -/
  ctrl : Byte
  /-- `baud[p]`. -/
  baud : BitVec 2
  /-- `subfn[p]`. -/
  subfn : BitVec 2
  /-- `rint[p]`. -/
  rint : Bool
  /-- `rxFifo[p]`, head first. -/
  rxFifo : List Byte
  /-- `txFifo[p]`, head first. -/
  txFifo : List Byte
  /-- `txLine[p]`, oldest first. -/
  txLine : List Byte
  deriving DecidableEq, Repr

/-- The serial transport's state (R42, R156). -/
inductive SerState where
  | uninitialized
  | configured
  | active
  deriving DecidableEq, Repr

/-- The position inside the drain routine (R180). -/
inductive DrainPos where
  /-- About to read `SCTRL`. -/
  | atCheck
  /-- About to read `RXDATA`. -/
  | atRead
  /-- About to write this byte to `RBDATA`. -/
  | atWrite (b : Byte)
  deriving DecidableEq, Repr

/-- Where `MAIN`, or `INT` in a handler of R243, stands inside a level-1 operation: the transaction it issues next
(R101, R102; logs 13, 24). A port that stands here was read when the operation was invoked (log 30, DESIGN CHOICE). -/
inductive MainPos where
  /-- In no operation. -/
  | idle
  /-- In the `TAKEN` poll of `RequestBus`, after `n` unsuccessful polls; inside `UploadProgram`, with the bytes to copy. -/
  | pollTaken (n : Nat) (upload : Option (List Byte))
  /-- The poll bound is reached: the `WR.ARBCTL #0` that withdraws the request comes next. -/
  | withdraw
  /-- In the copy of `UploadProgram`: the next address and the bytes still to store; with none left, the release. -/
  | copy (a : Nat) (rest : List Byte)
  /-- In the `READY` poll of `UploadProgram`, after `n` unsuccessful polls. -/
  | pollReady (n : Nat)
  /-- In `SerialInit`: `WR.SCTRL` comes next. -/
  | initSctrl (p : Port) (rxInt : Bool)
  /-- In `ResetFifos`: `RD.SCTRL` comes next; inside `SerialInit`, with its `rxInt`. -/
  | fifoCheck (p : Port) (init : Option Bool)
  /-- In `ResetFifos`: `RD.RXDATA` comes next. -/
  | fifoPop (p : Port) (init : Option Bool)
  /-- In `ResetFifos`: `WR.RBCTL #1` comes next. -/
  | ringClear (init : Option Bool)
  /-- In `SerialInit`: `WR.IMASK` comes next. -/
  | initImask
  /-- In `SerialInit`: `RD.MODE` comes next. -/
  | initModeRead
  /-- In `SerialInit`: `WR.MODE #(m or 0x08)` comes next. -/
  | initModeWrite (m : Word)
  /-- In a `RxDrain` that a command list invoked. -/
  | drain (p : Port) (pos : DrainPos)
  deriving DecidableEq, Repr

/-- What a transaction (R90) or an operation (R102, R205) returned. -/
inductive Result where
  /-- Nothing: a write transaction, or an operation of type `void`. -/
  | void
  /-- The value of a read transaction, or a `u16`. -/
  | value (w : Word)
  /-- A byte. -/
  | byte (b : Byte)
  /-- A truth value. -/
  | bool (b : Bool)
  /-- The result of `BaudRate()`. -/
  | rate (r : Baud)
  /-- `Ok` of `RequestBus` and `UploadProgram`. -/
  | ok
  /-- `BusTimeout`, code 9 (R205). -/
  | busTimeout
  /-- `SerialNotInit`, code 10 (R205). -/
  | serialNotInit
  deriving DecidableEq, Repr

/-- A fault flag with its info (R191 to R199). -/
inductive Raised where
  /-- Code 1, bit 0; the address (R192). -/
  | busNotOwned (a : Nat)
  /-- Code 2, bit 1; the address (R193). -/
  | cpmemRange (a : Nat)
  /-- Code 3, bit 2; the word (R194). -/
  | badTxn (t : TxnWord)
  /-- Code 4, bit 3; the port (R195). -/
  | rxUnderflow (p : Port)
  /-- Code 5, bit 4; the port (R196). -/
  | txOverrun (p : Port)
  /-- Code 6, bit 5; the port (R197). -/
  | rxfifoOverrun (p : Port)
  /-- Code 7, bit 6 (R198). -/
  | rbOverflow
  /-- Code 8, bit 7 (R199). -/
  | rbUnderflow
  deriving DecidableEq, Repr

/-- What a control construct of `MAIN`'s command list tests: the last result (R101). -/
inductive Cond where
  /-- The last result is a value whose bit `n` is `b`. -/
  | bit (n : Nat) (b : Bool)
  /-- The last result is `r`. -/
  | equals (r : Result)
  /-- The last result is not `r`. -/
  | differs (r : Result)
  deriving DecidableEq, Repr

/-- An entry of `MAIN`'s command list (R22, R234): a transaction word, legal or not; a transaction or operation by
name; and the control constructs of R101, `loop`, `exit` and `if`, as jumps in the list (log 22). -/
inductive Cmd where
  | txn (t : TxnWord)
  | op (i : Instr)
  | jump (k : Nat)
  | jumpIf (c : Cond) (k : Nat)
  deriving DecidableEq, Repr

/-- The state. The first group is the record of R20; the second is what R20 and R22 call arguments of the step
relation, and the model's records (log 1). -/
structure State where
  /-- The bus-request signal. -/
  req : Bool
  /-- The "bus taken" status bit: 1 means granted to the primary controller. -/
  taken : Bool
  /-- The coprocessor's readiness flag. -/
  cpReady : Bool
  /-- The coprocessor's internal state, opaque (R41). -/
  cpState : CpState
  /-- Coprocessor memory. -/
  cpmem : Memory
  /-- Port `Ext`. -/
  ext : PortRegs
  /-- Port `Ctrl2`. -/
  ctrl2 : PortRegs
  /-- The display-timing mode register; bit 3 is `IE` (R31). -/
  modeReg : Byte
  /-- The global interrupt mask level (R32). -/
  imask : BitVec 3
  /-- 1 while the interrupt context is active. -/
  inIrq : Bool
  /-- The ring array. -/
  buf : Memory
  /-- The consumer cursor. -/
  readHead : Word
  /-- The producer cursor. -/
  writeHead : Word
  /-- The sticky fault flags (R26). -/
  flt : Byte
  /-- The port selected by `SerialInit`. -/
  port : Option Port
  /-- The serial transport's state. -/
  serState : SerState
  /-- The position of `INT` inside its `RxDrain`; `none`: not inside it, or at its exit (R180, R203; log 24). -/
  intPos : Option DrainPos
  /-- The parameters (R6, R7), written by no step. -/
  cfg : Params
  /-- The command list of `MAIN` (R22). -/
  prog : List Cmd
  /-- The index of `MAIN`'s next command (R22). -/
  idx : Nat
  /-- Where `MAIN` stands inside a level-1 operation (R102). -/
  mainPos : MainPos
  /-- What the last transaction or operation returned to `MAIN` (log 14). -/
  result : Result
  /-- What the interrupt handler issues after `RxDrain`, written by no step; nothing, for the handler of R201 (R243;
  log 24). -/
  handler : List Cmd
  /-- The index of the handler's next command (log 24). -/
  intIdx : Nat
  /-- Where `INT` stands inside a level-1 operation of the handler (log 24). -/
  intOp : MainPos
  /-- What the handler's last transaction or operation returned to `INT` (logs 14, 24). -/
  intResult : Result
  /-- Which agent moves next, as far as that is fixed in advance (log 2). -/
  script : List Move
  /-- How many free values have been drawn (log 9). -/
  draws : Nat
  /-- The record of the faults raised, oldest first (R191; log 21). -/
  raised : List Raised
  deriving DecidableEq, Repr

/-- Why the machine stops with a fault: never, so there is no constructor. The block has no trap, and its own faults
are bits of `FLT` after which the run goes on (R190). -/
inductive Fault where
  deriving DecidableEq, Repr

/-- Why the machine has no meaning for an instruction. -/
inductive Refusal where
  /-- Raised by an arm of `exec` whose instruction has no meaning yet; no arm of this model answers so. Safe. -/
  | notModelled (mnemonic : String)
  deriving DecidableEq, Repr

/-- A port after block reset (R44); `rxFifo` is DESIGN CHOICE empty (log 5). -/
def PortRegs.reset : PortRegs :=
  { ctrl := 0, baud := 0, subfn := 0, rint := false, rxFifo := [], txFifo := [], txLine := [] }

/-- Block reset (R44, R231), with the default parameters and nothing launched. DESIGN CHOICE: `rxFifo` (log 5), bits
7:4 and 2:0 of `modeReg` (log 6), the token of `CP_RESET_STATE` (log 7), and the model's own fields (logs 2, 3, 9,
13, 14, 21, 24). -/
def State.reset : State :=
  { req := false, taken := false, cpReady := false, cpState := ({} : Params).cpResetState, cpmem := []
    ext := PortRegs.reset, ctrl2 := PortRegs.reset
    modeReg := 0, imask := 7, inIrq := false
    buf := [], readHead := 0, writeHead := 0, flt := 0
    port := none, serState := .uninitialized
    intPos := none, cfg := {}, prog := [], idx := 0, mainPos := .idle, result := .void
    handler := [], intIdx := 0, intOp := .idle, intResult := .void
    script := [], draws := 0, raised := [] }

end Sys2Proof.Machine
end

