-- ==== Sys2Proof/Machine/Operands.lean ====
section
/-! DEFINITION. Operand assembly (R95): which bits of the `DATA` field each register takes, and how a read puts a
register's bits in place. The other bits of `DATA` in a write are ignored, not checked. -/

namespace Sys2Proof.Machine

/-- `ARBCTL` bit 0, `REQ` (R24, R111). -/
def dataReq (d : Word) : Bool := d.getLsbD 0

/-- `ARBCTL` bit 1, `RST` (R24, R111). -/
def dataRst (d : Word) : Bool := d.getLsbD 1

/-- Bits 7:0, taken by `CTRL`, `MODE`, `TXDATA` and `RBDATA`. -/
def dataByte (d : Word) : Byte := d.extractLsb' 0 8

/-- `SCTRL` bits 7:6, `BAUD` (R28, R145). -/
def dataBaud (d : Word) : BitVec 2 := d.extractLsb' 6 2

/-- `SCTRL` bits 5:4, `SUBFN` (R28, R145). -/
def dataSubfn (d : Word) : BitVec 2 := d.extractLsb' 4 2

/-- `SCTRL` bit 3, `RINT` (R28, R145). -/
def dataRint (d : Word) : Bool := d.getLsbD 3

/-- `IMASK` bits 2:0 (R32, R211). -/
def dataImask (d : Word) : BitVec 3 := d.extractLsb' 0 3

/-- `RBCTL` bit 0, `CLR` (R38, R176). -/
def dataClr (d : Word) : Bool := d.getLsbD 0

/-- A register's bits in place with every unused bit 0 (R8 `zext_16`, R95). -/
def zext16 {n : Nat} (v : BitVec n) : Word := v.setWidth 16

/-- One bit as a word. -/
def bitWord (b : Bool) : Word := zext16 (BitVec.ofBool b)

/-- The value `SerialInit` writes to `SCTRL`: `64*BAUD_INIT_CODE + 16*SUBFN_INIT + 8*rxInt` (R148). -/
def initSctrlData (c : Params) (rxInt : Bool) : Word :=
  zext16 c.baudInitCode <<< 6 ||| zext16 c.subfnInit <<< 4 ||| bitWord rxInt <<< 3

/-- The value `RequestBus(reset)` writes to `ARBCTL`: `1 + 2*reset` (R116). -/
def requestData (reset : Bool) : Word := 1 ||| bitWord reset <<< 1

/-- `BAUD_DECODE` at a 2-bit code (R155). -/
def baudOf (t : BaudTable) (code : BitVec 2) : Baud :=
  match code.toNat with
  | 0 => t.code0
  | 1 => t.code1
  | 2 => t.code2
  | _ => t.code3

end Sys2Proof.Machine
end

