-- ==== Sys2Proof/Machine/Flags.lean ====
section
/-! DEFINITION. The status flags (R23), the cursor arithmetic of the ring buffer (R171), the bits of `FLT` (R26) and
the interrupt condition (R200): all derived from the state, none stored. -/

namespace Sys2Proof.Machine

/-- The registers of a port (R21: two separate sets). -/
def State.io (s : State) : Port → PortRegs
  | .ext => s.ext
  | .ctrl2 => s.ctrl2

/-- `RRDY[p]`: the receive FIFO is not empty (R23, R144). -/
def rrdy (p : Port) (s : State) : Bool := !(s.io p).rxFifo.isEmpty

/-- `TFULL[p]`: the transmit FIFO holds `TXFIFO_DEPTH` bytes (R23, R144). -/
def tfull (p : Port) (s : State) : Bool := decide ((s.io p).txFifo.length = s.cfg.txDepth)

/-- `CANREAD`: the cursors differ (R23, R174). -/
def canRead (s : State) : Bool := decide (s.writeHead ≠ s.readHead)

/-- `empty(s)` (R171). -/
def ringEmpty (s : State) : Bool := decide (s.writeHead = s.readHead)

/-- `next(h) = (h + 1) mod N` (R171). -/
def nextCursor (n : Nat) (h : Word) : Word := BitVec.ofNat 16 ((h.toNat + 1) % n)

/-- `full(s)`: `next(wh) = rh` (R171). -/
def ringFull (s : State) : Bool := decide (nextCursor s.cfg.bufLen s.writeHead = s.readHead)

/-- `used(s) = (wh - rh) mod N` (R40, R171). -/
def ringUsed (s : State) : Nat :=
  if s.readHead.toNat ≤ s.writeHead.toNat then s.writeHead.toNat - s.readHead.toNat
  else s.writeHead.toNat + s.cfg.bufLen - s.readHead.toNat

/-- `Available()`, literally: `AVAIL_CAP - (wh - rh)` if `wh >= rh`, else `rh - wh`, 16 bits (R175; log 26). -/
def ringAvail (s : State) : Word :=
  if s.readHead.toNat ≤ s.writeHead.toNat then BitVec.ofNat 16 s.cfg.availCap - (s.writeHead - s.readHead)
  else s.readHead - s.writeHead

/-- `PrimaryOwns(s)`: `req = 1` and `taken = 1` (R66). -/
def primaryOwns (s : State) : Bool := s.req && s.taken

/-- The bit of `FLT` a fault sets (R26, R192 to R199). -/
def Raised.bit : Raised → Nat
  | .busNotOwned _ => 0
  | .cpmemRange _ => 1
  | .badTxn _ => 2
  | .rxUnderflow _ => 3
  | .txOverrun _ => 4
  | .rxfifoOverrun _ => 5
  | .rbOverflow => 6
  | .rbUnderflow => 7

/-- The cause code of a fault, its bit number plus 1 (R26). -/
def Raised.code (f : Raised) : Nat := f.bit + 1

/-- The code of a result that exists only at level 1 (R205). -/
def Result.code : Result → Option Nat
  | .busTimeout => some 9
  | .serialNotInit => some 10
  | _ => none

/-- The interrupt condition `irq(s)`: level-sensitive, not latched (R200). -/
def irq (s : State) : Bool :=
  ((rrdy .ext s && s.ext.rint) || (rrdy .ctrl2 s && s.ctrl2.rint))
    && s.modeReg.getLsbD 3 && decide (s.cfg.rxIrqLevel > s.imask.toNat)

/-- A condition of `MAIN`'s command list on the last result (R101). -/
def Cond.holds (c : Cond) (r : Result) : Bool :=
  match c, r with
  | .bit n b, .value w => decide (w.getLsbD n = b)
  | .bit _ _, _ => false
  | .equals r', r => decide (r = r')
  | .differs r', r => decide (r ≠ r')

end Sys2Proof.Machine
end

