-- ==== Sys2Proof/Machine/Ops.lean ====
section
/-! DEFINITION. The named operations over the state: bytes by index, port registers, raising a fault, drawing a free
value, the handshake, coprocessor memory, the FIFOs, the ring buffer, and entry to and exit from the interrupt
context. Every meaning is written over these. -/

namespace Sys2Proof.Machine

/-! ### Bytes by index -/

/-- The byte listed at an index, if one is. -/
def Memory.find : Memory → Nat → Option Byte
  | [], _ => none
  | (b, v) :: m, a => if a = b then some v else Memory.find m a

/-- Store a byte at an index, keeping the indices strictly rising. -/
def Memory.put : Memory → Nat → Byte → Memory
  | [], a, v => [(a, v)]
  | (b, w) :: m, a, v =>
    if a < b then (a, v) :: (b, w) :: m
    else if a = b then (a, v) :: m
    else (b, w) :: Memory.put m a v

/-- The canonical form: indices strictly rising. An unlisted index holds no written value, so no entry can equal
what an unlisted index holds. -/
def Memory.wf : Memory → Bool
  | [] => true
  | [_] => true
  | c :: d :: m => decide (c.1 < d.1) && Memory.wf (d :: m)

/-- Every listed index lies below a bound. -/
def Memory.below (m : Memory) (n : Nat) : Bool := m.all fun c => decide (c.1 < n)

/-- One byte of coprocessor memory; a byte nothing has written is the value drawn at reset (R44, U7; log 4). -/
def cpByte (s : State) (a : Nat) : Byte := (Memory.find s.cpmem a).getD (Config.cpmemPowerOn a)

/-- One slot of the ring array; a slot nothing has written is the value drawn at reset (R44, U6, U7; log 4). -/
def ringByte (s : State) (k : Nat) : Byte := (Memory.find s.buf k).getD (Config.ringPowerOn k)

/-! ### Ports, results, faults, free values -/

/-- Replace the registers of a port. -/
def State.setIo (s : State) (p : Port) (r : PortRegs) : State :=
  match p with
  | .ext => { s with ext := r }
  | .ctrl2 => { s with ctrl2 := r }

/-- Return a result to the issuer (R90; log 14). -/
def State.returns (s : State) (r : Result) : State := { s with result := r }

/-- A level-1 operation ends with a result (R101, R102). -/
def State.finish (s : State) (r : Result) : State := { s with mainPos := .idle, result := r }

/-- `raise F(info)`: set bit `F` of `flt` and do nothing else to the block (R191); the info goes into the model's
record (log 21). -/
def State.raise (s : State) (f : Raised) : State :=
  { s with flt := s.flt ||| (1#8 <<< f.bit), raised := s.raised ++ [f] }

/-- One more free value has been drawn (R9; log 9). -/
def State.drawn (s : State) : State := { s with draws := s.draws + 1 }

/-- A FIFO's content after an overrun: any sequence of 1 to `depth` bytes (R142, R146, U3, U4; log 11). -/
def overrunContent (depth : Nat) (s : State) : List Byte :=
  (Config.freeByte s.draws :: Config.freeBytes s.draws).take depth

/-- `BAD_TXN(t)`: an illegal transaction changes no other state; if it is a read it returns an unspecified value
(R97, R194; log 10). -/
def badTxn (t : TxnWord) (s : State) : State :=
  if fieldW t then (s.raise (.badTxn t)).returns .void
  else (s.drawn.raise (.badTxn t)).returns (.value (Config.freeWord s.draws))

/-! ### The handshake and coprocessor memory -/

/-- The coprocessor reset: `cpState` and `cpReady` only; memory survives (R45). -/
def coprocReset (s : State) : State := { s with cpState := s.cfg.cpResetState, cpReady := false }

/-- Write `ARBCTL` (R111): `REQ` is stored; `RST` resets the coprocessor and, with `REQ`, grants in the same step
(R112). -/
def writeArbctl (d : Word) (s : State) : State :=
  let s := { s with req := dataReq d }
  if dataRst d then
    let s := coprocReset s
    if dataReq d then { s with taken := true } else s
  else s

/-- `ARBCTL` as read: bit 0 `REQ`; `RST` reads 0 (R122). -/
def arbctlWord (s : State) : Word := bitWord s.req

/-- `ARBSTAT` as read: `2 * cpReady + taken` (R123). -/
def arbstatWord (s : State) : Word := bitWord s.cpReady <<< 1 ||| bitWord s.taken

/-- `MemRead(CP, a, 1)` with the value `MRD` makes of it: the byte zero-extended, or on a fault any 16-bit value. The
range is tested first, then ownership (R66, R120, R206; log 9). -/
def memRead (a : Nat) (s : State) : Word × State :=
  if s.cfg.cpmemSize ≤ a then (Config.freeWord s.draws, s.drawn.raise (.cpmemRange a))
  else if !primaryOwns s then (Config.freeWord s.draws, s.drawn.raise (.busNotOwned a))
  else (zext16 (cpByte s a), s)

/-- `MemWrite(CP, a, 1, v)` (R66). -/
def memWrite (a : Nat) (v : Byte) (s : State) : State :=
  if s.cfg.cpmemSize ≤ a then s.raise (.cpmemRange a)
  else if !primaryOwns s then s.raise (.busNotOwned a)
  else { s with cpmem := Memory.put s.cpmem a v }

/-! ### The ports -/

/-- Write `CTRL[p]` (R140). -/
def writeCtrl (p : Port) (d : Word) (s : State) : State := s.setIo p { s.io p with ctrl := dataByte d }

/-- Write `SCTRL[p]`: bits 7:3 only (R145). -/
def writeSctrl (p : Port) (d : Word) (s : State) : State :=
  s.setIo p { s.io p with baud := dataBaud d, subfn := dataSubfn d, rint := dataRint d }

/-- `SCTRL[p]` as read: `64*baud + 16*subfn + 8*rint + 2*RRDY + TFULL` (R144). -/
def sctrlWord (p : Port) (s : State) : Word :=
  zext16 (s.io p).baud <<< 6 ||| zext16 (s.io p).subfn <<< 4 ||| bitWord (s.io p).rint <<< 3
    ||| bitWord (rrdy p s) <<< 1 ||| bitWord (tfull p s)

/-- Write `TXDATA[p]`: push onto the transmit FIFO, or `TX_OVERRUN` and an unspecified content (R142). -/
def pushTx (p : Port) (b : Byte) (s : State) : State :=
  if (s.io p).txFifo.length < s.cfg.txDepth then s.setIo p { s.io p with txFifo := (s.io p).txFifo ++ [b] }
  else (s.drawn.raise (.txOverrun p)).setIo p { s.io p with txFifo := overrunContent s.cfg.txDepth s }

/-- Read `RXDATA[p]`: pop the receive FIFO, or `RX_UNDERFLOW` and any byte (R143). -/
def popRx (p : Port) (s : State) : Byte × State :=
  match (s.io p).rxFifo with
  | b :: rest => (b, s.setIo p { s.io p with rxFifo := rest })
  | [] => (Config.freeByte s.draws, s.drawn.raise (.rxUnderflow p))

/-- The first use of the serial transport after `SerialInit` returned makes it `Active` (R156; log 15). -/
def firstUse (s : State) : State :=
  match s.serState with
  | .uninitialized => s
  | .configured | .active => { s with serState := .active }

/-- A serial operation: with no port selected it issues nothing and returns `SerialNotInit` (R157), in a step of its own
(log 29, DESIGN CHOICE); else it is a use of the transport (R156) on the port selected as it is invoked, which it keeps
to its end (log 30, DESIGN CHOICE). -/
def serialOp (f : Port → State → State) (s : State) : State :=
  match s.port with
  | none => s.returns .serialNotInit
  | some p => f p (firstUse s)

/-! ### The ring buffer -/

/-- The ring `Write(byte)`: flagged when full; performed unless full and strict (R172). -/
def ringWrite (b : Byte) (s : State) : State :=
  let s' := if ringFull s then s.raise .rbOverflow else s
  if ringFull s && s.cfg.rbStrict then s'
  else { s' with
    buf := Memory.put s.buf s.writeHead.toNat b
    writeHead := nextCursor s.cfg.bufLen s.writeHead }

/-- The ring `Read()`: flagged when empty, performed all the same (R173). -/
def ringRead (s : State) : Byte × State :=
  let s' := if ringEmpty s then s.raise .rbUnderflow else s
  (ringByte s s.readHead.toNat, { s' with readHead := nextCursor s.cfg.bufLen s.readHead })

/-- `WR.RBCTL` with `CLR`: both cursors to 0, the array and `flt` untouched (R176). -/
def ringReset (d : Word) (s : State) : State :=
  if dataClr d then { s with readHead := 0, writeHead := 0 } else s

/-- One transaction of the drain routine on port `p`, and the position after it; `none` is its exit (R180). -/
def drainStep (p : Port) (pos : DrainPos) (s : State) : Option DrainPos × State :=
  match pos with
  | .atCheck => (if (sctrlWord p s).getLsbD 1 then some .atRead else none, s)
  | .atRead => (some (.atWrite (popRx p s).1), (popRx p s).2)
  | .atWrite b => (some .atCheck, ringWrite b s)

/-! ### The interrupt gate, entry and exit -/

/-- Write `MODE` (R209). -/
def writeMode (d : Word) (s : State) : State := { s with modeReg := dataByte d }

/-- Write `IMASK` (R211). -/
def writeImask (d : Word) (s : State) : State := { s with imask := dataImask d }

/-- `INT_ENTER` is enabled: the condition holds and the interrupt context is not active (R201, R204). -/
def intEnterEnabled (s : State) : Bool := irq s && !s.inIrq

/-- `INT_ENTER`: the interrupt context becomes active at the start of `RxDrain`; nothing is saved and the masks keep
their values (R201). The invocation of `RxDrain` on a selected port is a use of the transport (R156, R157; log 15).
What a handler issues after `RxDrain` stands at its first command (log 24). -/
def intEnter (s : State) : State :=
  let s := { s with inIrq := true, intPos := some .atCheck, intIdx := 0, intOp := .idle }
  match s.port with
  | none => s
  | some _ => firstUse s

/-- `INT_EXIT`: back to the main context; nothing is restored because nothing was saved (R203). -/
def intExit (s : State) : State := { s with inIrq := false, intPos := none }

/-- What the handler issues after `RxDrain` is exhausted, and `INT` is in no operation; so at once for the handler of
R201, which issues nothing after it (log 24). -/
def handlerDone (s : State) : Bool := decide (s.intOp = .idle) && s.handler[s.intIdx]?.isNone

/-- The two issuing contexts changed over: what stands for `MAIN` (its list, index, place in an operation and last
result) stands for `INT`, and the other way round. No register is banked per context (R213), and nothing else is
touched (log 24). -/
def State.swapIssuer (s : State) : State :=
  { s with
    prog := s.handler, idx := s.intIdx, mainPos := s.intOp, result := s.intResult
    handler := s.prog, intIdx := s.idx, intOp := s.mainPos, intResult := s.result }

end Sys2Proof.Machine
end

