-- ==== Sys2Proof/Machine/Arbiter.lean ====
section
/-! DEFINITION. Bus arbitration (40_arbiter.md): the meanings of `WR.ARBCTL`, `RD.ARBCTL`, `RD.ARBSTAT`, `MRD`, `MWR`
and of `RequestBus`, `ReleaseBus`, `IsBusTaken`, `UploadProgram`, and the transactions those operations issue after
their first. -/

namespace Sys2Proof.Machine

/-- `WR.ARBCTL #d` (R111, R112). -/
def execWrArbctl (d : Word) (s : State) : Host.Outcome State Fault Refusal :=
  .next ((writeArbctl d s).returns .void)

/-- `RD.ARBCTL` (R122). -/
def execRdArbctl (s : State) : Host.Outcome State Fault Refusal :=
  .next (s.returns (.value (arbctlWord s)))

/-- `RD.ARBSTAT` (R123). -/
def execRdArbstat (s : State) : Host.Outcome State Fault Refusal :=
  .next (s.returns (.value (arbstatWord s)))

/-- `MRD a` (R120): the byte `MemRead` gives, zero-extended; on a fault any value. -/
def execMrd (a : Word) (s : State) : Host.Outcome State Fault Refusal :=
  .next ((memRead a.toNat s).2.returns (.value (memRead a.toNat s).1))

/-- `MWR a, #b` (R121). -/
def execMwr (a : Word) (b : Byte) (s : State) : Host.Outcome State Fault Refusal :=
  .next ((memWrite a.toNat b s).returns .void)

/-- `RequestBus(reset)` (R116): its first transaction; the `TAKEN` poll follows. -/
def execRequestBus (reset : Bool) (s : State) : Host.Outcome State Fault Refusal :=
  .next { writeArbctl (requestData reset) s with mainPos := .pollTaken 0 none }

/-- `ReleaseBus()` (R117): `WR.ARBCTL #0`; it does not wait. -/
def execReleaseBus (s : State) : Host.Outcome State Fault Refusal :=
  .next ((writeArbctl 0 s).returns .void)

/-- `IsBusTaken()` (R118): bit 0 of `ARBSTAT`. -/
def execIsBusTaken (s : State) : Host.Outcome State Fault Refusal :=
  .next (s.returns (.bool ((arbstatWord s).getLsbD 0)))

/-- The bytes `image[0]` to `image[length - 1]` that `UploadProgram` copies (R119). The spec gives an index past the end
of the image no value: that one byte is free (log 17, DESIGN CHOICE). -/
def uploadBytes (image : List Byte) (length : Nat) (s : State) : List Byte :=
  (List.range length).map fun i => image.getD i (Config.freeImageByte s.draws i)

/-- `UploadProgram(image, length, resetFirst)` (R119): the first transaction of its `RequestBus`, with the bytes to
copy; of an image shorter than `length` the missing ones are drawn (log 17). -/
def execUploadProgram (image : List Byte) (length : Nat) (resetFirst : Bool) (s : State) :
    Host.Outcome State Fault Refusal :=
  .next { writeArbctl (requestData resetFirst) (if image.length < length then s.drawn else s) with
    mainPos := .pollTaken 0 (some (uploadBytes image length s)) }

/-- The poll counter has reached `POLL_BOUND`; never, where it is infinite (R101). -/
def boundReached (c : Params) (n : Nat) : Bool :=
  match c.pollBound with
  | none => false
  | some b => decide (b ≤ n)

/-- One `TAKEN` poll of `RequestBus` (R116), after `n` unsuccessful ones; on success it returns `Ok`, or goes on to the
copy of `UploadProgram` (R119). -/
def pollTakenStep (n : Nat) (upload : Option (List Byte)) (s : State) : State :=
  if (arbstatWord s).getLsbD 0 then
    match upload with
    | none => s.finish .ok
    | some bytes => { s with mainPos := .copy s.cfg.uploadBase bytes }
  else if boundReached s.cfg (n + 1) then { s with mainPos := .withdraw }
  else { s with mainPos := .pollTaken (n + 1) upload }

/-- The poll bound is exhausted: `WR.ARBCTL #0`, and the result `BusTimeout` (R116, R119). -/
def withdrawStep (s : State) : State := (writeArbctl 0 s).finish .busTimeout

/-- One transaction of the copy of `UploadProgram`, ascending, each `MWR` independent of the others' faults; after the
last, `ReleaseBus` (R119; log 16). -/
def copyStep (a : Nat) (rest : List Byte) (s : State) : State :=
  match rest with
  | b :: bs => { memWrite a b s with mainPos := .copy (a + 1) bs }
  | [] => { writeArbctl 0 s with mainPos := .pollReady 0 }

/-- One `READY` poll of `UploadProgram` (R119), after `n` unsuccessful ones. -/
def pollReadyStep (n : Nat) (s : State) : State :=
  if (arbstatWord s).getLsbD 1 then s.finish .ok
  else if boundReached s.cfg (n + 1) then s.finish .busTimeout
  else { s with mainPos := .pollReady (n + 1) }

end Sys2Proof.Machine
end

