-- ==== Sys2Proof/Machine/Platform.lean ====
section
/-! DEFINITION. The fault flags and the interrupt gate (60_exceptions.md): the meanings of `RD.FLT`, `WR.MODE`,
`RD.MODE`, `WR.IMASK`, `RD.IMASK`. -/

namespace Sys2Proof.Machine

/-- `RD.FLT` (R208): reading does not clear. -/
def execRdFlt (s : State) : Host.Outcome State Fault Refusal :=
  .next (s.returns (.value (zext16 s.flt)))

/-- `WR.MODE #d` (R209). -/
def execWrMode (d : Word) (s : State) : Host.Outcome State Fault Refusal :=
  .next ((writeMode d s).returns .void)

/-- `RD.MODE` (R210). -/
def execRdMode (s : State) : Host.Outcome State Fault Refusal :=
  .next (s.returns (.value (zext16 s.modeReg)))

/-- `WR.IMASK #d` (R211). -/
def execWrImask (d : Word) (s : State) : Host.Outcome State Fault Refusal :=
  .next ((writeImask d s).returns .void)

/-- `RD.IMASK` (R212). -/
def execRdImask (s : State) : Host.Outcome State Fault Refusal :=
  .next (s.returns (.value (zext16 s.imask)))

end Sys2Proof.Machine
end

