-- ==== Sys2Proof/Machine/Ring.lean ====
section
/-! DEFINITION. The ring buffer and the drain routine (42_ringbuffer.md): the meanings of `WR.RBDATA`, `RD.RBDATA`,
`RD.RBSTAT`, `RD.RBAVAIL`, `RD.RBRD`, `RD.RBWR`, `WR.RBCTL` and of `RbWrite`, `RbRead`, `RbCanRead`, `RbAvailable`,
`RxDrain`. -/

namespace Sys2Proof.Machine

/-- `WR.RBDATA #d` (R172). -/
def execWrRbdata (d : Word) (s : State) : Host.Outcome State Fault Refusal :=
  .next ((ringWrite (dataByte d) s).returns .void)

/-- `RD.RBDATA` (R173). -/
def execRdRbdata (s : State) : Host.Outcome State Fault Refusal :=
  .next ((ringRead s).2.returns (.value (zext16 (ringRead s).1)))

/-- `RD.RBSTAT` (R174). -/
def execRdRbstat (s : State) : Host.Outcome State Fault Refusal :=
  .next (s.returns (.value (bitWord (canRead s))))

/-- `RD.RBAVAIL` (R175). -/
def execRdRbavail (s : State) : Host.Outcome State Fault Refusal :=
  .next (s.returns (.value (ringAvail s)))

/-- `RD.RBRD` (R182). -/
def execRdRbrd (s : State) : Host.Outcome State Fault Refusal :=
  .next (s.returns (.value s.readHead))

/-- `RD.RBWR` (R183). -/
def execRdRbwr (s : State) : Host.Outcome State Fault Refusal :=
  .next (s.returns (.value s.writeHead))

/-- `WR.RBCTL #d` (R176). -/
def execWrRbctl (d : Word) (s : State) : Host.Outcome State Fault Refusal :=
  .next ((ringReset d s).returns .void)

/-- `RbWrite(b)` (R177): `WR.RBDATA #b`. -/
def execRbWrite (b : Byte) (s : State) : Host.Outcome State Fault Refusal :=
  .next ((ringWrite b s).returns .void)

/-- `RbRead()` (R178): bits 7:0 of `RD.RBDATA`. -/
def execRbRead (s : State) : Host.Outcome State Fault Refusal :=
  .next ((ringRead s).2.returns (.byte (ringRead s).1))

/-- `RbCanRead()` (R179): bit 0 of `RD.RBSTAT`. -/
def execRbCanRead (s : State) : Host.Outcome State Fault Refusal :=
  .next (s.returns (.bool ((bitWord (canRead s)).getLsbD 0)))

/-- `RbAvailable()` (R181): the value of `RD.RBAVAIL`. -/
def execRbAvailable (s : State) : Host.Outcome State Fault Refusal :=
  .next (s.returns (.value (ringAvail s)))

/-- One transaction of a `RxDrain` that a command list invoked (R180); at its exit the operation returns. `p` is the port
at its invocation (log 30, DESIGN CHOICE). -/
def mainDrainStep (p : Port) (pos : DrainPos) (s : State) : State :=
  match (drainStep p pos s).1 with
  | some pos' => { (drainStep p pos s).2 with mainPos := .drain p pos' }
  | none => (drainStep p pos s).2.finish .void

/-- `RxDrain()` issued as an instruction (R180): its first transaction. The block cannot tell the contexts apart and
performs it (R170; log 19). -/
def execRxDrain (s : State) : Host.Outcome State Fault Refusal :=
  .next (serialOp (fun p s => mainDrainStep p .atCheck s) s)

end Sys2Proof.Machine
end

