-- ==== Sys2Proof/Machine/Serial.lean ====
section
/-! DEFINITION. Serial transport (41_serial.md): the meanings of the transactions on the eight port registers and of
`SerialInit`, `IsPresent`, `WriteReady`, `SerWrite`, `ReadReady`, `SerRead`, `ResetFifos`, `BaudRate`, and the
transactions those operations issue after their first. -/

namespace Sys2Proof.Machine

/-- `WR.CTRL p, #d` (R140). -/
def execWrCtrl (p : Port) (d : Word) (s : State) : Host.Outcome State Fault Refusal :=
  .next ((writeCtrl p d s).returns .void)

/-- `RD.CTRL p` (R141). -/
def execRdCtrl (p : Port) (s : State) : Host.Outcome State Fault Refusal :=
  .next (s.returns (.value (zext16 (s.io p).ctrl)))

/-- `WR.SCTRL p, #d` (R145). -/
def execWrSctrl (p : Port) (d : Word) (s : State) : Host.Outcome State Fault Refusal :=
  .next ((writeSctrl p d s).returns .void)

/-- `RD.SCTRL p` (R144). -/
def execRdSctrl (p : Port) (s : State) : Host.Outcome State Fault Refusal :=
  .next (s.returns (.value (sctrlWord p s)))

/-- `WR.TXDATA p, #d` (R142). -/
def execWrTxdata (p : Port) (d : Word) (s : State) : Host.Outcome State Fault Refusal :=
  .next ((pushTx p (dataByte d) s).returns .void)

/-- `RD.RXDATA p` (R143). -/
def execRdRxdata (p : Port) (s : State) : Host.Outcome State Fault Refusal :=
  .next ((popRx p s).2.returns (.value (zext16 (popRx p s).1)))

/-- `SerialInit(port, rxInt)` (R148): steps 1 and 2, the port's selection and `WR.CTRL p, #CTRL_INIT`; steps 3 to 6
follow. -/
def execSerialInit (port : Port) (rxInt : Bool) (s : State) : Host.Outcome State Fault Refusal :=
  .next { writeCtrl port (zext16 s.cfg.ctrlInit) { s with port := some port } with
    mainPos := .initSctrl port rxInt }

/-- `IsPresent()` (R149): true, with no transaction; in a command list it is a step all the same (log 29, DESIGN
CHOICE). -/
def execIsPresent (s : State) : Host.Outcome State Fault Refusal :=
  .next (s.returns (.bool true))

/-- `WriteReady()` (R150): the full flag is clear. -/
def execWriteReady (s : State) : Host.Outcome State Fault Refusal :=
  .next (serialOp (fun p s => s.returns (.bool (!(sctrlWord p s).getLsbD 0))) s)

/-- `SerWrite(b)` (R151): `WR.TXDATA p, #b`, with no check and no wait. -/
def execSerWrite (b : Byte) (s : State) : Host.Outcome State Fault Refusal :=
  .next (serialOp (fun p s => (pushTx p b s).returns .void) s)

/-- `ReadReady()` (R152). -/
def execReadReady (s : State) : Host.Outcome State Fault Refusal :=
  .next (serialOp (fun p s => s.returns (.bool ((sctrlWord p s).getLsbD 1))) s)

/-- `SerRead()` (R153): the byte `RD.RXDATA p` gives. -/
def execSerRead (s : State) : Host.Outcome State Fault Refusal :=
  .next (serialOp (fun p s => (popRx p s).2.returns (.byte (popRx p s).1)) s)

/-- `BaudRate()` (R155): `BAUD_DECODE` of bits 7:6 of `SCTRL`. -/
def execBaudRate (s : State) : Host.Outcome State Fault Refusal :=
  .next (serialOp (fun p s => s.returns (.rate (baudOf s.cfg.baudDecode (dataBaud (sctrlWord p s))))) s)

/-- `RD.SCTRL p` of the drain loop of `ResetFifos`: with `RRDY` clear the loop ends and the ring is cleared next
(R154). `p` is the port at the operation's invocation (log 30, DESIGN CHOICE). -/
def fifoCheckStep (p : Port) (init : Option Bool) (s : State) : State :=
  { s with mainPos := if (sctrlWord p s).getLsbD 1 then .fifoPop p init else .ringClear init }

/-- `RD.RXDATA p` of the drain loop of `ResetFifos`; the byte is discarded (R154). -/
def fifoPopStep (p : Port) (init : Option Bool) (s : State) : State :=
  { (popRx p s).2 with mainPos := .fifoCheck p init }

/-- `ResetFifos()` (R154): the first `RD.SCTRL` of its drain loop. -/
def execResetFifos (s : State) : Host.Outcome State Fault Refusal :=
  .next (serialOp (fun p s => fifoCheckStep p none s) s)

/-- The last step of `SerialInit`: the transport is `Configured` (R148 step 6). -/
def initDone (s : State) : State := ({ s with serState := .configured }).finish .void

/-- `WR.RBCTL #1`, the last transaction of `ResetFifos`; inside `SerialInit` the enables follow if `rxInt` (R148,
R154). -/
def ringClearStep (init : Option Bool) (s : State) : State :=
  match init with
  | none => (ringReset 1 s).finish .void
  | some false => initDone (ringReset 1 s)
  | some true => { ringReset 1 s with mainPos := .initImask }

/-- Step 3 of `SerialInit`: `WR.SCTRL p` (R148); its `ResetFifos` follows. -/
def initSctrlStep (p : Port) (rxInt : Bool) (s : State) : State :=
  { writeSctrl p (initSctrlData s.cfg rxInt) s with mainPos := .fifoCheck p (some rxInt) }

/-- Step 5 of `SerialInit`, first transaction: `WR.IMASK #IMASK_INIT` (R148). -/
def initImaskStep (s : State) : State :=
  { writeImask (zext16 s.cfg.imaskInit) s with mainPos := .initModeRead }

/-- Step 5 of `SerialInit`, second transaction: `m <- RD.MODE` (R148). -/
def initModeReadStep (s : State) : State := { s with mainPos := .initModeWrite (zext16 s.modeReg) }

/-- Step 5 of `SerialInit`, third transaction, `WR.MODE #(m or 0x08)`, and step 6 (R148). -/
def initModeWriteStep (m : Word) (s : State) : State := initDone (writeMode (m ||| 0x08) s)

end Sys2Proof.Machine
end

