-- ==== Sys2Proof/Machine/Dispatch.lean ====
section
/-! DEFINITION. The dispatch: one arm for each constructor of `Instr`, each one direct call of its meaning. -/

namespace Sys2Proof.Machine

def exec (i : Instr) (s : State) : Host.Outcome State Fault Refusal :=
  match i with
  | .wrArbctl d => Sys2Proof.Machine.execWrArbctl d s
  | .rdArbctl => Sys2Proof.Machine.execRdArbctl s
  | .rdArbstat => Sys2Proof.Machine.execRdArbstat s
  | .rdFlt => Sys2Proof.Machine.execRdFlt s
  | .wrCtrl p d => Sys2Proof.Machine.execWrCtrl p d s
  | .rdCtrl p => Sys2Proof.Machine.execRdCtrl p s
  | .wrSctrl p d => Sys2Proof.Machine.execWrSctrl p d s
  | .rdSctrl p => Sys2Proof.Machine.execRdSctrl p s
  | .wrTxdata p d => Sys2Proof.Machine.execWrTxdata p d s
  | .rdRxdata p => Sys2Proof.Machine.execRdRxdata p s
  | .wrMode d => Sys2Proof.Machine.execWrMode d s
  | .rdMode => Sys2Proof.Machine.execRdMode s
  | .wrImask d => Sys2Proof.Machine.execWrImask d s
  | .rdImask => Sys2Proof.Machine.execRdImask s
  | .wrRbdata d => Sys2Proof.Machine.execWrRbdata d s
  | .rdRbdata => Sys2Proof.Machine.execRdRbdata s
  | .rdRbstat => Sys2Proof.Machine.execRdRbstat s
  | .rdRbavail => Sys2Proof.Machine.execRdRbavail s
  | .rdRbrd => Sys2Proof.Machine.execRdRbrd s
  | .rdRbwr => Sys2Proof.Machine.execRdRbwr s
  | .wrRbctl d => Sys2Proof.Machine.execWrRbctl d s
  | .mrd a => Sys2Proof.Machine.execMrd a s
  | .mwr a b => Sys2Proof.Machine.execMwr a b s
  | .requestBus reset => Sys2Proof.Machine.execRequestBus reset s
  | .releaseBus => Sys2Proof.Machine.execReleaseBus s
  | .isBusTaken => Sys2Proof.Machine.execIsBusTaken s
  | .uploadProgram image length resetFirst => Sys2Proof.Machine.execUploadProgram image length resetFirst s
  | .serialInit port rxInt => Sys2Proof.Machine.execSerialInit port rxInt s
  | .isPresent => Sys2Proof.Machine.execIsPresent s
  | .writeReady => Sys2Proof.Machine.execWriteReady s
  | .serWrite b => Sys2Proof.Machine.execSerWrite b s
  | .readReady => Sys2Proof.Machine.execReadReady s
  | .serRead => Sys2Proof.Machine.execSerRead s
  | .resetFifos => Sys2Proof.Machine.execResetFifos s
  | .baudRate => Sys2Proof.Machine.execBaudRate s
  | .rbWrite b => Sys2Proof.Machine.execRbWrite b s
  | .rbRead => Sys2Proof.Machine.execRbRead s
  | .rbCanRead => Sys2Proof.Machine.execRbCanRead s
  | .rbAvailable => Sys2Proof.Machine.execRbAvailable s
  | .rxDrain => Sys2Proof.Machine.execRxDrain s

end Sys2Proof.Machine
end

