-- ==== Sys2Proof/Machine/Agents.lean ====
section
/-! DEFINITION. The agents' steps (R11): the autonomous steps of the arbiter, the coprocessor and the serial line, the
next transaction of the main and of the interrupt context, and which agent moves next. `step` only calls these. A chosen move whose step is not
enabled changes nothing (log 2). -/

namespace Sys2Proof.Machine

/-! ### The arbiter and the coprocessor -/

/-- `GRANT` is enabled (R113). -/
def grantEnabled (s : State) : Bool := s.req && !s.taken

/-- `GRANT` (R113). -/
def grant (s : State) : State := if grantEnabled s then { s with taken := true } else s

/-- `RESUME` is enabled (R114). -/
def resumeEnabled (s : State) : Bool := !s.req && s.taken

/-- `RESUME` (R114). -/
def resume (s : State) : State := if resumeEnabled s then { s with taken := false } else s

/-- `CP_STEP` is enabled (R115). -/
def cpStepEnabled (s : State) : Bool := !s.taken

/-- The coprocessor's stores of one step, in order. Coprocessor memory has `CPMEM_SIZE` bytes (R60), so a store at or
above it is none (log 18). -/
def cpStores (size : Nat) (m : Memory) : List Host.Cell → Memory
  | [] => m
  | c :: cs => cpStores size (if c.1 < size then Memory.put m c.1 c.2 else m) cs

/-- `CP_STEP` (R115): the triple `(cpState, cpmem, cpReady)` the firmware chooses, and no other state. -/
def cpStep (state : CpState) (stores : List Host.Cell) (ready : Bool) (s : State) : State :=
  if cpStepEnabled s then
    { s with cpState := state, cpmem := cpStores s.cfg.cpmemSize s.cpmem stores, cpReady := ready }
  else s

/-! ### The serial line -/

/-- `RX_ARRIVE(p, b)` (R146): pushed onto the receive FIFO, or `RXFIFO_OVERRUN` and an unspecified content. -/
def rxArrive (p : Port) (b : Byte) (s : State) : State :=
  if (s.io p).rxFifo.length < s.cfg.rxDepth then s.setIo p { s.io p with rxFifo := (s.io p).rxFifo ++ [b] }
  else (s.drawn.raise (.rxfifoOverrun p)).setIo p { s.io p with rxFifo := overrunContent s.cfg.rxDepth s }

/-- `TX_SHIFT(p)` (R147): the oldest queued byte goes onto the line. -/
def txShift (p : Port) (s : State) : State :=
  match (s.io p).txFifo with
  | b :: rest => s.setIo p { s.io p with txFifo := rest, txLine := (s.io p).txLine ++ [b] }
  | [] => s

/-! ### The primary controller's two contexts -/

/-- The next transaction of the level-1 operation the issuer is inside (R102). -/
def continueOp (pos : MainPos) (s : State) : State :=
  match pos with
  | .idle => s
  | .pollTaken n upload => pollTakenStep n upload s
  | .withdraw => withdrawStep s
  | .copy a rest => copyStep a rest s
  | .pollReady n => pollReadyStep n s
  | .initSctrl p rxInt => initSctrlStep p rxInt s
  | .fifoCheck p init => fifoCheckStep p init s
  | .fifoPop p init => fifoPopStep p init s
  | .ringClear init => ringClearStep init s
  | .initImask => initImaskStep s
  | .initModeRead => initModeReadStep s
  | .initModeWrite m => initModeWriteStep m s
  | .drain p pos => mainDrainStep p pos s

/-- The issuer's next command, if its list is not exhausted: `MAIN`'s fetch (R22, R234). -/
def fetch (s : State) : Option Cmd := s.prog[s.idx]?

/-- Issue a transaction word: the instruction it decodes to, or `BAD_TXN` (R97). -/
def issueTxn (t : TxnWord) (s : State) : Host.Outcome State Fault Refusal :=
  match decode t with
  | .ok i => exec i s
  | .error _ => .next (badTxn t s)

/-- Past the command just fetched. -/
def State.advance (s : State) : State := { s with idx := s.idx + 1 }

/-- Issue a command, the index already past it. An operation that issues no transaction is a step of its own
(log 29, DESIGN CHOICE). The control constructs of R101 are the issuer's: they touch nothing of the block (log 22). -/
def issueCmd (c : Cmd) (s : State) : Host.Outcome State Fault Refusal :=
  match c with
  | .txn t => issueTxn t s
  | .op i => exec i s
  | .jump k => .next { s with idx := k }
  | .jumpIf c k => .next (if c.holds s.result then { s with idx := k } else s)

/-- The issuer's next transaction: of the operation it is inside; else its next command; with the list exhausted,
none (R101, R102, R233; log 20). -/
def issueNext (s : State) : Host.Outcome State Fault Refusal :=
  match s.mainPos with
  | .idle =>
    match fetch s with
    | some c => issueCmd c s.advance
    | none => .next s
  | pos => .next (continueOp pos s)

/-- A step of `MAIN`: none while the interrupt context is active (R12); else its next transaction. -/
def mainStep (s : State) : Host.Outcome State Fault Refusal :=
  if s.inIrq then .next s else issueNext s

/-- `f` applied to the next state, where there is one. -/
def onNext (f : State → State) (o : Host.Outcome State Fault Refusal) : Host.Outcome State Fault Refusal :=
  match o with
  | .next t => .next (f t)
  | .fault e => .fault e
  | .refused e => .refused e

/-- The next transaction of what a handler issues after `RxDrain`, `INT` being the issuer: the block performs it as it
would for `MAIN` (R170, R243; log 24). -/
def handlerStep (s : State) : Host.Outcome State Fault Refusal := onNext State.swapIssuer (issueNext s.swapIssuer)

/-- A step of `INT`: entry where it is enabled (R201); a transaction of `RxDrain` (R180); at its exit, or with no port
selected, where it issues nothing (R202), what the handler issues after it; and with that exhausted, which for the
handler of R201 is at once, `INT_EXIT` (R203). The routine reads `s.port` at each of its transactions (log 30, DESIGN
CHOICE). Where none is enabled nothing happens (logs 2, 24). -/
def intStep (s : State) : Host.Outcome State Fault Refusal :=
  if s.inIrq then
    match s.intPos, s.port with
    | some pos, some p => .next { (drainStep p pos s).2 with intPos := (drainStep p pos s).1 }
    | _, _ => if handlerDone s then .next (intExit s) else handlerStep { s with intPos := none }
  else .next (if irq s then intEnter s else s)

/-! ### Which agent moves -/

/-- The agent that moves next: the script's, and once that is used up a free one (R11, R206; log 2). -/
def nextMove (s : State) : Move :=
  match s.script with
  | m :: _ => m
  | [] => Config.freeMove s.draws

/-- The choice is used up. -/
def State.moved (s : State) : State :=
  match s.script with
  | _ :: rest => { s with script := rest }
  | [] => s.drawn

/-- One step of the chosen agent (R11). -/
def runMove (m : Move) (s : State) : Host.Outcome State Fault Refusal :=
  match m with
  | .main => mainStep s
  | .int => intStep s
  | .grant => .next (grant s)
  | .resume => .next (resume s)
  | .cpStep state stores ready => .next (cpStep state stores ready s)
  | .rxArrive p b => .next (rxArrive p b s)
  | .txShift p => .next (txShift p s)

end Sys2Proof.Machine
end

