-- ==== Sys2Proof/Machine/Step.lean ====
section
/-! DEFINITION. One step of the machine, and the placing of one transaction where the next step fetches it. -/

namespace Sys2Proof.Machine

/-- One step: the agent that moves next takes its step (R11, R70). -/
def step (s : State) : Host.Outcome State Fault Refusal := runMove (nextMove s) s.moved

/-- The state with the transaction word `w` as `MAIN`'s command list and `MAIN` the agent that moves next, in no
operation and with no interrupt context active, so that the next step fetches and runs it (R22, R234; log 3). A
transaction is one 32-bit word (R98). -/
def State.withFetchWord (s : State) (_nbits w : Nat) : State :=
  { s with
    prog := [.txn (BitVec.ofNat 32 w)], idx := 0
    script := [.main], mainPos := .idle, inIrq := false, intPos := none }

end Sys2Proof.Machine
end

