-- ==== Sys2Proof/Safety.lean ====
section
/-! DEFINITION. The terms claims are stated in: the handshake's states, faulted and final states, the legal states, the
rights of the contexts, runs and the fairness assumptions. -/

namespace Sys2Proof.Machine

/-! ### The handshake -/

/-- The four states of the handshake (R110). -/
inductive Handshake where
  | released
  | reqPending
  | owned
  | relPending
  deriving DecidableEq, Repr

/-- The handshake state of (`req`, `taken`) (R110). -/
def handshake (s : State) : Handshake :=
  match s.req, s.taken with
  | false, false => .released
  | true, false => .reqPending
  | true, true => .owned
  | false, true => .relPending

/-! ### Encodings -/

/-- The word of an instruction has the bits that a row's match value and mask fix, and decodes to it (R94). -/
def EncodesAs (i : Instr) (value mask : TxnWord) : Prop :=
  ∃ w, encode i = some w ∧ w &&& mask = value ∧ decode w = .ok i

/-- The same, for a port instruction, with the port in bit 18 (R96). -/
def EncodesAsPort (i : Instr) (p : Port) (value mask : TxnWord) : Prop :=
  ∃ w, encode i = some w ∧ w &&& mask = value ∧ w.getLsbD 18 = decide (p = .ctrl2) ∧ decode w = .ok i

/-! ### Whose turn it is -/

/-- The main context is the agent that moves next and may move (R12). -/
def MainTurn (s : State) : Prop := nextMove s = .main ∧ s.inIrq = false

/-- The state once the choice of the next agent is used up: the script's head, or one draw. -/
def afterChoice (s : State) : State :=
  { s with script := s.script.tail, draws := if s.script.isEmpty then s.draws + 1 else s.draws }

/-! ### Faulted and final states -/

/-- A state with any `FLT` bit set (R190). -/
def faulted (s : State) : Bool := decide (s.flt ≠ 0)

/-- The end of a run: `MAIN`'s list is exhausted and it is in no operation, no interrupt context is active and none is
pending (R233). -/
def runEnded (s : State) : Bool :=
  decide (s.mainPos = .idle) && (fetch s).isNone && !s.inIrq && !irq s

/-- A final state: a run that ended with no fault; a faulted state is never one (R190, R233). -/
def finalState (s : State) : Bool := runEnded s && !faulted s

/-! ### Legal states -/

/-- The parameters, the cursors, the FIFOs and the two byte stores lie within the bounds of their types in R6, R7 and
R20, and the position of `INT` exists only inside the interrupt context (R180). -/
structure Legal (s : State) : Prop where
  params : s.cfg.wf = true
  readHead : s.readHead.toNat < s.cfg.bufLen
  writeHead : s.writeHead.toNat < s.cfg.bufLen
  rxFifo : ∀ p, (s.io p).rxFifo.length ≤ s.cfg.rxDepth
  txFifo : ∀ p, (s.io p).txFifo.length ≤ s.cfg.txDepth
  cpmemForm : Memory.wf s.cpmem = true
  cpmemRange : Memory.below s.cpmem s.cfg.cpmemSize = true
  bufForm : Memory.wf s.buf = true
  bufRange : Memory.below s.buf s.cfg.bufLen = true
  intPos : s.inIrq = false → s.intPos = none

/-- Each sticky bit of `flt` is set exactly when its fault has been raised (R191). -/
def FltRecords (s : State) : Prop :=
  ∀ k < 8, s.flt.getLsbD k = s.raised.any fun f => decide (f.bit = k)

/-- The issuer stands inside `SerialInit`, past its first step (R148). -/
def insideInit : MainPos → Bool
  | .initSctrl _ _ | .initImask | .initModeRead | .initModeWrite _ => true
  | .fifoCheck _ init | .fifoPop _ init | .ringClear init => init.isSome
  | .idle | .pollTaken _ _ | .withdraw | .copy _ _ | .pollReady _ | .drain _ _ => false

/-- A port is selected wherever the transport has left `Uninitialized` or is about to (R42, R148, R156). -/
def PortSelected (s : State) : Prop :=
  s.serState ≠ .uninitialized ∨ insideInit s.mainPos = true ∨ insideInit s.intOp = true → s.port ≠ none

/-- The bytes queued in the ring buffer, oldest first: `used(s)` slots from `readHead` on, modulo `N` (R40, R171). -/
def ringContents (s : State) : List Byte :=
  (List.range (ringUsed s)).map fun k => ringByte s ((s.readHead.toNat + k) % s.cfg.bufLen)

/-- What the ring `Write(byte)` does to the ring buffer and to `flt` (R172): stored at `writeHead`, which advances,
unless the buffer is full and strict; flagged where it is full. -/
def RingWritten (b : Byte) (s t : State) : Prop :=
  ((ringFull s && s.cfg.rbStrict) = false →
    t.writeHead = nextCursor s.cfg.bufLen s.writeHead ∧ ringByte t s.writeHead.toNat = b ∧
    ∀ k, k ≠ s.writeHead.toNat → ringByte t k = ringByte s k) ∧
  ((ringFull s && s.cfg.rbStrict) = true → t.writeHead = s.writeHead ∧ ∀ k, ringByte t k = ringByte s k) ∧
  t.flt = (if ringFull s then s.flt ||| 64 else s.flt) ∧
  t.raised = (if ringFull s then s.raised ++ [.rbOverflow] else s.raised)

/-- Every byte of coprocessor memory and of the ring array reads as before. -/
def SameBytes (s t : State) : Prop := (∀ a, cpByte t a = cpByte s a) ∧ ∀ k, ringByte t k = ringByte s k

/-! ### The rights of the contexts -/

/-- The two contexts of the primary controller (R213). -/
inductive Context where
  | main
  | int
  deriving DecidableEq, Repr

/-- The context that issues the next transaction (R12). -/
def activeContext (s : State) : Context := if s.inIrq then .int else .main

/-- The receive interrupt, the block's one source, is enabled: its condition but for the receive-ready bits (R200, R213;
log 19, DEDUCED). -/
def rxIntEnabled (s : State) : Bool :=
  (s.ext.rint || s.ctrl2.rint) && s.modeReg.getLsbD 3 && decide (s.cfg.rxIrqLevel > s.imask.toNat)

/-- The `MAIN` column of the rights table of R213, for an instruction issued by itself; an operation is judged by the
transactions it issues. `WR.RBCTL`, whatever its data, and `WR.CTRL`, `WR.SCTRL`, `WR.MODE` and `WR.IMASK` are `MAIN`'s
only inside `ResetFifos` and `SerialInit`, which issue them themselves: the table's words, taken literally, where R176
and R247 speak of `WR.RBCTL` and R251 of `WR.SCTRL` as such (log 19, DESIGN CHOICE). -/
def mainMay (i : Instr) (s : State) : Bool :=
  match i with
  | .wrArbctl _ | .requestBus _ | .releaseBus | .uploadProgram _ _ _ => true
  | .mrd _ | .mwr _ _ => primaryOwns s
  | .wrRbdata _ | .rbWrite _ | .rxDrain | .wrRbctl _ => false
  | .rdRbdata | .rbRead => true
  | .rdRbstat | .rbCanRead | .rdRbavail | .rbAvailable | .rdRbrd | .rdRbwr => true
  | .rdRxdata _ | .serRead | .resetFifos => !rxIntEnabled s
  | .serialInit p rxInt => !rxIntEnabled (writeSctrl p (initSctrlData s.cfg rxInt) s)
  | .wrTxdata _ _ | .serWrite _ | .rdSctrl _ | .writeReady | .readReady | .baudRate => true
  | .wrCtrl _ _ | .wrSctrl _ _ | .wrMode _ | .wrImask _ => false
  | .rdArbctl | .rdArbstat | .isBusTaken | .rdFlt | .rdCtrl _ | .rdMode | .rdImask | .isPresent => true

/-- The `INT` column of the rights table of R213. A read that no row names is no one's to refuse (log 19). -/
def intMay (i : Instr) : Bool :=
  match i with
  | .wrArbctl _ | .requestBus _ | .releaseBus | .uploadProgram _ _ _ => false
  | .mrd _ | .mwr _ _ => false
  | .wrRbdata _ | .rbWrite _ | .rxDrain => true
  | .rdRbdata | .rbRead | .wrRbctl _ | .resetFifos => false
  | .rdRbstat | .rbCanRead | .rdRbavail | .rbAvailable | .rdRbrd | .rdRbwr => true
  | .rdRxdata _ | .serRead => true
  | .wrTxdata _ _ | .serWrite _ | .rdSctrl _ | .writeReady | .readReady | .baudRate => true
  | .wrCtrl _ _ | .wrSctrl _ _ | .wrMode _ | .wrImask _ | .serialInit _ _ => false
  | .rdArbctl | .rdArbstat | .isBusTaken | .rdFlt | .rdCtrl _ | .rdMode | .rdImask | .isPresent => true

/-- The rights table of R213: what a context may issue. The block performs a violation (R170); a claim about
disciplined software takes this as its premise (log 19). -/
def mayIssue (c : Context) (i : Instr) (s : State) : Bool :=
  match c with
  | .main => mainMay i s
  | .int => intMay i

/-- A command issues nothing but what `may` admits. An illegal word and a control construct touch no resource of R213. -/
def Cmd.within (may : Instr → Bool) : Cmd → Bool
  | .txn t =>
    match decode t with
    | .ok i => may i
    | .error _ => true
  | .op i => may i
  | .jump _ | .jumpIf _ _ => true

/-- `MAIN`'s next transaction keeps to its rights (R213): the command it fetches, or the next transaction of the
operation it is inside. -/
def mainWithinRights (s : State) : Bool :=
  match s.mainPos with
  | .idle => (fetch s).all (Cmd.within fun i => mayIssue .main i s)
  | .copy _ (_ :: _) => primaryOwns s
  | .fifoPop _ _ | .drain _ .atRead => !rxIntEnabled s
  | .drain _ (.atWrite _) => false
  | .copy _ [] | .drain _ .atCheck | .pollTaken _ _ | .withdraw | .pollReady _ | .initSctrl _ _ | .fifoCheck _ _
  | .ringClear _ | .initImask | .initModeRead | .initModeWrite _ => true

/-- `INT` keeps to its rights (R213): whatever the handler issues after `RxDrain` is `INT`'s to issue, and so is the
operation it is inside. The handler of R201 issues nothing. -/
def intWithinRights (s : State) : Bool :=
  s.handler.all (Cmd.within fun i => mayIssue .int i s) &&
    match s.intOp with
    | .idle | .drain _ _ => true
    | .pollTaken _ _ | .withdraw | .copy _ _ | .pollReady _ | .initSctrl _ _ | .fifoCheck _ _ | .fifoPop _ _
    | .ringClear _ | .initImask | .initModeRead | .initModeWrite _ => false

/-! ### The writes of `ARBCTL` -/

/-- The data of the `WR.ARBCTL` that an instruction is, or that is its first transaction (R102). -/
def arbctlOf : Instr → Option Word
  | .wrArbctl d => some d
  | .requestBus reset | .uploadProgram _ _ reset => some (requestData reset)
  | .releaseBus => some 0
  | .rdArbctl | .rdArbstat | .rdFlt | .wrCtrl _ _ | .rdCtrl _ | .wrSctrl _ _ | .rdSctrl _ | .wrTxdata _ _ | .rdRxdata _
  | .wrMode _ | .rdMode | .wrImask _ | .rdImask | .wrRbdata _ | .rdRbdata | .rdRbstat | .rdRbavail | .rdRbrd | .rdRbwr
  | .wrRbctl _ | .mrd _ | .mwr _ _ | .isBusTaken | .serialInit _ _ | .isPresent | .writeReady | .serWrite _ | .readReady
  | .serRead | .resetFifos | .baudRate | .rbWrite _ | .rbRead | .rbCanRead | .rbAvailable | .rxDrain => none

/-- The data of the `WR.ARBCTL` that the issuer's next transaction is, if it is one (R101, R102): `WR.ARBCTL #0` at the
poll bound and after the last byte of a copy, else what the fetched command issues. -/
def issuerArbctl (s : State) : Option Word :=
  match s.mainPos with
  | .idle =>
    match fetch s with
    | some (.txn t) =>
      match decode t with
      | .ok i => arbctlOf i
      | .error _ => none
    | some (.op i) => arbctlOf i
    | _ => none
  | .withdraw | .copy _ [] => some 0
  | _ => none

/-- The interrupt context is past its `RxDrain`: at its exit, or with no port selected (R180, R202). -/
def drainOver (s : State) : Bool := s.intPos.isNone || s.port.isNone

/-- The data of the `WR.ARBCTL` that the next step is, if it is one: `MAIN`'s, or that of a handler of R243. -/
def stepArbctl (s : State) : Option Word :=
  match nextMove s with
  | .main => if s.inIrq then none else issuerArbctl s
  | .int => if s.inIrq && drainOver s then issuerArbctl s.swapIssuer else none
  | .grant | .resume | .cpStep _ _ _ | .rxArrive _ _ | .txShift _ => none

/-! ### Runs and fairness -/

/-- An infinite run under a schedule (R70): at every step the move the environment chose stands in the script, and the
next state is what the step makes of it. -/
def IsRun (moves : Nat → Move) (r : Nat → State) : Prop :=
  ∀ n, step { r n with script := [moves n] } = .next (r (n + 1))

/-- A step of an agent that stays enabled is eventually taken (R13). -/
def EventuallyTaken (enabled : State → Bool) (m : Move) (moves : Nat → Move) (r : Nat → State) : Prop :=
  ∀ n, (∀ k, n ≤ k → enabled (r k) = true) → ∃ k, n ≤ k ∧ moves k = m

/-- `FAIR_GRANT` (R13). -/
def FairGrant (moves : Nat → Move) (r : Nat → State) : Prop := EventuallyTaken grantEnabled .grant moves r

/-- `FAIR_RESUME` (R13). -/
def FairResume (moves : Nat → Move) (r : Nat → State) : Prop := EventuallyTaken resumeEnabled .resume moves r

/-- `FAIR_TX` for a port (R13, R147). -/
def FairTx (p : Port) (moves : Nat → Move) (r : Nat → State) : Prop :=
  EventuallyTaken (fun s => !(s.io p).txFifo.isEmpty) (.txShift p) moves r

/-- Every `CP_STEP` of the run is one that the relation `CP_FIRMWARE` allows (R7, R115): the premise of a claim that
needs more of the firmware than the default, which allows every step (log 18). -/
def ObeysFirmware (firmware : CpState × Memory × Bool → CpState × Memory × Bool → Prop) (moves : Nat → Move)
    (r : Nat → State) : Prop :=
  ∀ n state stores ready, moves n = .cpStep state stores ready → (r n).taken = false →
    firmware ((r n).cpState, (r n).cpmem, (r n).cpReady)
      ((r (n + 1)).cpState, (r (n + 1)).cpmem, (r (n + 1)).cpReady)

/-- The coprocessor is resumed at step `n` from `CP_RESET_STATE`, its readiness flag clear, on this image at
`UPLOAD_BASE` (R114, R119, R253). -/
def ResumedOnImage (image : List Byte) (moves : Nat → Move) (r : Nat → State) (n : Nat) : Prop :=
  moves n = .resume ∧ resumeEnabled (r n) = true ∧ (r n).cpState = (r n).cfg.cpResetState ∧ (r n).cpReady = false ∧
    ∀ k < image.length, image[k]? = some (cpByte (r n) ((r n).cfg.uploadBase + k))

/-- The step the run takes from its `n`th state is a `WR.ARBCTL` with `RST`, the one other writer of the readiness flag
(R45, R111). -/
def resetsCoprocessor (moves : Nat → Move) (r : Nat → State) (n : Nat) : Bool :=
  (stepArbctl { r n with script := [moves n] }).any dataRst

/-- `FAIR_READY` for an image: the firmware, once resumed from `CP_RESET_STATE` on it, eventually sets the readiness flag
and leaves it set, as long as it is let run: its step stays enabled from there on and no `WR.ARBCTL` resets the
coprocessor, so that nothing but the firmware writes the flag (R13, R115, R253; log 12, DEDUCED). -/
def FairReady (image : List Byte) (moves : Nat → Move) (r : Nat → State) : Prop :=
  ∀ n, ResumedOnImage image moves r n →
    (∀ k, n < k → cpStepEnabled (r k) = true ∧ resetsCoprocessor moves r k = false) →
    ∃ k, n < k ∧ ∀ m, k ≤ m → (r m).cpReady = true

/-- The line of a port delivers no byte in the steps from `n` up to `m`. -/
def LineQuiet (p : Port) (moves : Nat → Move) (n m : Nat) : Prop :=
  ∀ k b, n ≤ k → k < m → moves k ≠ .rxArrive p b

/-- The premise of R253 for a drain loop of `perByte` transactions an iteration: from step `n` on the line is quiet while
the issuer, which takes its steps where `steps` says, takes one iteration for each queued byte and one check more
(R244; log 12, DEDUCED). -/
def QuietForDrain (p : Port) (perByte : Nat) (steps : Nat → Bool) (moves : Nat → Move) (r : Nat → State) (n : Nat) :
    Prop :=
  ∃ m, n ≤ m ∧ LineQuiet p moves n m ∧
    perByte * ((r n).io p).rxFifo.length + 1 ≤ (List.range' n (m - n)).countP steps

/-- The steps of a run that `MAIN` takes. -/
def mainSteps (moves : Nat → Move) (r : Nat → State) (k : Nat) : Bool := decide (moves k = .main) && !(r k).inIrq

/-- The steps of a run that `INT` takes inside the interrupt context. -/
def intSteps (moves : Nat → Move) (r : Nat → State) (k : Nat) : Bool := decide (moves k = .int) && (r k).inIrq

/-- The main context is given its step again and again: `INT` does not starve it (R253; log 12). -/
def MainProgresses (moves : Nat → Move) (r : Nat → State) : Prop :=
  ∀ n, ∃ k, n ≤ k ∧ moves k = .main ∧ (r k).inIrq = false

/-- `k` steps lead from one state to another. -/
def Steps : Nat → State → State → Prop
  | 0, s, t => s = t
  | k + 1, s, t => ∃ u, step s = .next u ∧ Steps k u t

/-- A list of instructions executed one after another, with what each returned. -/
def execAll : List Instr → State → Option (State × List Result)
  | [], s => some (s, [])
  | i :: is, s =>
    match exec i s with
    | .next t =>
      match execAll is t with
      | some (u, rs) => some (u, t.result :: rs)
      | none => none
    | _ => none

end Sys2Proof.Machine
end

