-- ==== Sys2Proof/Certificates/Slice0/Obligations.lean ====
section
/-! DEFINITION. The statements for the provers, each a proposition about `decode`, `exec` or `step`. -/

open Sys2Proof Sys2Proof.Machine

/-! ### Encoding -/

/-- Every level-0 transaction has a word, and that word decodes to it (R91 to R97): no bit of an operand is dropped. -/
def Obligations.DecodeOfEncodeIsTheInstruction : Prop :=
  ∀ i : Instr, i.level0 = true → ∃ w, encode i = some w ∧ decode w = .ok i

/-- Every word that decodes is the word of what it decodes to: no two words mean the same transaction (R94, R97). -/
def Obligations.EncodeOfDecodeIsTheWord : Prop :=
  ∀ (w : TxnWord) (i : Instr), decode w = .ok i → encode i = some w

/-- The decoder accepts exactly the words that match a row of the opcode map, by mask and match value (R94, R97). -/
def Obligations.DecodeAcceptsExactlyTheOpcodeRows : Prop :=
  ∀ w : TxnWord, (∃ i, decode w = .ok i) ↔ ∃ r ∈ opcodeRows, r.matches w = true

/-- The example words of R99, and words of each case of R97. -/
def Obligations.ExampleWordsDecode : Prop :=
  decode 0x80000001 = .ok (.wrArbctl 1) ∧ decode 0x00010000 = .ok .rdArbstat ∧
  decode 0x80150038 = .ok (.wrSctrl .ctrl2 0x38) ∧ decode 0x00130000 = .ok (.rdRxdata .ext) ∧
  decode 0xC00001C3 = .ok (.mwr 0x0001 0xC3) ∧ decode 0x401FFF00 = .ok (.mrd 0x1FFF) ∧
  decode 0x81000001 = .error .reservedBits ∧ decode 0x80030000 = .error .unimplementedRegister ∧
  decode 0x80010000 = .error .illegalDirection ∧ decode 0x00350000 = .error .illegalDirection ∧
  decode 0x00000001 = .error .nonzeroReadData ∧ decode 0x40001001 = .error .nonzeroReadData

/-! ### The step -/

/-- On `MAIN`'s turn, outside an operation, a fetched word that decodes is executed, past its place in the command
list, with the choice of the agent used up and nothing else changed; so is a command given by name. The control
constructs of the list touch nothing of the block: they move the index alone (R101). That list, index and choice stand
in the state is the model's choice, logs 1 and 2, and so is that `loop`, `exit` and `if` are written as jumps, log 22. -/
def Obligations.StepRunsTheFetchedCommand : Prop :=
  (∀ (s : State) (i : Instr), MainTurn s → s.mainPos = .idle →
    ((∃ w, fetch s = some (.txn w) ∧ decode w = .ok i) ∨ fetch s = some (.op i)) →
    step s = exec i { afterChoice s with idx := s.idx + 1 }) ∧
  (∀ s k, MainTurn s → s.mainPos = .idle → fetch s = some (.jump k) →
    step s = .next { afterChoice s with idx := k }) ∧
  ∀ s c k, MainTurn s → s.mainPos = .idle → fetch s = some (.jumpIf c k) →
    step s = .next { afterChoice s with idx := if c.holds s.result then k else s.idx + 1 }

/-- The step after a word is placed runs the instruction it decodes to, on the given state with the word as the whole
command list. How a word is placed is the model's choice, log 3. -/
def Obligations.PlacedWordRunsNext : Prop :=
  ∀ (s : State) (n w : Nat) (i : Instr), decode (BitVec.ofNat 32 w) = .ok i →
    step (s.withFetchWord n w) =
      exec i { s with
        prog := [.txn (BitVec.ofNat 32 w)], idx := 1, script := [], mainPos := .idle, inIrq := false, intPos := none }

/-- `BAD_TXN` (R194): an illegal word sets bit 2 of `FLT` and records the word; nothing else changes but that a read
returns some value, the command is past, and the choices made are used up. -/
def Obligations.IllegalWordRaisesBadTxnAlone : Prop :=
  ∀ (s : State) (w : TxnWord) (e : DecodeError), MainTurn s → s.mainPos = .idle → fetch s = some (.txn w) →
    decode w = .error e →
    Raised.code (.badTxn w) = 3 ∧
    ∃ t, step s = .next t ∧
      t = { afterChoice s with
        idx := s.idx + 1, flt := s.flt ||| 4, raised := s.raised ++ [.badTxn w], result := t.result, draws := t.draws } ∧
      (w.getLsbD 31 = true → t.result = .void ∧ t.draws = (afterChoice s).draws) ∧
      (w.getLsbD 31 = false → ∃ v, t.result = .value v)

/-- While `inIrq = 1` `MAIN` has no step, and `INT` may become active between any two of its transactions, inside an
operation too (R12). That `MAIN`'s choice is used up without effect is the model's choice, log 2. -/
def Obligations.InterruptContextPreemptsMain : Prop :=
  (∀ s, s.inIrq = true → nextMove s = .main → step s = .next (afterChoice s)) ∧
  ∀ s, s.inIrq = false → irq s = true → nextMove s = .int →
    ∃ t, step s = .next t ∧ t.inIrq = true ∧ t.mainPos = s.mainPos ∧ t.idx = s.idx ∧ t.prog = s.prog ∧
      t.result = s.result

/-- What a handler issues after `RxDrain` (R243; that such a handler is a command list of its own is the model's choice,
log 24). At the end of its drain `INT` executes the next command as `MAIN` would, on the state with the two issuers
changed over, and changes them back. *Case 1* and *Case 2* of R243: its `WR.ARBCTL #0` drops the request of the main
context wherever that stands, so the bus is no longer the primary controller's and `GRANT` is not enabled; and from
`RELEASED` a `TAKEN` poll of `MAIN` without a poll bound polls on, whatever steps, while no one writes `ARBCTL`. -/
def Obligations.TheHandlerIssuesAfterTheDrain : Prop :=
  (∀ (s : State) (i : Instr), nextMove s = .int → s.inIrq = true → drainOver s = true → s.intOp = .idle →
    ((∃ w, s.handler[s.intIdx]? = some (.txn w) ∧ decode w = .ok i) ∨ s.handler[s.intIdx]? = some (.op i)) →
    step s = onNext State.swapIssuer
      (exec i { (afterChoice s).swapIssuer with idx := s.intIdx + 1, intPos := none })) ∧
  (∀ s : State, nextMove s = .int → s.inIrq = true → drainOver s = true → s.intOp ≠ .idle →
    step s = .next (continueOp s.intOp { (afterChoice s).swapIssuer with intPos := none }).swapIssuer) ∧
  (∀ s : State, s.inIrq = true → stepArbctl s = some 0 → ∃ t, step s = .next t ∧
    t.req = false ∧ t.taken = s.taken ∧ t.mainPos = s.mainPos ∧ primaryOwns t = false ∧ grantEnabled t = false) ∧
  ∀ s t n upload, s.req = false → s.taken = false → s.mainPos = .pollTaken n upload → s.cfg.pollBound = none →
    stepArbctl s = none → step s = .next t →
    t.req = false ∧ t.taken = false ∧ t.cfg.pollBound = none ∧ ∃ m, t.mainPos = .pollTaken m upload

/-! ### Bus arbitration -/

/-- `WR.ARBCTL #d` (R111, R112): `REQ` is stored, `RST` resets the coprocessor, both together grant; nothing else. -/
def Obligations.WriteArbctlSetsRequestAndResets : Prop :=
  ∀ (d : Word) (s : State),
    EncodesAs (.wrArbctl d) 0x80000000 0xFFFF0000 ∧
    ∃ t, exec (.wrArbctl d) s = .next t ∧
      t.req = d.getLsbD 0 ∧
      t.taken = (s.taken || (d.getLsbD 1 && d.getLsbD 0)) ∧
      (d.getLsbD 1 = true → t.cpState = s.cfg.cpResetState ∧ t.cpReady = false) ∧
      (d.getLsbD 1 = false → t.cpState = s.cpState ∧ t.cpReady = s.cpReady) ∧
      SameBytes s t ∧
      t = { s with
        req := t.req, taken := t.taken, cpState := t.cpState, cpReady := t.cpReady, result := .void }

/-- `RD.ARBCTL` and `RD.ARBSTAT` (R122, R123): the bits, and no other change. `ReleaseBus()` (R117): the request is
dropped without waiting, and nothing else changes. `IsBusTaken()` (R118): it reports `taken`. -/
def Obligations.ArbiterQueriesAndRelease : Prop :=
  EncodesAs .rdArbctl 0x00000000 0xFFFFFFFF ∧ EncodesAs .rdArbstat 0x00010000 0xFFFFFFFF ∧
  ∀ s : State,
    (∃ v, exec .rdArbctl s = .next { s with result := .value v } ∧ v.getLsbD 0 = s.req ∧
      ∀ k, 1 ≤ k → v.getLsbD k = false) ∧
    (∃ v, exec .rdArbstat s = .next { s with result := .value v } ∧ v.getLsbD 0 = s.taken ∧
      v.getLsbD 1 = s.cpReady ∧ ∀ k, 2 ≤ k → v.getLsbD k = false) ∧
    exec .releaseBus s = .next { s with req := false, result := .void } ∧
    exec .isBusTaken s = .next { s with result := .bool s.taken }

/-- `MRD a` (R120): out of range, tested first; not owned; or the byte, zero-extended. A faulting read returns some
value and changes nothing but its flag. -/
def Obligations.ReadCoprocessorByte : Prop :=
  ∀ (a : Word) (s : State),
    EncodesAs (.mrd a) 0x40000000 0xFF0000FF ∧
    (a.toNat < s.cfg.cpmemSize → s.req = true → s.taken = true →
      exec (.mrd a) s = .next { s with result := .value ((cpByte s a.toNat).setWidth 16) }) ∧
    (s.cfg.cpmemSize ≤ a.toNat → ∃ t v, exec (.mrd a) s = .next t ∧
      t = { s with
        flt := s.flt ||| 2, raised := s.raised ++ [.cpmemRange a.toNat], result := .value v, draws := t.draws } ∧
      SameBytes s t) ∧
    (a.toNat < s.cfg.cpmemSize → (s.req && s.taken) = false → ∃ t v, exec (.mrd a) s = .next t ∧
      t = { s with
        flt := s.flt ||| 1, raised := s.raised ++ [.busNotOwned a.toNat], result := .value v, draws := t.draws } ∧
      SameBytes s t)

/-- `MWR a, #b` (R121): out of range, tested first; not owned; or the byte stored at `a` and every other byte as
before. A faulting write changes nothing but its flag. -/
def Obligations.WriteCoprocessorByte : Prop :=
  ∀ (a : Word) (b : Byte) (s : State),
    EncodesAs (.mwr a b) 0xC0000000 0xFF000000 ∧
    (a.toNat < s.cfg.cpmemSize → s.req = true → s.taken = true → ∃ t, exec (.mwr a b) s = .next t ∧
      cpByte t a.toNat = b ∧ (∀ x, x ≠ a.toNat → cpByte t x = cpByte s x) ∧ (∀ k, ringByte t k = ringByte s k) ∧
      t = { s with cpmem := t.cpmem, result := .void }) ∧
    (s.cfg.cpmemSize ≤ a.toNat →
      exec (.mwr a b) s = .next { s with
        flt := s.flt ||| 2, raised := s.raised ++ [.cpmemRange a.toNat], result := .void }) ∧
    (a.toNat < s.cfg.cpmemSize → (s.req && s.taken) = false →
      exec (.mwr a b) s = .next { s with
        flt := s.flt ||| 1, raised := s.raised ++ [.busNotOwned a.toNat], result := .void })

/-- `GRANT` and `RESUME` (R113, R114) where they are enabled; where they are not, the choice is used up and nothing
happens, which is the model's choice (log 2). -/
def Obligations.GrantAndResume : Prop :=
  ∀ s : State,
    (nextMove s = .grant → step s = .next { afterChoice s with taken := s.taken || s.req }) ∧
    (nextMove s = .resume → step s = .next { afterChoice s with taken := s.taken && s.req })

/-- `CP_STEP` (R115): enabled exactly while `taken = 0`; it writes `cpState`, `cpReady` and the bytes it stores, and
no other state; and with the unconstrained firmware it can leave any content in coprocessor memory. That a choice of
it while `taken = 1` does nothing, and that a store out of range is none, are the model's choices (logs 2, 18). -/
def Obligations.CpStepIsAnyFirmwareStep : Prop :=
  (∀ s c stores r, nextMove s = .cpStep c stores r → s.taken = false → ∃ t, step s = .next t ∧
    t = { afterChoice s with cpState := c, cpReady := r, cpmem := t.cpmem } ∧
    (∀ a, (∀ x ∈ stores, x.1 ≠ a) → cpByte t a = cpByte s a) ∧
    ∀ a, s.cfg.cpmemSize ≤ a → cpByte t a = cpByte s a) ∧
  (∀ s c stores r, nextMove s = .cpStep c stores r → s.taken = true → step s = .next (afterChoice s)) ∧
  ∀ (f : Nat → Byte) (size : Nat), ∃ stores, ∀ s c r t, s.cfg.cpmemSize = size → s.taken = false →
    nextMove s = .cpStep c stores r → step s = .next t → ∀ a < size, cpByte t a = f a

/-- `RequestBus(reset)` (R116): the write `WR.ARBCTL #(1 + 2*reset)`; then the `TAKEN` poll, which returns `Ok` when it
reads 1, and else counts one more unsuccessful poll, until at the bound `WR.ARBCTL #0` and the result `BusTimeout`;
without a bound never a timeout. The split into steps is the model's, log 13. -/
def Obligations.RequestBusPollsUntilTaken : Prop :=
  (∀ (reset : Bool) (s : State), ∃ t, exec (.requestBus reset) s = .next t ∧
    t.req = true ∧ t.taken = (s.taken || reset) ∧
    t.cpReady = (s.cpReady && !reset) ∧ t.cpState = (if reset then s.cfg.cpResetState else s.cpState) ∧
    SameBytes s t ∧
    t = { s with
      req := t.req, taken := t.taken, cpReady := t.cpReady, cpState := t.cpState, mainPos := .pollTaken 0 none }) ∧
  (∀ s n, MainTurn s → s.mainPos = .pollTaken n none →
    (s.taken = true → step s = .next { afterChoice s with mainPos := .idle, result := .ok }) ∧
    (s.taken = false → s.cfg.pollBound = none →
      step s = .next { afterChoice s with mainPos := .pollTaken (n + 1) none }) ∧
    (∀ b, s.taken = false → s.cfg.pollBound = some b → n + 1 < b →
      step s = .next { afterChoice s with mainPos := .pollTaken (n + 1) none }) ∧
    (∀ b, s.taken = false → s.cfg.pollBound = some b → b ≤ n + 1 →
      step s = .next { afterChoice s with mainPos := .withdraw })) ∧
  (∀ s, MainTurn s → s.mainPos = .withdraw →
    step s = .next { afterChoice s with req := false, mainPos := .idle, result := .busTimeout }) ∧
  Result.code .busTimeout = some 9

/-- `RequestBus(true)` returns `Ok` at its first poll, whatever the other agents do in between, with the bus owned
(R112, R253), where the interrupt context keeps to its rights (R213, R243). -/
def Obligations.RequestBusWithResetNeedsNoFairness : Prop :=
  ∀ s : State, intWithinRights s = true → ∃ t, exec (.requestBus true) s = .next t ∧
    ∀ (r : Nat → State) (k : Nat), r 0 = t →
      (∀ j < k, step (r j) = .next (r (j + 1)) ∧ nextMove (r j) ≠ .main) → MainTurn (r k) →
      ∃ v, step (r k) = .next v ∧ v.mainPos = .idle ∧ v.result = .ok ∧ primaryOwns v = true

/-- While the primary controller owns the bus, no step of another agent, and none of an interrupt context that keeps to
its rights, takes it away or touches the coprocessor (R71, R75, R116, R213). -/
def Obligations.OwnershipSurvivesTheOtherAgents : Prop :=
  ∀ s, primaryOwns s = true → intWithinRights s = true → nextMove s ≠ .main → ∃ t, step s = .next t ∧
    primaryOwns t = true ∧ t.cpState = s.cpState ∧ t.cpReady = s.cpReady ∧ (∀ a, cpByte t a = cpByte s a) ∧
    t.mainPos = s.mainPos

/-- The access pattern (R124): while the primary controller owns the bus, any sequence of `MRD` and `MWR` in range
raises no fault and leaves it the owner. -/
def Obligations.OwnedAccessesRaiseNoFault : Prop :=
  ∀ (accesses : List Instr) (s : State), primaryOwns s = true →
    (∀ i ∈ accesses, (∃ a, i = .mrd a ∧ a.toNat < s.cfg.cpmemSize) ∨
      ∃ a b, i = .mwr a b ∧ a.toNat < s.cfg.cpmemSize) →
    ∃ t rs, execAll accesses s = some (t, rs) ∧ t.flt = s.flt ∧ t.raised = s.raised ∧ primaryOwns t = true

/-- Whatever changes a byte of coprocessor memory is the coprocessor while the bus is not taken, or the primary
controller while it owns the bus: its main context, or an interrupt context that breaks its rights (R75, R213). -/
def Obligations.OnlyTheOwnerChangesCoprocessorMemory : Prop :=
  ∀ s t a, step s = .next t → cpByte t a ≠ cpByte s a →
    (s.taken = false ∧ ∃ c stores r, nextMove s = .cpStep c stores r) ∨
    (primaryOwns s = true ∧
      (MainTurn s ∨ (nextMove s = .int ∧ s.inIrq = true ∧ intWithinRights s = false)))

/-- The handshake moves only as the table of R110 says, and by what its column "leaves by" says. `req` is what a
`WR.ARBCTL` stores and changes at no other step; `taken` changes at a `GRANT`, at a `RESUME`, or at a `WR.ARBCTL` with
`RST` and `REQ`, which goes to `OWNED` from every state (R111, R112); and it is `MAIN` that writes `ARBCTL`, where the
interrupt context keeps to its rights (R213). -/
def Obligations.HandshakeMovesOnlyAsTheTableSays : Prop :=
  ∀ s t, step s = .next t →
    (∀ d, stepArbctl s = some d →
      t.req = d.getLsbD 0 ∧ t.taken = (s.taken || (d.getLsbD 0 && d.getLsbD 1)) ∧
      (intWithinRights s = true → MainTurn s)) ∧
    (stepArbctl s = none → t.req = s.req) ∧
    (stepArbctl s = none → nextMove s ≠ .grant → nextMove s ≠ .resume → t.taken = s.taken) ∧
    (handshake s = .released → handshake t = .released ∨
      ∃ d, stepArbctl s = some d ∧ d.getLsbD 0 = true ∧
        handshake t = if d.getLsbD 1 then .owned else .reqPending) ∧
    (handshake s = .reqPending → handshake t = .reqPending ∨
      (nextMove s = .grant ∧ handshake t = .owned) ∨
      ∃ d, stepArbctl s = some d ∧
        ((d.getLsbD 0 = false ∧ handshake t = .released) ∨
          (d.getLsbD 0 = true ∧ d.getLsbD 1 = true ∧ handshake t = .owned))) ∧
    (handshake s = .owned → handshake t = .owned ∨
      ∃ d, stepArbctl s = some d ∧ d.getLsbD 0 = false ∧ handshake t = .relPending) ∧
    (handshake s = .relPending → handshake t = .relPending ∨
      (nextMove s = .resume ∧ handshake t = .released) ∨
      ∃ d, stepArbctl s = some d ∧ d.getLsbD 0 = true ∧ handshake t = .owned)

/-- `UploadProgram` (R119): the request, with `length` bytes to copy, those of the image; then, one transaction a step of
`MAIN`, the `TAKEN` poll, which goes on to the copy when it reads 1, and else counts one more unsuccessful poll, until at
the bound `WR.ARBCTL #0` and the result `BusTimeout` with nothing more done; the copy stores one byte or flags it and
goes on either way; after the last byte the release; then the `READY` poll. That a byte past the end of an image too
short is free, that an address is never wrapped, and the split into steps are the model's choices (logs 17, 16, 13). -/
def Obligations.UploadProgramCopiesReleasesAndPolls : Prop :=
  (∀ (image : List Byte) (length : Nat) (resetFirst : Bool) (s : State), ∃ t bytes,
    exec (.uploadProgram image length resetFirst) s = .next t ∧
    bytes.length = length ∧ (∀ k b, k < length → image[k]? = some b → bytes[k]? = some b) ∧
    t.req = true ∧ t.taken = (s.taken || resetFirst) ∧
    t.cpReady = (s.cpReady && !resetFirst) ∧
    t.cpState = (if resetFirst then s.cfg.cpResetState else s.cpState) ∧ SameBytes s t ∧
    (length ≤ image.length → t.draws = s.draws) ∧
    t = { s with
      req := t.req, taken := t.taken, cpReady := t.cpReady, cpState := t.cpState
      mainPos := .pollTaken 0 (some bytes), draws := t.draws }) ∧
  (∀ s n bytes, MainTurn s → s.mainPos = .pollTaken n (some bytes) →
    (s.taken = true → step s = .next { afterChoice s with mainPos := .copy s.cfg.uploadBase bytes }) ∧
    (s.taken = false → s.cfg.pollBound = none →
      step s = .next { afterChoice s with mainPos := .pollTaken (n + 1) (some bytes) }) ∧
    (∀ b, s.taken = false → s.cfg.pollBound = some b → n + 1 < b →
      step s = .next { afterChoice s with mainPos := .pollTaken (n + 1) (some bytes) }) ∧
    (∀ b, s.taken = false → s.cfg.pollBound = some b → b ≤ n + 1 →
      step s = .next { afterChoice s with mainPos := .withdraw })) ∧
  (∀ s, MainTurn s → s.mainPos = .withdraw →
    step s = .next { afterChoice s with req := false, mainPos := .idle, result := .busTimeout }) ∧
  (∀ s a b bs, MainTurn s → s.mainPos = .copy a (b :: bs) → ∃ t, step s = .next t ∧ t.mainPos = .copy (a + 1) bs ∧
    (∀ x, cpByte t x = if x = a ∧ a < s.cfg.cpmemSize ∧ primaryOwns s = true then b else cpByte s x) ∧
    t.flt = (if s.cfg.cpmemSize ≤ a then s.flt ||| 2 else if primaryOwns s then s.flt else s.flt ||| 1) ∧
    t = { afterChoice s with cpmem := t.cpmem, flt := t.flt, raised := t.raised, mainPos := t.mainPos }) ∧
  (∀ s a, MainTurn s → s.mainPos = .copy a [] →
    step s = .next { afterChoice s with req := false, mainPos := .pollReady 0 }) ∧
  (∀ s n, MainTurn s → s.mainPos = .pollReady n →
    (s.cpReady = true → step s = .next { afterChoice s with mainPos := .idle, result := .ok }) ∧
    (s.cpReady = false → s.cfg.pollBound = none →
      step s = .next { afterChoice s with mainPos := .pollReady (n + 1) }) ∧
    (∀ b, s.cpReady = false → s.cfg.pollBound = some b → n + 1 < b →
      step s = .next { afterChoice s with mainPos := .pollReady (n + 1) }) ∧
    (∀ b, s.cpReady = false → s.cfg.pollBound = some b → b ≤ n + 1 →
      step s = .next { afterChoice s with mainPos := .idle, result := .busTimeout }))

/-- `UploadProgram` with reset, the main context moving alone (R119, R112): from any handshake state the first `length`
bytes of the image lie at `UPLOAD_BASE`, every byte outside the `length` stored ones is as it was, no fault is raised,
the coprocessor stands reset, and the operation is at its `READY` poll with the bus released. The number of steps, and
that a byte past the end of an image too short is free, are the model's, logs 13 and 17. -/
def Obligations.UploadProgramStoresTheImage : Prop :=
  ∀ (image : List Byte) (length : Nat) (s : State) (rest : List Move),
    s.inIrq = false → s.cfg.uploadBase + length ≤ s.cfg.cpmemSize →
    s.script = List.replicate (length + 2) .main ++ rest →
    ∃ t u, exec (.uploadProgram image length true) s = .next t ∧ Steps (length + 2) t u ∧
      (∀ k b, k < length → image[k]? = some b → cpByte u (s.cfg.uploadBase + k) = b) ∧
      (∀ a, a < s.cfg.uploadBase ∨ s.cfg.uploadBase + length ≤ a → cpByte u a = cpByte s a) ∧
      u.req = false ∧ u.taken = true ∧ u.cpReady = false ∧ u.cpState = s.cfg.cpResetState ∧
      u.mainPos = .pollReady 0 ∧ u.flt = s.flt ∧ u.script = rest

/-- Under `FAIR_GRANT`, with no poll bound, the main context given its step again and again, and no `WR.ARBCTL` from the
interrupt context, which keeps to its rights, a pending `RequestBus` returns `Ok` with the bus owned (R13, R116, R253).
That the premises are written as these predicates on a run and its schedule, `MainProgresses` among them, is the model's
reading, log 12. -/
def Obligations.RequestBusReturnsUnderFairGrant : Prop :=
  ∀ (moves : Nat → Move) (r : Nat → State) (n k : Nat), IsRun moves r → FairGrant moves r → MainProgresses moves r →
    intWithinRights (r n) = true →
    (r n).mainPos = .pollTaken k none → (r n).req = true → (r n).cfg.pollBound = none →
    ∃ m, n ≤ m ∧ (r m).mainPos = .idle ∧ (r m).result = .ok ∧ primaryOwns (r m) = true

/-- `UploadProgram(.., true)` returns `Ok` under `FAIR_RESUME` and `FAIR_READY` (R253): from its `TAKEN` poll, the bus
owned and the coprocessor reset as its first transaction leaves them, with no poll bound, an image that fits, the main
context given its step again and again and an interrupt context that keeps to its rights. The predicates on runs are
the model's reading, log 12. -/
def Obligations.UploadProgramReturnsUnderFairReady : Prop :=
  ∀ (moves : Nat → Move) (r : Nat → State) (n k : Nat) (bytes : List Byte), IsRun moves r → FairResume moves r →
    FairReady bytes moves r → MainProgresses moves r → intWithinRights (r n) = true →
    (r n).mainPos = .pollTaken k (some bytes) → primaryOwns (r n) = true →
    (r n).cpState = (r n).cfg.cpResetState → (r n).cpReady = false → (r n).cfg.pollBound = none →
    (r n).cfg.uploadBase + bytes.length ≤ (r n).cfg.cpmemSize →
    ∃ m, n ≤ m ∧ (r m).mainPos = .idle ∧ (r m).result = .ok ∧ (r m).cpReady = true

/-! ### Serial transport -/

/-- `WR.CTRL p, #d` and `RD.CTRL p` (R140, R141): the low byte is stored and read back; nothing else. -/
def Obligations.ControlRegisterStoresItsByte : Prop :=
  ∀ (p : Port) (d : Word) (s : State),
    EncodesAsPort (.wrCtrl p d) p 0x80100000 0xFFFB0000 ∧ EncodesAsPort (.rdCtrl p) p 0x00100000 0xFFFBFFFF ∧
    (∃ t, exec (.wrCtrl p d) s = .next t ∧
      t.io p = { s.io p with ctrl := d.setWidth 8 } ∧ (∀ q, q ≠ p → t.io q = s.io q) ∧ SameBytes s t ∧
      t = { s with ext := t.ext, ctrl2 := t.ctrl2, result := .void }) ∧
    exec (.rdCtrl p) s = .next { s with result := .value ((s.io p).ctrl.setWidth 16) }

/-- `WR.SCTRL p, #d` (R145): `BAUD`, `SUBFN` and `RINT` take bits 7:3; bits 2:0, the FIFOs, the other port and every
other register stay. -/
def Obligations.WriteSerialControl : Prop :=
  ∀ (p : Port) (d : Word) (s : State),
    EncodesAsPort (.wrSctrl p d) p 0x80110000 0xFFFB0000 ∧
    ∃ t, exec (.wrSctrl p d) s = .next t ∧
      (t.io p).baud.getLsbD 0 = d.getLsbD 6 ∧ (t.io p).baud.getLsbD 1 = d.getLsbD 7 ∧
      (t.io p).subfn.getLsbD 0 = d.getLsbD 4 ∧ (t.io p).subfn.getLsbD 1 = d.getLsbD 5 ∧
      (t.io p).rint = d.getLsbD 3 ∧
      t.io p = { s.io p with baud := (t.io p).baud, subfn := (t.io p).subfn, rint := (t.io p).rint } ∧
      (∀ q, q ≠ p → t.io q = s.io q) ∧ SameBytes s t ∧
      t = { s with ext := t.ext, ctrl2 := t.ctrl2, result := .void }

/-- `RD.SCTRL p` (R144): the value `64*baud + 16*subfn + 8*rint + 2*RRDY + TFULL`, and no other change. -/
def Obligations.ReadSerialControl : Prop :=
  ∀ (p : Port) (s : State),
    EncodesAsPort (.rdSctrl p) p 0x00110000 0xFFFBFFFF ∧
    ∃ v : Word, exec (.rdSctrl p) s = .next { s with result := .value v } ∧
      v.toNat = 64 * (s.io p).baud.toNat + 16 * (s.io p).subfn.toNat + 8 * (s.io p).rint.toNat
        + 2 * (if (s.io p).rxFifo = [] then 0 else 1)
        + (if (s.io p).txFifo.length = s.cfg.txDepth then 1 else 0)

/-- `WR.TXDATA p, #d` (R142): with room the byte joins the end of the transmit FIFO; on a full one the fault is raised
and the FIFO holds some content of 1 to `TXFIFO_DEPTH` bytes. Nothing else changes. -/
def Obligations.WriteTransmitData : Prop :=
  ∀ (p : Port) (d : Word) (s : State),
    EncodesAsPort (.wrTxdata p d) p 0x80120000 0xFFFB0000 ∧
    ((s.io p).txFifo.length < s.cfg.txDepth → ∃ t, exec (.wrTxdata p d) s = .next t ∧
      t.io p = { s.io p with txFifo := (s.io p).txFifo ++ [d.setWidth 8] } ∧ (∀ q, q ≠ p → t.io q = s.io q) ∧
      SameBytes s t ∧ t = { s with ext := t.ext, ctrl2 := t.ctrl2, result := .void }) ∧
    (1 ≤ s.cfg.txDepth → s.cfg.txDepth ≤ (s.io p).txFifo.length → ∃ t, exec (.wrTxdata p d) s = .next t ∧
      t.io p = { s.io p with txFifo := (t.io p).txFifo } ∧ 1 ≤ (t.io p).txFifo.length ∧
      (t.io p).txFifo.length ≤ s.cfg.txDepth ∧ (∀ q, q ≠ p → t.io q = s.io q) ∧ SameBytes s t ∧
      t = { s with
        ext := t.ext, ctrl2 := t.ctrl2, flt := s.flt ||| 16, raised := s.raised ++ [.txOverrun p], result := .void
        draws := t.draws })

/-- `RD.RXDATA p` (R143): the head of the receive FIFO leaves it; on an empty one the fault is raised, some byte is
returned zero-extended and the FIFO stays empty. Nothing else changes. -/
def Obligations.ReadReceiveData : Prop :=
  ∀ (p : Port) (s : State),
    EncodesAsPort (.rdRxdata p) p 0x00130000 0xFFFBFFFF ∧
    (∀ b rest, (s.io p).rxFifo = b :: rest → ∃ t, exec (.rdRxdata p) s = .next t ∧
      t.io p = { s.io p with rxFifo := rest } ∧ (∀ q, q ≠ p → t.io q = s.io q) ∧ SameBytes s t ∧
      t = { s with ext := t.ext, ctrl2 := t.ctrl2, result := .value (b.setWidth 16) }) ∧
    ((s.io p).rxFifo = [] → ∃ t, ∃ b : Byte, exec (.rdRxdata p) s = .next t ∧ SameBytes s t ∧
      t = { s with
        flt := s.flt ||| 8, raised := s.raised ++ [.rxUnderflow p], result := .value (b.setWidth 16)
        draws := t.draws })

/-- The serial line's steps. `RX_ARRIVE(p, b)` (R146), in every state: with room the byte joins the end of the receive
FIFO; on a full one the fault is raised and the FIFO holds some content of 1 to `RXFIFO_DEPTH` bytes. `TX_SHIFT(p)`
(R147): the oldest queued byte goes onto the line; with none queued nothing happens (log 2). -/
def Obligations.SerialLineMovesBytes : Prop :=
  ∀ (p : Port) (s : State),
    (∀ b, nextMove s = .rxArrive p b →
      ((s.io p).rxFifo.length < s.cfg.rxDepth → ∃ t, step s = .next t ∧
        t.io p = { s.io p with rxFifo := (s.io p).rxFifo ++ [b] } ∧ (∀ q, q ≠ p → t.io q = s.io q) ∧
        SameBytes s t ∧ t = { afterChoice s with ext := t.ext, ctrl2 := t.ctrl2 }) ∧
      (1 ≤ s.cfg.rxDepth → s.cfg.rxDepth ≤ (s.io p).rxFifo.length → ∃ t, step s = .next t ∧
        t.io p = { s.io p with rxFifo := (t.io p).rxFifo } ∧ 1 ≤ (t.io p).rxFifo.length ∧
        (t.io p).rxFifo.length ≤ s.cfg.rxDepth ∧ (∀ q, q ≠ p → t.io q = s.io q) ∧ SameBytes s t ∧
        t = { afterChoice s with
          ext := t.ext, ctrl2 := t.ctrl2, flt := s.flt ||| 32, raised := s.raised ++ [.rxfifoOverrun p]
          draws := t.draws })) ∧
    (nextMove s = .txShift p →
      (∀ b rest, (s.io p).txFifo = b :: rest → ∃ t, step s = .next t ∧
        t.io p = { s.io p with txFifo := rest, txLine := (s.io p).txLine ++ [b] } ∧
        (∀ q, q ≠ p → t.io q = s.io q) ∧ SameBytes s t ∧
        t = { afterChoice s with ext := t.ext, ctrl2 := t.ctrl2 }) ∧
      ((s.io p).txFifo = [] → step s = .next (afterChoice s)))

/-- With no port selected every serial operation but `SerialInit` and `IsPresent`, and `RxDrain` too, issues nothing
and returns `SerialNotInit`, code 10 (R157). -/
def Obligations.SerialOperationsNeedAPort : Prop :=
  (∀ (b : Byte) (s : State) (i : Instr), s.port = none →
    i ∈ [.writeReady, .serWrite b, .readReady, .serRead, .resetFifos, .baudRate, .rxDrain] →
    exec i s = .next { s with result := .serialNotInit }) ∧
  Result.code .serialNotInit = some 10

/-- `IsPresent` (R149) answers true in every state; `WriteReady`, `ReadReady` and `BaudRate` (R150, R152, R155) answer
on the selected port, and are the transport's use (R156; the reading of "first use" is the model's, log 15). For legal
parameters `BaudRate()` decodes exactly three of the four codes to 4800, the code written at init among them (R7). -/
def Obligations.SerialQueriesAnswer : Prop :=
  (∀ s : State, exec .isPresent s = .next { s with result := .bool true }) ∧
  (∀ (s : State) (p : Port), s.port = some p → ∃ v, (s.serState ≠ .uninitialized → v = .active) ∧
    exec .writeReady s = .next { s with
      serState := v, result := .bool (decide ((s.io p).txFifo.length ≠ s.cfg.txDepth)) } ∧
    exec .readReady s = .next { s with serState := v, result := .bool (decide ((s.io p).rxFifo ≠ [])) } ∧
    ∃ r, exec .baudRate s = .next { s with serState := v, result := .rate r } ∧
      s.cfg.baudDecode.values[(s.io p).baud.toNat]? = some r) ∧
  ∀ c : Params, c.wf = true →
    ([0, 1, 2, 3].countP fun k => decide (baudOf c.baudDecode (BitVec.ofNat 2 k) = .b4800)) = 3 ∧
    baudOf c.baudDecode c.baudInitCode = .b4800

/-- `SerWrite(b)` and `SerRead()` (R151, R153) on the selected port: what the transaction does, with room or a byte
there and without, and that the transport is `Active` unless it is `Uninitialized` (R156, the model's reading, log 15).
Nothing else changes. -/
def Obligations.SerialTransfersMoveOneByte : Prop :=
  ∀ (s : State) (p : Port) (b : Byte), s.port = some p → ∃ v, (s.serState ≠ .uninitialized → v = .active) ∧
    ((s.io p).txFifo.length < s.cfg.txDepth → ∃ t, exec (.serWrite b) s = .next t ∧
      t.io p = { s.io p with txFifo := (s.io p).txFifo ++ [b] } ∧ (∀ q, q ≠ p → t.io q = s.io q) ∧ SameBytes s t ∧
      t = { s with ext := t.ext, ctrl2 := t.ctrl2, serState := v, result := .void }) ∧
    (1 ≤ s.cfg.txDepth → s.cfg.txDepth ≤ (s.io p).txFifo.length → ∃ t, exec (.serWrite b) s = .next t ∧
      t.io p = { s.io p with txFifo := (t.io p).txFifo } ∧ 1 ≤ (t.io p).txFifo.length ∧
      (t.io p).txFifo.length ≤ s.cfg.txDepth ∧ (∀ q, q ≠ p → t.io q = s.io q) ∧ SameBytes s t ∧
      t = { s with
        ext := t.ext, ctrl2 := t.ctrl2, serState := v, flt := s.flt ||| 16, raised := s.raised ++ [.txOverrun p]
        result := .void, draws := t.draws }) ∧
    (∀ x rest, (s.io p).rxFifo = x :: rest → ∃ t, exec .serRead s = .next t ∧
      t.io p = { s.io p with rxFifo := rest } ∧ (∀ q, q ≠ p → t.io q = s.io q) ∧ SameBytes s t ∧
      t = { s with ext := t.ext, ctrl2 := t.ctrl2, serState := v, result := .byte x }) ∧
    ((s.io p).rxFifo = [] → ∃ t x, exec .serRead s = .next t ∧ SameBytes s t ∧
      t = { s with
        serState := v, flt := s.flt ||| 8, raised := s.raised ++ [.rxUnderflow p], result := .byte x
        draws := t.draws })

/-- The drain loops end on a quiet line (R244, R253): the loop of `ResetFifos`, whatever the interrupt context does
meanwhile, and the loop of `RxDrain` in the interrupt context, where the line is quiet while the issuer takes one
iteration for each queued byte and one check more. The premise as this predicate is the model's reading, log 12, and so
is that `ResetFifos` keeps the port it was invoked on, log 30. -/
def Obligations.DrainLoopsEndOnAQuietLine : Prop :=
  ∀ (moves : Nat → Move) (r : Nat → State) (n : Nat) (p : Port), IsRun moves r →
    (∀ init, (r n).mainPos = .fifoCheck p init → QuietForDrain p 2 (mainSteps moves r) moves r n →
      ∃ k, n ≤ k ∧ (r k).mainPos = .ringClear init) ∧
    ((r n).inIrq = true → (r n).port = some p → (r n).intPos = some .atCheck →
      QuietForDrain p 3 (intSteps moves r) moves r n →
      ∃ k, n ≤ k ∧ (r k).inIrq = true ∧ (r k).intPos = none)

/-- `ResetFifos()` on the selected port, the main context moving alone (R154): after its two transactions a queued
byte and the one that clears the ring, the receive FIFO is empty and both cursors are 0; the transmit FIFO, the ring
array, `FLT` and every other field are as they were. Its first transaction changes nothing of the block but that the
transport is in use. The split into steps and the transport's state are the model's reading (logs 13, 15). -/
def Obligations.ResetFifosDrainsAndClears : Prop :=
  ∀ (s : State) (p : Port) (rest : List Move), s.port = some p → s.inIrq = false →
    s.script = List.replicate (2 * (s.io p).rxFifo.length + 1) .main ++ rest →
    ∃ t u, exec .resetFifos s = .next t ∧ t = { s with serState := t.serState, mainPos := t.mainPos } ∧
      (s.serState ≠ .uninitialized → t.serState = .active) ∧ Steps (2 * (s.io p).rxFifo.length + 1) t u ∧
      u.io p = { s.io p with rxFifo := [] } ∧ (∀ q, q ≠ p → u.io q = s.io q) ∧ SameBytes s u ∧
      u = { s with
        ext := u.ext, ctrl2 := u.ctrl2, readHead := 0, writeHead := 0, serState := t.serState
        mainPos := .idle, result := .void, script := rest }

/-- `SerialInit(p, rxInt)`, step 1 and 2 (R148): the port is selected and its control register written, in one step,
which is the model's reading (log 13). -/
def Obligations.SerialInitSelectsThePort : Prop :=
  ∀ (p : Port) (rxInt : Bool) (s : State), ∃ t, exec (.serialInit p rxInt) s = .next t ∧
    t.port = some p ∧ t.io p = { s.io p with ctrl := s.cfg.ctrlInit } ∧ (∀ q, q ≠ p → t.io q = s.io q) ∧
    SameBytes s t ∧ t = { s with ext := t.ext, ctrl2 := t.ctrl2, port := t.port, mainPos := .initSctrl p rxInt }

/-- `SerialInit(p, rxInt)`, the main context moving alone (R148): at its end the port is configured, its receive FIFO
drained, the ring empty, the transport `Configured`, and with `rxInt` the mask lowered and `MODE.IE` set with the
other bits of `MODE` kept; without it neither is touched. Everything else, `FLT`, the arbiter, coprocessor memory and
the ring array with it, is as it was. The number of steps is the model's, log 13. -/
def Obligations.SerialInitConfiguresThePort : Prop :=
  ∀ (s : State) (p : Port) (rxInt : Bool) (n : Nat) (rest : List Move), s.inIrq = false →
    n = 2 * (s.io p).rxFifo.length + (if rxInt then 6 else 3) →
    s.script = List.replicate n .main ++ rest →
    ∃ t u, exec (.serialInit p rxInt) s = .next t ∧ Steps n t u ∧ u.port = some p ∧ u.serState = .configured ∧
      u.io p = { s.io p with
        ctrl := s.cfg.ctrlInit, baud := s.cfg.baudInitCode, subfn := s.cfg.subfnInit, rint := rxInt, rxFifo := [] } ∧
      (∀ q, q ≠ p → u.io q = s.io q) ∧ u.readHead = 0 ∧ u.writeHead = 0 ∧
      u.imask = (if rxInt then s.cfg.imaskInit else s.imask) ∧
      u.modeReg = (if rxInt then s.modeReg ||| 0x08 else s.modeReg) ∧
      SameBytes s u ∧
      u = { s with
        ext := u.ext, ctrl2 := u.ctrl2, port := u.port, serState := u.serState, readHead := 0, writeHead := 0
        imask := u.imask, modeReg := u.modeReg, mainPos := .idle, result := .void, script := rest }

/-- The transport never becomes `Uninitialized` again (R42), and what leaves or may leave that state has a port
selected (R148, R156; when the transport's state is set is the model's reading, logs 13 and 15). -/
def Obligations.TransportStaysInitialized : Prop :=
  ∀ s t, PortSelected s → step s = .next t →
    PortSelected t ∧ (s.serState ≠ .uninitialized → t.serState ≠ .uninitialized)

/-! ### The ring buffer -/

/-- `WR.RBDATA #d` (R172): with room the low byte goes to the slot of `writeHead`, which advances; on a full buffer the
fault is raised, and the write is refused in strict mode and performed otherwise. `readHead` never moves. -/
def Obligations.RingWrite : Prop :=
  ∀ (d : Word) (s : State),
    EncodesAs (.wrRbdata d) 0x80300000 0xFFFF0000 ∧
    (∃ t, exec (.wrRbdata d) s = .next t ∧ RingWritten (d.setWidth 8) s t ∧ (∀ a, cpByte t a = cpByte s a) ∧
      t = { s with buf := t.buf, writeHead := t.writeHead, flt := t.flt, raised := t.raised, result := .void })

/-- `RD.RBDATA` (R173): the byte of the slot of `readHead`, which advances, whether or not the buffer was empty; the
fault is raised where it was. `writeHead` never moves. -/
def Obligations.RingRead : Prop :=
  EncodesAs .rdRbdata 0x00300000 0xFFFFFFFF ∧
  ∀ s : State, ∃ t, exec .rdRbdata s = .next t ∧
    t.result = .value ((ringByte s s.readHead.toNat).setWidth 16) ∧
    t.readHead = nextCursor s.cfg.bufLen s.readHead ∧
    t.flt = (if s.writeHead = s.readHead then s.flt ||| 128 else s.flt) ∧
    t.raised = (if s.writeHead = s.readHead then s.raised ++ [.rbUnderflow] else s.raised) ∧ SameBytes s t ∧
    t = { s with readHead := t.readHead, flt := t.flt, raised := t.raised, result := t.result }

/-- `RD.RBSTAT`, `RD.RBRD`, `RD.RBWR` (R174, R182, R183): the value, and no other change. `WR.RBCTL #d` (R176): with
`CLR` both cursors become 0; the array and `FLT` stay; without it nothing happens. -/
def Obligations.RingStatusAndClear : Prop :=
  EncodesAs .rdRbstat 0x00310000 0xFFFFFFFF ∧ EncodesAs .rdRbrd 0x00330000 0xFFFFFFFF ∧
  EncodesAs .rdRbwr 0x00340000 0xFFFFFFFF ∧
  (∀ s : State,
    exec .rdRbstat s = .next { s with result := .value (if s.writeHead ≠ s.readHead then 1 else 0) } ∧
    exec .rdRbrd s = .next { s with result := .value s.readHead } ∧
    exec .rdRbwr s = .next { s with result := .value s.writeHead }) ∧
  ∀ (d : Word) (s : State),
    EncodesAs (.wrRbctl d) 0x80350000 0xFFFF0000 ∧
    (d.getLsbD 0 = true → exec (.wrRbctl d) s = .next { s with readHead := 0, writeHead := 0, result := .void }) ∧
    (d.getLsbD 0 = false → exec (.wrRbctl d) s = .next { s with result := .void })

/-- `RD.RBAVAIL` (R175): the literal formula, for every `AVAIL_CAP` in 16 bits (modulo 65536 where it would leave them,
which is the model's choice, log 26); for legal cursors and
`AVAIL_CAP = N - 1` it is the free space where the cursors have not wrapped and the free space plus one where they
have, and never above `N - 1`. -/
def Obligations.AvailableIsTheLiteralFormula : Prop :=
  EncodesAs .rdRbavail 0x00320000 0xFFFFFFFF ∧
  ∀ s : State, ∃ v : Word, exec .rdRbavail s = .next { s with result := .value v } ∧
    (s.readHead.toNat ≤ s.writeHead.toNat →
      (v.toNat + (s.writeHead.toNat - s.readHead.toNat)) % 65536 = s.cfg.availCap % 65536) ∧
    (s.writeHead.toNat < s.readHead.toNat → v.toNat = s.readHead.toNat - s.writeHead.toNat) ∧
    (s.readHead.toNat < s.cfg.bufLen → s.writeHead.toNat < s.cfg.bufLen → s.cfg.bufLen ≤ 65536 →
      s.cfg.availCap = s.cfg.bufLen - 1 →
      (s.readHead.toNat ≤ s.writeHead.toNat →
        v.toNat = s.cfg.availCap - (s.writeHead.toNat - s.readHead.toNat) ∧
        v.toNat = s.cfg.bufLen - 1 - ringUsed s) ∧
      (s.writeHead.toNat < s.readHead.toNat →
        v.toNat = s.cfg.bufLen - 1 - ringUsed s + 1) ∧
      v.toNat ≤ s.cfg.bufLen - 1)

/-- Where both contexts keep to the rights table, the ring buffer has one writer and one reader (R170, R213, R250):
`writeHead` moves at a step of the interrupt context, or at the `WR.RBCTL` of `ResetFifos`; `readHead` moves at a step of
the main context; `IMASK` and `MODE` are written inside `SerialInit`; and no `BUS_NOT_OWNED` is raised. The table's
predicate, with the points it settles, is the model's, log 19. -/
def Obligations.RightsKeepTheDiscipline : Prop :=
  ∀ s t, step s = .next t → (MainTurn s → mainWithinRights s = true) → intWithinRights s = true →
    (t.writeHead ≠ s.writeHead →
      (nextMove s = .int ∧ s.inIrq = true) ∨ (MainTurn s ∧ ∃ init, s.mainPos = .ringClear init)) ∧
    (t.readHead ≠ s.readHead → MainTurn s) ∧
    (t.imask ≠ s.imask ∨ t.modeReg ≠ s.modeReg → MainTurn s ∧ insideInit s.mainPos = true) ∧
    t.flt.getLsbD 0 = s.flt.getLsbD 0

/-- `RbWrite`, `RbRead`, `RbCanRead`, `RbAvailable` (R177, R178, R179, R181): each does what its one transaction does,
and returns that transaction's value at its own type. -/
def Obligations.RingOperationsAreTheirTransactions : Prop :=
  ∀ (s : State) (b : Byte),
    (∃ t, exec (.wrRbdata (b.setWidth 16)) s = .next t ∧ exec (.rbWrite b) s = .next t) ∧
    (∃ t, exec .rdRbdata s = .next t ∧
      exec .rbRead s = .next { t with result := .byte (ringByte s s.readHead.toNat) }) ∧
    exec .rbCanRead s = .next { s with result := .bool (decide (s.writeHead ≠ s.readHead)) } ∧
    ∃ t, exec .rdRbavail s = .next t ∧ exec .rbAvailable s = .next t

/-- The ring buffer is a queue (R171, R184): for legal parameters and cursors a write with room appends its byte to
the queued ones, and a read of a buffer that is not empty takes the oldest; neither raises a fault. -/
def Obligations.RingRefinesAQueue : Prop :=
  ∀ s : State, Legal s →
    (∀ d, ringFull s = false → ∃ t, exec (.wrRbdata d) s = .next t ∧
      ringContents t = ringContents s ++ [d.setWidth 8] ∧ t.flt = s.flt) ∧
    (ringEmpty s = true ↔ ringContents s = []) ∧
    ∀ b rest, ringContents s = b :: rest → ∃ t, exec .rdRbdata s = .next t ∧
      t.result = .value (b.setWidth 16) ∧ ringContents t = rest ∧ t.flt = s.flt

/-- FIFO order within capacity (R184): from every empty legal state, at most `N - 1` writes and then as many reads give
the bytes back in the order written, raise no fault and leave the buffer empty. -/
def Obligations.RingKeepsFifoOrder : Prop :=
  ∀ (s : State) (bytes : List Byte), Legal s → ringEmpty s = true → bytes.length ≤ s.cfg.bufLen - 1 →
    ∃ t u rs, execAll (bytes.map fun b => .wrRbdata (b.setWidth 16)) s = some (t, rs) ∧
      execAll (List.replicate bytes.length .rdRbdata) t = some (u, bytes.map fun b => .value (b.setWidth 16)) ∧
      u.flt = s.flt ∧ ringEmpty u = true

/-- Empty and full are told apart (R171, R186): for legal parameters and cursors they never hold together, full is
`used = N - 1`, empty is `used = 0`, and no more than `N - 1` bytes are ever queued. -/
def Obligations.EmptyAndFullAreToldApart : Prop :=
  ∀ s : State, Legal s →
    (ringEmpty s && ringFull s) = false ∧ (ringFull s = true ↔ ringUsed s = s.cfg.bufLen - 1) ∧
    (ringEmpty s = true ↔ ringUsed s = 0) ∧ ringUsed s ≤ s.cfg.bufLen - 1

/-- The drain routine in the interrupt context (R180), transaction by transaction: the check goes on to the read exactly
where a byte is there; the read takes the head of the FIFO (on an empty one, which the check excludes, it is flagged and
the byte is free); the write is the ring's, on a full buffer too, where it raises `RB_OVERFLOW`; and the check is next.
And the whole, `INT` moving alone: a routine at its start empties the receive FIFO into the ring, in order, in three
transactions a byte and one more, if the ring has room; and is then at its exit, with no fault raised. The position
that stands for the exit is the model's, log 24. -/
def Obligations.DrainRoutineMovesTheFifoIntoTheRing : Prop :=
  (∀ (s : State) (p : Port), nextMove s = .int → s.inIrq = true → s.port = some p →
    (s.intPos = some .atCheck →
      step s = .next { afterChoice s with intPos := if (s.io p).rxFifo = [] then none else some .atRead }) ∧
    (∀ b rest, s.intPos = some .atRead → (s.io p).rxFifo = b :: rest → ∃ t, step s = .next t ∧
      t.io p = { s.io p with rxFifo := rest } ∧ (∀ q, q ≠ p → t.io q = s.io q) ∧ SameBytes s t ∧
      t = { afterChoice s with ext := t.ext, ctrl2 := t.ctrl2, intPos := some (.atWrite b) }) ∧
    (s.intPos = some .atRead → (s.io p).rxFifo = [] → ∃ t b, step s = .next t ∧ SameBytes s t ∧
      t = { afterChoice s with
        flt := s.flt ||| 8, raised := s.raised ++ [.rxUnderflow p], intPos := some (.atWrite b), draws := t.draws }) ∧
    (∀ b, s.intPos = some (.atWrite b) → ∃ t, step s = .next t ∧ RingWritten b s t ∧
      (∀ a, cpByte t a = cpByte s a) ∧
      t = { afterChoice s with
        buf := t.buf, writeHead := t.writeHead, flt := t.flt, raised := t.raised, intPos := some .atCheck })) ∧
  ∀ (s : State) (p : Port) (rest : List Move), Legal s → s.inIrq = true → s.intPos = some .atCheck →
    s.port = some p → ringUsed s + (s.io p).rxFifo.length ≤ s.cfg.bufLen - 1 →
    s.script = List.replicate (3 * (s.io p).rxFifo.length + 1) .int ++ rest →
    ∃ u, Steps (3 * (s.io p).rxFifo.length + 1) s u ∧ u.intPos = none ∧ u.inIrq = true ∧
      (u.io p).rxFifo = [] ∧ ringContents u = ringContents s ++ (s.io p).rxFifo ∧ u.flt = s.flt ∧
      u.readHead = s.readHead ∧ u.script = rest

/-- `RxDrain()` issued as an instruction on a selected port (R180): with nothing received it returns at once; else its
read of `RXDATA` comes next. Either way it is a use of the transport (R156), and nothing else changes. Then, one
transaction a step of `MAIN`: the read takes the head of the FIFO, or is flagged where it finds none (another context
may have taken it); the write is the ring's, with `RB_OVERFLOW` on a full buffer; the check returns or goes on. The
split into steps and the use are the model's reading (logs 13, 15), and that the loop keeps the port it was invoked on
is the model's choice (log 30). -/
def Obligations.RxDrainRunsItsLoop : Prop :=
  (∀ (s : State) (p : Port), s.port = some p → ∃ v, (s.serState ≠ .uninitialized → v = .active) ∧
    ((s.io p).rxFifo = [] →
      exec .rxDrain s = .next { s with serState := v, mainPos := .idle, result := .void }) ∧
    ((s.io p).rxFifo ≠ [] → exec .rxDrain s = .next { s with serState := v, mainPos := .drain p .atRead })) ∧
  ∀ (s : State) (p : Port), MainTurn s →
    (∀ b rest, s.mainPos = .drain p .atRead → (s.io p).rxFifo = b :: rest → ∃ t, step s = .next t ∧
      t.io p = { s.io p with rxFifo := rest } ∧ (∀ q, q ≠ p → t.io q = s.io q) ∧ SameBytes s t ∧
      t = { afterChoice s with ext := t.ext, ctrl2 := t.ctrl2, mainPos := .drain p (.atWrite b) }) ∧
    (s.mainPos = .drain p .atRead → (s.io p).rxFifo = [] → ∃ t b, step s = .next t ∧ SameBytes s t ∧
      t = { afterChoice s with
        flt := s.flt ||| 8, raised := s.raised ++ [.rxUnderflow p], mainPos := .drain p (.atWrite b)
        draws := t.draws }) ∧
    (∀ b, s.mainPos = .drain p (.atWrite b) → ∃ t, step s = .next t ∧ RingWritten b s t ∧
      (∀ a, cpByte t a = cpByte s a) ∧
      t = { afterChoice s with
        buf := t.buf, writeHead := t.writeHead, flt := t.flt, raised := t.raised, mainPos := .drain p .atCheck }) ∧
    (s.mainPos = .drain p .atCheck → (s.io p).rxFifo = [] →
      step s = .next { afterChoice s with mainPos := .idle, result := .void }) ∧
    (s.mainPos = .drain p .atCheck → (s.io p).rxFifo ≠ [] →
      step s = .next { afterChoice s with mainPos := .drain p .atRead })

/-! ### Faults, the interrupt gate, contexts -/

/-- `RD.FLT`, `WR.MODE`, `RD.MODE`, `WR.IMASK`, `RD.IMASK` (R208 to R212): the register's own bits, and no other
change. -/
def Obligations.PlatformRegisters : Prop :=
  EncodesAs .rdFlt 0x00020000 0xFFFFFFFF ∧ EncodesAs .rdMode 0x00200000 0xFFFFFFFF ∧
  EncodesAs .rdImask 0x00210000 0xFFFFFFFF ∧
  ∀ (d : Word) (s : State),
    EncodesAs (.wrMode d) 0x80200000 0xFFFF0000 ∧ EncodesAs (.wrImask d) 0x80210000 0xFFFF0000 ∧
    exec .rdFlt s = .next { s with result := .value (s.flt.setWidth 16) } ∧
    exec (.wrMode d) s = .next { s with modeReg := d.setWidth 8, result := .void } ∧
    exec .rdMode s = .next { s with result := .value (s.modeReg.setWidth 16) } ∧
    exec (.wrImask d) s = .next { s with imask := d.setWidth 3, result := .void } ∧
    exec .rdImask s = .next { s with result := .value (s.imask.setWidth 16) }

/-- No step of any agent clears a bit of `FLT` (R26, R191). -/
def Obligations.FaultFlagsAreSticky : Prop :=
  ∀ s t, step s = .next t → ∀ k, s.flt.getLsbD k = true → t.flt.getLsbD k = true

/-- Nothing stops the block (R190): every step of every agent answers a next state, whatever state it is taken from, and
raises at most one fault (R191, R206). -/
def Obligations.EveryStepGoesOnWithAtMostOneFault : Prop :=
  ∀ s, ∃ t, step s = .next t ∧ (t.raised = s.raised ∨ ∃ f, t.raised = s.raised ++ [f])

/-- The interrupt condition (R200), conjunct by conjunct. -/
def Obligations.InterruptCondition : Prop :=
  ∀ s : State, irq s = true ↔
    (∃ p, (s.io p).rxFifo ≠ [] ∧ (s.io p).rint = true) ∧ s.modeReg.getLsbD 3 = true ∧
      s.imask.toNat < s.cfg.rxIrqLevel

/-- `INT_ENTER` (R201): where the condition holds outside the interrupt context, it becomes active at the start of the
drain routine; of the block nothing else changes, and on a selected port the routine's invocation makes the transport
`Active`, as program P3 shows (log 15). `INT_EXIT` (R203): at the routine's exit the main context resumes, and nothing
is restored. For the handler of R201, which issues nothing after `RxDrain`, that is at once; what another issues first
is the model's (log 24). -/
def Obligations.InterruptEntryAndExit : Prop :=
  (∀ s : State, nextMove s = .int → s.inIrq = false → irq s = true → ∃ t, step s = .next t ∧
    t.inIrq = true ∧ t.intPos = some .atCheck ∧ t.intIdx = 0 ∧ t.intOp = .idle ∧
    t = { afterChoice s with
      inIrq := t.inIrq, intPos := t.intPos, intIdx := t.intIdx, intOp := t.intOp, serState := t.serState } ∧
    (s.port = none → t.serState = s.serState) ∧
    (s.port ≠ none → s.serState ≠ .uninitialized → t.serState = .active)) ∧
  (∀ s : State, nextMove s = .int → s.inIrq = true → drainOver s = true → handlerDone s = true →
    step s = .next { afterChoice s with inIrq := false, intPos := none }) ∧
  ∀ s : State, s.handler = [] → s.intOp = .idle → handlerDone s = true

/-- The interrupt context is entered and left by a step of `INT` alone, is entered only where the condition holds and it
is not active, and left only at the end of its routine, and it keeps what the main context was doing (R201, R203, R204,
R213). That it is left only where what its handler issues after `RxDrain` is exhausted too, and the fields that hold the
end of the routine, are the model's choice, log 24; R203 asks only that `RxDrain` is at its exit. -/
def Obligations.ContextChangesOnlyByEntryAndExit : Prop :=
  ∀ s t, step s = .next t → s.inIrq ≠ t.inIrq →
    nextMove s = .int ∧ (t.inIrq = true → irq s = true) ∧
    (t.inIrq = false → drainOver s = true ∧ handlerDone s = true) ∧
    t.mainPos = s.mainPos ∧ t.idx = s.idx ∧ t.prog = s.prog ∧ t.result = s.result ∧
    t.imask = s.imask ∧ t.modeReg = s.modeReg

/-- With no port selected the routine issues nothing, goes straight to `INT_EXIT`, and the condition still holds: the
main context may be starved for ever (R202; that these are two steps, and the fields that hold the routine's position,
are the model's reading, log 24). -/
def Obligations.NoSelectedPortStarvesMain : Prop :=
  ∀ s rest, s.port = none → s.inIrq = false → s.intPos = none → s.handler = [] → irq s = true →
    s.script = .int :: .int :: rest →
    Steps 2 s { s with script := rest, intIdx := 0, intOp := .idle } ∧
    irq { s with script := rest, intIdx := 0, intOp := .idle } = true

/-! ### Reset and invariants -/

/-- The values R44 states for block reset. -/
def Obligations.ResetValues : Prop :=
  State.reset.req = false ∧ State.reset.taken = false ∧ State.reset.cpReady = false ∧
  State.reset.cpState = State.reset.cfg.cpResetState ∧
  (∀ p, (State.reset.io p).ctrl = 0 ∧ (State.reset.io p).baud = 0 ∧ (State.reset.io p).subfn = 0 ∧
    (State.reset.io p).rint = false ∧ (State.reset.io p).txFifo = [] ∧ (State.reset.io p).txLine = [] ∧
    (State.reset.io p).rxFifo.length ≤ State.reset.cfg.rxDepth) ∧
  State.reset.modeReg.getLsbD 3 = false ∧ State.reset.imask = 7 ∧ State.reset.inIrq = false ∧
  State.reset.readHead = 0 ∧ State.reset.writeHead = 0 ∧ State.reset.flt = 0 ∧
  State.reset.port = none ∧ State.reset.serState = .uninitialized

/-- The invariants hold at reset: the state is legal, the flags record the faults raised, no port is needed, and the
interrupt context keeps to its rights. -/
def Obligations.ResetIsLegal : Prop :=
  Legal State.reset ∧ FltRecords State.reset ∧ PortSelected State.reset ∧ intWithinRights State.reset = true

/-- Every step of every agent keeps the state legal (parameters, cursors, FIFO lengths, the canonical form and range of
both byte stores, the interrupt position), keeps each bit of `FLT` set exactly when its fault has been raised, keeps an
interrupt context that keeps to its rights so, and changes no parameter (R6, R7, R20, R26, R40, R191, R213). -/
def Obligations.StepKeepsTheStateLegal : Prop :=
  ∀ s t, step s = .next t →
    t.cfg = s.cfg ∧ (Legal s → Legal t) ∧ (FltRecords s → FltRecords t) ∧
      (intWithinRights s = true → intWithinRights t = true)
end

