-- ==== Sys2Proof/Laws/Memory.lean ====
section
/-! SUPPORT. The laws of bytes by index: read after write, the canonical form, and that equal memories are equal data. -/

namespace Sys2Proof.Machine

theorem Memory.find_put_same (m : Memory) (a : Nat) (v : Byte) : Memory.find (Memory.put m a v) a = some v := by
  induction m with
  | nil => simp [Memory.put, Memory.find]
  | cons c m ih =>
    unfold Memory.put
    split
    · simp [Memory.find]
    · split
      · simp [Memory.find]
      · next h => simp [Memory.find, h, ih]

theorem Memory.find_put_other (m : Memory) {a b : Nat} (v : Byte) (h : b ≠ a) :
    Memory.find (Memory.put m a v) b = Memory.find m b := by
  induction m with
  | nil => simp [Memory.put, Memory.find, h]
  | cons c m ih =>
    unfold Memory.put
    split
    · simp [Memory.find, h]
    · split
      · next h' => subst h'; simp [Memory.find, h]
      · simp [Memory.find, ih]

/-- The canonical form says: the first index lies below every later one, and the rest has the form. -/
theorem Memory.wf_cons (c : Host.Cell) (m : Memory) :
    Memory.wf (c :: m) = true ↔ (∀ d ∈ m, c.1 < d.1) ∧ Memory.wf m = true := by
  induction m generalizing c with
  | nil => simp [Memory.wf]
  | cons d m ih =>
    simp only [Memory.wf, Bool.and_eq_true, decide_eq_true_eq, List.mem_cons, forall_eq_or_imp]
    constructor
    · rintro ⟨hcd, hwf⟩
      exact ⟨⟨hcd, fun e he => hcd.trans (((ih d).1 hwf).1 e he)⟩, hwf⟩
    · rintro ⟨⟨hcd, -⟩, hwf⟩
      exact ⟨hcd, hwf⟩

theorem Memory.mem_put {m : Memory} {a : Nat} {v : Byte} {d : Host.Cell} (h : d ∈ Memory.put m a v) :
    d = (a, v) ∨ d ∈ m := by
  induction m with
  | nil => simpa [Memory.put] using h
  | cons c m ih =>
    unfold Memory.put at h
    split at h
    · simpa using h
    · split at h
      · rcases List.mem_cons.1 h with h | h
        · exact .inl h
        · exact .inr (List.mem_cons_of_mem _ h)
      · rcases List.mem_cons.1 h with h | h
        · exact .inr (by simp [h])
        · exact (ih h).imp_right (List.mem_cons_of_mem _)

theorem Memory.put_wf {m : Memory} (a : Nat) (v : Byte) (h : Memory.wf m = true) :
    Memory.wf (Memory.put m a v) = true := by
  induction m with
  | nil => rfl
  | cons c m ih =>
    obtain ⟨hlt, hm⟩ := (Memory.wf_cons c m).1 h
    unfold Memory.put
    split
    · next hac =>
      refine (Memory.wf_cons _ _).2 ⟨fun d hd => ?_, h⟩
      rcases List.mem_cons.1 hd with rfl | hd
      · exact hac
      · exact hac.trans (hlt d hd)
    · split
      · next hac => exact (Memory.wf_cons _ _).2 ⟨fun d hd => by simpa [hac] using hlt d hd, hm⟩
      · next h1 h2 =>
        refine (Memory.wf_cons _ _).2 ⟨fun d hd => ?_, ih hm⟩
        rcases Memory.mem_put hd with rfl | hd
        · exact lt_of_le_of_ne (not_lt.1 h1) (Ne.symm h2)
        · exact hlt d hd

theorem Memory.put_below {m : Memory} {a n : Nat} (v : Byte) (h : Memory.below m n = true) (ha : a < n) :
    Memory.below (Memory.put m a v) n = true := by
  simp only [Memory.below, List.all_eq_true, decide_eq_true_eq] at h ⊢
  intro d hd
  rcases Memory.mem_put hd with rfl | hd
  · exact ha
  · exact h d hd

/-- Memories in canonical form that read the same everywhere are the same data. -/
theorem Memory.ext_find {m m' : Memory} (h : Memory.wf m = true) (h' : Memory.wf m' = true)
    (heq : ∀ a, Memory.find m a = Memory.find m' a) : m = m' := by
  have none_below : ∀ (n : Memory) (a : Nat), (∀ d ∈ n, a < d.1) → Memory.find n a = none := by
    intro n a hn
    induction n with
    | nil => rfl
    | cons d n ih =>
      have : a ≠ d.1 := (hn d (by simp)).ne
      simp [Memory.find, this, ih fun e he => hn e (by simp [he])]
  induction m generalizing m' with
  | nil =>
    cases m' with
    | nil => rfl
    | cons d m' => simpa [Memory.find] using heq d.1
  | cons c m ih =>
    cases m' with
    | nil => simpa [Memory.find] using heq c.1
    | cons d m' =>
      obtain ⟨hc, hm⟩ := (Memory.wf_cons c m).1 h
      obtain ⟨hd, hm'⟩ := (Memory.wf_cons d m').1 h'
      have hcd : c.1 = d.1 := by
        rcases lt_trichotomy c.1 d.1 with hlt | he | hlt
        · have := none_below (d :: m') c.1 (by
            rintro e he
            rcases List.mem_cons.1 he with rfl | he
            · exact hlt
            · exact hlt.trans (hd e he))
          rw [← heq c.1] at this
          simp [Memory.find] at this
        · exact he
        · have := none_below (c :: m) d.1 (by
            rintro e he
            rcases List.mem_cons.1 he with rfl | he
            · exact hlt
            · exact hlt.trans (hc e he))
          rw [heq d.1] at this
          simp [Memory.find] at this
      obtain ⟨i, v⟩ := c
      obtain ⟨j, w⟩ := d
      obtain rfl : i = j := hcd
      have hv : v = w := by simpa [Memory.find] using heq i
      subst hv
      congr 1
      refine ih hm hm' fun a => ?_
      by_cases ha : a = i
      · subst ha
        rw [none_below m a hc, none_below m' a hd]
      · simpa [Memory.find, ha] using heq a

theorem cpStores_wf (size : Nat) (stores : List Host.Cell) {m : Memory} (h : Memory.wf m = true) :
    Memory.wf (cpStores size m stores) = true := by
  induction stores generalizing m with
  | nil => exact h
  | cons c cs ih =>
    refine ih ?_
    split
    · exact Memory.put_wf _ _ h
    · exact h

theorem cpStores_below (size : Nat) (stores : List Host.Cell) {m : Memory} (h : Memory.below m size = true) :
    Memory.below (cpStores size m stores) size = true := by
  induction stores generalizing m with
  | nil => exact h
  | cons c cs ih =>
    refine ih ?_
    split
    · next hc => exact Memory.put_below _ h hc
    · exact h

end Sys2Proof.Machine
end

