-- ==== Sys2Proof/Laws/State.lean ====
section
/-! SUPPORT. What each update of the state leaves of each field, one lemma a field, so that no proof unfolds an update. -/

namespace Sys2Proof.Machine

@[simp] theorem State.returns_req (s : State) (r : Result) : (s.returns r).req = s.req := rfl
@[simp] theorem State.returns_taken (s : State) (r : Result) : (s.returns r).taken = s.taken := rfl
@[simp] theorem State.returns_cpReady (s : State) (r : Result) : (s.returns r).cpReady = s.cpReady := rfl
@[simp] theorem State.returns_cpState (s : State) (r : Result) : (s.returns r).cpState = s.cpState := rfl
@[simp] theorem State.returns_cpmem (s : State) (r : Result) : (s.returns r).cpmem = s.cpmem := rfl
@[simp] theorem State.returns_ext (s : State) (r : Result) : (s.returns r).ext = s.ext := rfl
@[simp] theorem State.returns_ctrl2 (s : State) (r : Result) : (s.returns r).ctrl2 = s.ctrl2 := rfl
@[simp] theorem State.returns_modeReg (s : State) (r : Result) : (s.returns r).modeReg = s.modeReg := rfl
@[simp] theorem State.returns_imask (s : State) (r : Result) : (s.returns r).imask = s.imask := rfl
@[simp] theorem State.returns_inIrq (s : State) (r : Result) : (s.returns r).inIrq = s.inIrq := rfl
@[simp] theorem State.returns_buf (s : State) (r : Result) : (s.returns r).buf = s.buf := rfl
@[simp] theorem State.returns_readHead (s : State) (r : Result) : (s.returns r).readHead = s.readHead := rfl
@[simp] theorem State.returns_writeHead (s : State) (r : Result) : (s.returns r).writeHead = s.writeHead := rfl
@[simp] theorem State.returns_flt (s : State) (r : Result) : (s.returns r).flt = s.flt := rfl
@[simp] theorem State.returns_port (s : State) (r : Result) : (s.returns r).port = s.port := rfl
@[simp] theorem State.returns_serState (s : State) (r : Result) : (s.returns r).serState = s.serState := rfl
@[simp] theorem State.returns_intPos (s : State) (r : Result) : (s.returns r).intPos = s.intPos := rfl
@[simp] theorem State.returns_cfg (s : State) (r : Result) : (s.returns r).cfg = s.cfg := rfl
@[simp] theorem State.returns_prog (s : State) (r : Result) : (s.returns r).prog = s.prog := rfl
@[simp] theorem State.returns_idx (s : State) (r : Result) : (s.returns r).idx = s.idx := rfl
@[simp] theorem State.returns_mainPos (s : State) (r : Result) : (s.returns r).mainPos = s.mainPos := rfl
@[simp] theorem State.returns_result (s : State) (r : Result) : (s.returns r).result = r := rfl
@[simp] theorem State.returns_handler (s : State) (r : Result) : (s.returns r).handler = s.handler := rfl
@[simp] theorem State.returns_intIdx (s : State) (r : Result) : (s.returns r).intIdx = s.intIdx := rfl
@[simp] theorem State.returns_intOp (s : State) (r : Result) : (s.returns r).intOp = s.intOp := rfl
@[simp] theorem State.returns_intResult (s : State) (r : Result) : (s.returns r).intResult = s.intResult := rfl
@[simp] theorem State.returns_script (s : State) (r : Result) : (s.returns r).script = s.script := rfl
@[simp] theorem State.returns_draws (s : State) (r : Result) : (s.returns r).draws = s.draws := rfl
@[simp] theorem State.returns_raised (s : State) (r : Result) : (s.returns r).raised = s.raised := rfl
@[simp] theorem State.returns_io (s : State) (r : Result) (p : Port) : (s.returns r).io p = s.io p := by cases p <;> rfl

@[simp] theorem State.finish_req (s : State) (r : Result) : (s.finish r).req = s.req := rfl
@[simp] theorem State.finish_taken (s : State) (r : Result) : (s.finish r).taken = s.taken := rfl
@[simp] theorem State.finish_cpReady (s : State) (r : Result) : (s.finish r).cpReady = s.cpReady := rfl
@[simp] theorem State.finish_cpState (s : State) (r : Result) : (s.finish r).cpState = s.cpState := rfl
@[simp] theorem State.finish_cpmem (s : State) (r : Result) : (s.finish r).cpmem = s.cpmem := rfl
@[simp] theorem State.finish_ext (s : State) (r : Result) : (s.finish r).ext = s.ext := rfl
@[simp] theorem State.finish_ctrl2 (s : State) (r : Result) : (s.finish r).ctrl2 = s.ctrl2 := rfl
@[simp] theorem State.finish_modeReg (s : State) (r : Result) : (s.finish r).modeReg = s.modeReg := rfl
@[simp] theorem State.finish_imask (s : State) (r : Result) : (s.finish r).imask = s.imask := rfl
@[simp] theorem State.finish_inIrq (s : State) (r : Result) : (s.finish r).inIrq = s.inIrq := rfl
@[simp] theorem State.finish_buf (s : State) (r : Result) : (s.finish r).buf = s.buf := rfl
@[simp] theorem State.finish_readHead (s : State) (r : Result) : (s.finish r).readHead = s.readHead := rfl
@[simp] theorem State.finish_writeHead (s : State) (r : Result) : (s.finish r).writeHead = s.writeHead := rfl
@[simp] theorem State.finish_flt (s : State) (r : Result) : (s.finish r).flt = s.flt := rfl
@[simp] theorem State.finish_port (s : State) (r : Result) : (s.finish r).port = s.port := rfl
@[simp] theorem State.finish_serState (s : State) (r : Result) : (s.finish r).serState = s.serState := rfl
@[simp] theorem State.finish_intPos (s : State) (r : Result) : (s.finish r).intPos = s.intPos := rfl
@[simp] theorem State.finish_cfg (s : State) (r : Result) : (s.finish r).cfg = s.cfg := rfl
@[simp] theorem State.finish_prog (s : State) (r : Result) : (s.finish r).prog = s.prog := rfl
@[simp] theorem State.finish_idx (s : State) (r : Result) : (s.finish r).idx = s.idx := rfl
@[simp] theorem State.finish_mainPos (s : State) (r : Result) : (s.finish r).mainPos = .idle := rfl
@[simp] theorem State.finish_result (s : State) (r : Result) : (s.finish r).result = r := rfl
@[simp] theorem State.finish_handler (s : State) (r : Result) : (s.finish r).handler = s.handler := rfl
@[simp] theorem State.finish_intIdx (s : State) (r : Result) : (s.finish r).intIdx = s.intIdx := rfl
@[simp] theorem State.finish_intOp (s : State) (r : Result) : (s.finish r).intOp = s.intOp := rfl
@[simp] theorem State.finish_intResult (s : State) (r : Result) : (s.finish r).intResult = s.intResult := rfl
@[simp] theorem State.finish_script (s : State) (r : Result) : (s.finish r).script = s.script := rfl
@[simp] theorem State.finish_draws (s : State) (r : Result) : (s.finish r).draws = s.draws := rfl
@[simp] theorem State.finish_raised (s : State) (r : Result) : (s.finish r).raised = s.raised := rfl
@[simp] theorem State.finish_io (s : State) (r : Result) (p : Port) : (s.finish r).io p = s.io p := by cases p <;> rfl

@[simp] theorem State.raise_req (s : State) (f : Raised) : (s.raise f).req = s.req := rfl
@[simp] theorem State.raise_taken (s : State) (f : Raised) : (s.raise f).taken = s.taken := rfl
@[simp] theorem State.raise_cpReady (s : State) (f : Raised) : (s.raise f).cpReady = s.cpReady := rfl
@[simp] theorem State.raise_cpState (s : State) (f : Raised) : (s.raise f).cpState = s.cpState := rfl
@[simp] theorem State.raise_cpmem (s : State) (f : Raised) : (s.raise f).cpmem = s.cpmem := rfl
@[simp] theorem State.raise_ext (s : State) (f : Raised) : (s.raise f).ext = s.ext := rfl
@[simp] theorem State.raise_ctrl2 (s : State) (f : Raised) : (s.raise f).ctrl2 = s.ctrl2 := rfl
@[simp] theorem State.raise_modeReg (s : State) (f : Raised) : (s.raise f).modeReg = s.modeReg := rfl
@[simp] theorem State.raise_imask (s : State) (f : Raised) : (s.raise f).imask = s.imask := rfl
@[simp] theorem State.raise_inIrq (s : State) (f : Raised) : (s.raise f).inIrq = s.inIrq := rfl
@[simp] theorem State.raise_buf (s : State) (f : Raised) : (s.raise f).buf = s.buf := rfl
@[simp] theorem State.raise_readHead (s : State) (f : Raised) : (s.raise f).readHead = s.readHead := rfl
@[simp] theorem State.raise_writeHead (s : State) (f : Raised) : (s.raise f).writeHead = s.writeHead := rfl
@[simp] theorem State.raise_flt (s : State) (f : Raised) : (s.raise f).flt = s.flt ||| (1#8 <<< f.bit) := rfl
@[simp] theorem State.raise_port (s : State) (f : Raised) : (s.raise f).port = s.port := rfl
@[simp] theorem State.raise_serState (s : State) (f : Raised) : (s.raise f).serState = s.serState := rfl
@[simp] theorem State.raise_intPos (s : State) (f : Raised) : (s.raise f).intPos = s.intPos := rfl
@[simp] theorem State.raise_cfg (s : State) (f : Raised) : (s.raise f).cfg = s.cfg := rfl
@[simp] theorem State.raise_prog (s : State) (f : Raised) : (s.raise f).prog = s.prog := rfl
@[simp] theorem State.raise_idx (s : State) (f : Raised) : (s.raise f).idx = s.idx := rfl
@[simp] theorem State.raise_mainPos (s : State) (f : Raised) : (s.raise f).mainPos = s.mainPos := rfl
@[simp] theorem State.raise_result (s : State) (f : Raised) : (s.raise f).result = s.result := rfl
@[simp] theorem State.raise_handler (s : State) (f : Raised) : (s.raise f).handler = s.handler := rfl
@[simp] theorem State.raise_intIdx (s : State) (f : Raised) : (s.raise f).intIdx = s.intIdx := rfl
@[simp] theorem State.raise_intOp (s : State) (f : Raised) : (s.raise f).intOp = s.intOp := rfl
@[simp] theorem State.raise_intResult (s : State) (f : Raised) : (s.raise f).intResult = s.intResult := rfl
@[simp] theorem State.raise_script (s : State) (f : Raised) : (s.raise f).script = s.script := rfl
@[simp] theorem State.raise_draws (s : State) (f : Raised) : (s.raise f).draws = s.draws := rfl
@[simp] theorem State.raise_raised (s : State) (f : Raised) : (s.raise f).raised = s.raised ++ [f] := rfl
@[simp] theorem State.raise_io (s : State) (f : Raised) (p : Port) : (s.raise f).io p = s.io p := by cases p <;> rfl

@[simp] theorem State.drawn_req (s : State) : s.drawn.req = s.req := rfl
@[simp] theorem State.drawn_taken (s : State) : s.drawn.taken = s.taken := rfl
@[simp] theorem State.drawn_cpReady (s : State) : s.drawn.cpReady = s.cpReady := rfl
@[simp] theorem State.drawn_cpState (s : State) : s.drawn.cpState = s.cpState := rfl
@[simp] theorem State.drawn_cpmem (s : State) : s.drawn.cpmem = s.cpmem := rfl
@[simp] theorem State.drawn_ext (s : State) : s.drawn.ext = s.ext := rfl
@[simp] theorem State.drawn_ctrl2 (s : State) : s.drawn.ctrl2 = s.ctrl2 := rfl
@[simp] theorem State.drawn_modeReg (s : State) : s.drawn.modeReg = s.modeReg := rfl
@[simp] theorem State.drawn_imask (s : State) : s.drawn.imask = s.imask := rfl
@[simp] theorem State.drawn_inIrq (s : State) : s.drawn.inIrq = s.inIrq := rfl
@[simp] theorem State.drawn_buf (s : State) : s.drawn.buf = s.buf := rfl
@[simp] theorem State.drawn_readHead (s : State) : s.drawn.readHead = s.readHead := rfl
@[simp] theorem State.drawn_writeHead (s : State) : s.drawn.writeHead = s.writeHead := rfl
@[simp] theorem State.drawn_flt (s : State) : s.drawn.flt = s.flt := rfl
@[simp] theorem State.drawn_port (s : State) : s.drawn.port = s.port := rfl
@[simp] theorem State.drawn_serState (s : State) : s.drawn.serState = s.serState := rfl
@[simp] theorem State.drawn_intPos (s : State) : s.drawn.intPos = s.intPos := rfl
@[simp] theorem State.drawn_cfg (s : State) : s.drawn.cfg = s.cfg := rfl
@[simp] theorem State.drawn_prog (s : State) : s.drawn.prog = s.prog := rfl
@[simp] theorem State.drawn_idx (s : State) : s.drawn.idx = s.idx := rfl
@[simp] theorem State.drawn_mainPos (s : State) : s.drawn.mainPos = s.mainPos := rfl
@[simp] theorem State.drawn_result (s : State) : s.drawn.result = s.result := rfl
@[simp] theorem State.drawn_handler (s : State) : s.drawn.handler = s.handler := rfl
@[simp] theorem State.drawn_intIdx (s : State) : s.drawn.intIdx = s.intIdx := rfl
@[simp] theorem State.drawn_intOp (s : State) : s.drawn.intOp = s.intOp := rfl
@[simp] theorem State.drawn_intResult (s : State) : s.drawn.intResult = s.intResult := rfl
@[simp] theorem State.drawn_script (s : State) : s.drawn.script = s.script := rfl
@[simp] theorem State.drawn_draws (s : State) : s.drawn.draws = s.draws + 1 := rfl
@[simp] theorem State.drawn_raised (s : State) : s.drawn.raised = s.raised := rfl
@[simp] theorem State.drawn_io (s : State) (p : Port) : s.drawn.io p = s.io p := by cases p <;> rfl

@[simp] theorem State.advance_req (s : State) : s.advance.req = s.req := rfl
@[simp] theorem State.advance_taken (s : State) : s.advance.taken = s.taken := rfl
@[simp] theorem State.advance_cpReady (s : State) : s.advance.cpReady = s.cpReady := rfl
@[simp] theorem State.advance_cpState (s : State) : s.advance.cpState = s.cpState := rfl
@[simp] theorem State.advance_cpmem (s : State) : s.advance.cpmem = s.cpmem := rfl
@[simp] theorem State.advance_ext (s : State) : s.advance.ext = s.ext := rfl
@[simp] theorem State.advance_ctrl2 (s : State) : s.advance.ctrl2 = s.ctrl2 := rfl
@[simp] theorem State.advance_modeReg (s : State) : s.advance.modeReg = s.modeReg := rfl
@[simp] theorem State.advance_imask (s : State) : s.advance.imask = s.imask := rfl
@[simp] theorem State.advance_inIrq (s : State) : s.advance.inIrq = s.inIrq := rfl
@[simp] theorem State.advance_buf (s : State) : s.advance.buf = s.buf := rfl
@[simp] theorem State.advance_readHead (s : State) : s.advance.readHead = s.readHead := rfl
@[simp] theorem State.advance_writeHead (s : State) : s.advance.writeHead = s.writeHead := rfl
@[simp] theorem State.advance_flt (s : State) : s.advance.flt = s.flt := rfl
@[simp] theorem State.advance_port (s : State) : s.advance.port = s.port := rfl
@[simp] theorem State.advance_serState (s : State) : s.advance.serState = s.serState := rfl
@[simp] theorem State.advance_intPos (s : State) : s.advance.intPos = s.intPos := rfl
@[simp] theorem State.advance_cfg (s : State) : s.advance.cfg = s.cfg := rfl
@[simp] theorem State.advance_prog (s : State) : s.advance.prog = s.prog := rfl
@[simp] theorem State.advance_idx (s : State) : s.advance.idx = s.idx + 1 := rfl
@[simp] theorem State.advance_mainPos (s : State) : s.advance.mainPos = s.mainPos := rfl
@[simp] theorem State.advance_result (s : State) : s.advance.result = s.result := rfl
@[simp] theorem State.advance_handler (s : State) : s.advance.handler = s.handler := rfl
@[simp] theorem State.advance_intIdx (s : State) : s.advance.intIdx = s.intIdx := rfl
@[simp] theorem State.advance_intOp (s : State) : s.advance.intOp = s.intOp := rfl
@[simp] theorem State.advance_intResult (s : State) : s.advance.intResult = s.intResult := rfl
@[simp] theorem State.advance_script (s : State) : s.advance.script = s.script := rfl
@[simp] theorem State.advance_draws (s : State) : s.advance.draws = s.draws := rfl
@[simp] theorem State.advance_raised (s : State) : s.advance.raised = s.raised := rfl
@[simp] theorem State.advance_io (s : State) (p : Port) : s.advance.io p = s.io p := by cases p <;> rfl

@[simp] theorem State.setIo_req (s : State) (p : Port) (r : PortRegs) : (s.setIo p r).req = s.req := by cases p <;> rfl
@[simp] theorem State.setIo_taken (s : State) (p : Port) (r : PortRegs) : (s.setIo p r).taken = s.taken := by cases p <;> rfl
@[simp] theorem State.setIo_cpReady (s : State) (p : Port) (r : PortRegs) : (s.setIo p r).cpReady = s.cpReady := by cases p <;> rfl
@[simp] theorem State.setIo_cpState (s : State) (p : Port) (r : PortRegs) : (s.setIo p r).cpState = s.cpState := by cases p <;> rfl
@[simp] theorem State.setIo_cpmem (s : State) (p : Port) (r : PortRegs) : (s.setIo p r).cpmem = s.cpmem := by cases p <;> rfl
@[simp] theorem State.setIo_modeReg (s : State) (p : Port) (r : PortRegs) : (s.setIo p r).modeReg = s.modeReg := by cases p <;> rfl
@[simp] theorem State.setIo_imask (s : State) (p : Port) (r : PortRegs) : (s.setIo p r).imask = s.imask := by cases p <;> rfl
@[simp] theorem State.setIo_inIrq (s : State) (p : Port) (r : PortRegs) : (s.setIo p r).inIrq = s.inIrq := by cases p <;> rfl
@[simp] theorem State.setIo_buf (s : State) (p : Port) (r : PortRegs) : (s.setIo p r).buf = s.buf := by cases p <;> rfl
@[simp] theorem State.setIo_readHead (s : State) (p : Port) (r : PortRegs) : (s.setIo p r).readHead = s.readHead := by cases p <;> rfl
@[simp] theorem State.setIo_writeHead (s : State) (p : Port) (r : PortRegs) : (s.setIo p r).writeHead = s.writeHead := by cases p <;> rfl
@[simp] theorem State.setIo_flt (s : State) (p : Port) (r : PortRegs) : (s.setIo p r).flt = s.flt := by cases p <;> rfl
@[simp] theorem State.setIo_port (s : State) (p : Port) (r : PortRegs) : (s.setIo p r).port = s.port := by cases p <;> rfl
@[simp] theorem State.setIo_serState (s : State) (p : Port) (r : PortRegs) : (s.setIo p r).serState = s.serState := by cases p <;> rfl
@[simp] theorem State.setIo_intPos (s : State) (p : Port) (r : PortRegs) : (s.setIo p r).intPos = s.intPos := by cases p <;> rfl
@[simp] theorem State.setIo_cfg (s : State) (p : Port) (r : PortRegs) : (s.setIo p r).cfg = s.cfg := by cases p <;> rfl
@[simp] theorem State.setIo_prog (s : State) (p : Port) (r : PortRegs) : (s.setIo p r).prog = s.prog := by cases p <;> rfl
@[simp] theorem State.setIo_idx (s : State) (p : Port) (r : PortRegs) : (s.setIo p r).idx = s.idx := by cases p <;> rfl
@[simp] theorem State.setIo_mainPos (s : State) (p : Port) (r : PortRegs) : (s.setIo p r).mainPos = s.mainPos := by cases p <;> rfl
@[simp] theorem State.setIo_result (s : State) (p : Port) (r : PortRegs) : (s.setIo p r).result = s.result := by cases p <;> rfl
@[simp] theorem State.setIo_handler (s : State) (p : Port) (r : PortRegs) : (s.setIo p r).handler = s.handler := by cases p <;> rfl
@[simp] theorem State.setIo_intIdx (s : State) (p : Port) (r : PortRegs) : (s.setIo p r).intIdx = s.intIdx := by cases p <;> rfl
@[simp] theorem State.setIo_intOp (s : State) (p : Port) (r : PortRegs) : (s.setIo p r).intOp = s.intOp := by cases p <;> rfl
@[simp] theorem State.setIo_intResult (s : State) (p : Port) (r : PortRegs) : (s.setIo p r).intResult = s.intResult := by cases p <;> rfl
@[simp] theorem State.setIo_script (s : State) (p : Port) (r : PortRegs) : (s.setIo p r).script = s.script := by cases p <;> rfl
@[simp] theorem State.setIo_draws (s : State) (p : Port) (r : PortRegs) : (s.setIo p r).draws = s.draws := by cases p <;> rfl
@[simp] theorem State.setIo_raised (s : State) (p : Port) (r : PortRegs) : (s.setIo p r).raised = s.raised := by cases p <;> rfl

/-- Reading a port after a write to a port. -/
theorem State.setIo_io (s : State) (p q : Port) (r : PortRegs) : (s.setIo p r).io q = if q = p then r else s.io q := by
  cases p <;> cases q <;> rfl

@[simp] theorem State.setIo_io_same (s : State) (p : Port) (r : PortRegs) : (s.setIo p r).io p = r := by
  cases p <;> rfl

theorem State.setIo_io_other (s : State) {p q : Port} (r : PortRegs) (h : q ≠ p) : (s.setIo p r).io q = s.io q := by
  rw [State.setIo_io, if_neg h]

@[simp] theorem State.setIo_self (s : State) (p : Port) : s.setIo p (s.io p) = s := by
  cases p <;> rfl

@[simp] theorem State.moved_req (s : State) : s.moved.req = s.req := by unfold State.moved; split <;> rfl
@[simp] theorem State.moved_taken (s : State) : s.moved.taken = s.taken := by unfold State.moved; split <;> rfl
@[simp] theorem State.moved_cpReady (s : State) : s.moved.cpReady = s.cpReady := by unfold State.moved; split <;> rfl
@[simp] theorem State.moved_cpState (s : State) : s.moved.cpState = s.cpState := by unfold State.moved; split <;> rfl
@[simp] theorem State.moved_cpmem (s : State) : s.moved.cpmem = s.cpmem := by unfold State.moved; split <;> rfl
@[simp] theorem State.moved_ext (s : State) : s.moved.ext = s.ext := by unfold State.moved; split <;> rfl
@[simp] theorem State.moved_ctrl2 (s : State) : s.moved.ctrl2 = s.ctrl2 := by unfold State.moved; split <;> rfl
@[simp] theorem State.moved_modeReg (s : State) : s.moved.modeReg = s.modeReg := by unfold State.moved; split <;> rfl
@[simp] theorem State.moved_imask (s : State) : s.moved.imask = s.imask := by unfold State.moved; split <;> rfl
@[simp] theorem State.moved_inIrq (s : State) : s.moved.inIrq = s.inIrq := by unfold State.moved; split <;> rfl
@[simp] theorem State.moved_buf (s : State) : s.moved.buf = s.buf := by unfold State.moved; split <;> rfl
@[simp] theorem State.moved_readHead (s : State) : s.moved.readHead = s.readHead := by unfold State.moved; split <;> rfl
@[simp] theorem State.moved_writeHead (s : State) : s.moved.writeHead = s.writeHead := by unfold State.moved; split <;> rfl
@[simp] theorem State.moved_flt (s : State) : s.moved.flt = s.flt := by unfold State.moved; split <;> rfl
@[simp] theorem State.moved_port (s : State) : s.moved.port = s.port := by unfold State.moved; split <;> rfl
@[simp] theorem State.moved_serState (s : State) : s.moved.serState = s.serState := by unfold State.moved; split <;> rfl
@[simp] theorem State.moved_intPos (s : State) : s.moved.intPos = s.intPos := by unfold State.moved; split <;> rfl
@[simp] theorem State.moved_cfg (s : State) : s.moved.cfg = s.cfg := by unfold State.moved; split <;> rfl
@[simp] theorem State.moved_prog (s : State) : s.moved.prog = s.prog := by unfold State.moved; split <;> rfl
@[simp] theorem State.moved_idx (s : State) : s.moved.idx = s.idx := by unfold State.moved; split <;> rfl
@[simp] theorem State.moved_mainPos (s : State) : s.moved.mainPos = s.mainPos := by unfold State.moved; split <;> rfl
@[simp] theorem State.moved_result (s : State) : s.moved.result = s.result := by unfold State.moved; split <;> rfl
@[simp] theorem State.moved_handler (s : State) : s.moved.handler = s.handler := by unfold State.moved; split <;> rfl
@[simp] theorem State.moved_intIdx (s : State) : s.moved.intIdx = s.intIdx := by unfold State.moved; split <;> rfl
@[simp] theorem State.moved_intOp (s : State) : s.moved.intOp = s.intOp := by unfold State.moved; split <;> rfl
@[simp] theorem State.moved_intResult (s : State) : s.moved.intResult = s.intResult := by unfold State.moved; split <;> rfl
@[simp] theorem State.moved_raised (s : State) : s.moved.raised = s.raised := by unfold State.moved; split <;> rfl
@[simp] theorem State.moved_io (s : State) (p : Port) : s.moved.io p = s.io p := by
  unfold State.moved; split <;> cases p <;> rfl

@[simp] theorem State.swapIssuer_req (s : State) : s.swapIssuer.req = s.req := rfl
@[simp] theorem State.swapIssuer_taken (s : State) : s.swapIssuer.taken = s.taken := rfl
@[simp] theorem State.swapIssuer_cpReady (s : State) : s.swapIssuer.cpReady = s.cpReady := rfl
@[simp] theorem State.swapIssuer_cpState (s : State) : s.swapIssuer.cpState = s.cpState := rfl
@[simp] theorem State.swapIssuer_cpmem (s : State) : s.swapIssuer.cpmem = s.cpmem := rfl
@[simp] theorem State.swapIssuer_ext (s : State) : s.swapIssuer.ext = s.ext := rfl
@[simp] theorem State.swapIssuer_ctrl2 (s : State) : s.swapIssuer.ctrl2 = s.ctrl2 := rfl
@[simp] theorem State.swapIssuer_modeReg (s : State) : s.swapIssuer.modeReg = s.modeReg := rfl
@[simp] theorem State.swapIssuer_imask (s : State) : s.swapIssuer.imask = s.imask := rfl
@[simp] theorem State.swapIssuer_inIrq (s : State) : s.swapIssuer.inIrq = s.inIrq := rfl
@[simp] theorem State.swapIssuer_buf (s : State) : s.swapIssuer.buf = s.buf := rfl
@[simp] theorem State.swapIssuer_readHead (s : State) : s.swapIssuer.readHead = s.readHead := rfl
@[simp] theorem State.swapIssuer_writeHead (s : State) : s.swapIssuer.writeHead = s.writeHead := rfl
@[simp] theorem State.swapIssuer_flt (s : State) : s.swapIssuer.flt = s.flt := rfl
@[simp] theorem State.swapIssuer_port (s : State) : s.swapIssuer.port = s.port := rfl
@[simp] theorem State.swapIssuer_serState (s : State) : s.swapIssuer.serState = s.serState := rfl
@[simp] theorem State.swapIssuer_intPos (s : State) : s.swapIssuer.intPos = s.intPos := rfl
@[simp] theorem State.swapIssuer_cfg (s : State) : s.swapIssuer.cfg = s.cfg := rfl
@[simp] theorem State.swapIssuer_script (s : State) : s.swapIssuer.script = s.script := rfl
@[simp] theorem State.swapIssuer_draws (s : State) : s.swapIssuer.draws = s.draws := rfl
@[simp] theorem State.swapIssuer_raised (s : State) : s.swapIssuer.raised = s.raised := rfl
@[simp] theorem State.swapIssuer_prog (s : State) : s.swapIssuer.prog = s.handler := rfl
@[simp] theorem State.swapIssuer_handler (s : State) : s.swapIssuer.handler = s.prog := rfl
@[simp] theorem State.swapIssuer_idx (s : State) : s.swapIssuer.idx = s.intIdx := rfl
@[simp] theorem State.swapIssuer_intIdx (s : State) : s.swapIssuer.intIdx = s.idx := rfl
@[simp] theorem State.swapIssuer_mainPos (s : State) : s.swapIssuer.mainPos = s.intOp := rfl
@[simp] theorem State.swapIssuer_intOp (s : State) : s.swapIssuer.intOp = s.mainPos := rfl
@[simp] theorem State.swapIssuer_result (s : State) : s.swapIssuer.result = s.intResult := rfl
@[simp] theorem State.swapIssuer_intResult (s : State) : s.swapIssuer.intResult = s.result := rfl
@[simp] theorem State.swapIssuer_io (s : State) (p : Port) : s.swapIssuer.io p = s.io p := by cases p <;> rfl

/-- Changing the issuers over twice changes nothing. -/
@[simp] theorem State.swapIssuer_swapIssuer (s : State) : s.swapIssuer.swapIssuer = s := rfl

end Sys2Proof.Machine
end

