-- ==== Sys2Proof/Laws/Ops.lean ====
section
/-! SUPPORT. For each shared operation, one lemma that says once everything it can do; later proofs cite it instead of
unfolding the operation. -/

namespace Sys2Proof.Machine

/-! ### Bytes -/

/-- A byte of coprocessor memory after a store: the stored byte at its address, every other as before. -/
theorem cpByte_put (s : State) (a b : Nat) (v : Byte) :
    cpByte { s with cpmem := Memory.put s.cpmem a v } b = if b = a then v else cpByte s b := by
  unfold cpByte
  split
  · next h => subst h; simp [Memory.find_put_same]
  · next h => simp [Memory.find_put_other _ _ h]

/-- A ring slot after a store: the stored byte at its index, every other as before. -/
theorem ringByte_put (s : State) (a b : Nat) (v : Byte) :
    ringByte { s with buf := Memory.put s.buf a v } b = if b = a then v else ringByte s b := by
  unfold ringByte
  split
  · next h => subst h; simp [Memory.find_put_same]
  · next h => simp [Memory.find_put_other _ _ h]

/-- A byte of coprocessor memory depends on `cpmem` alone. -/
theorem cpByte_congr {s t : State} (h : t.cpmem = s.cpmem) (a : Nat) : cpByte t a = cpByte s a := by
  rw [cpByte, cpByte, h]

/-- A ring slot depends on `buf` alone. -/
theorem ringByte_congr {s t : State} (h : t.buf = s.buf) (k : Nat) : ringByte t k = ringByte s k := by
  rw [ringByte, ringByte, h]

/-! ### Faults and free values -/

/-- The bits of `flt` after a fault: its own bit set, every other as before (R191). -/
theorem raise_bit (s : State) (f : Raised) {k : Nat} (h : k < 8) :
    (s.raise f).flt.getLsbD k = (s.flt.getLsbD k || decide (k = f.bit)) := by
  have hb : f.bit < 8 := by cases f <;> simp [Raised.bit]
  simp only [State.raise_flt, BitVec.getLsbD_or, BitVec.getLsbD_shiftLeft]
  generalize f.bit = n at hb
  congr 1
  interval_cases n <;> interval_cases k <;> decide

/-- The content of a FIFO after an overrun has at most `depth` bytes, and at least one where the depth is not 0. -/
theorem overrunContent_length (depth : Nat) (s : State) :
    (overrunContent depth s).length ≤ depth ∧ (1 ≤ depth → 1 ≤ (overrunContent depth s).length) := by
  unfold overrunContent
  simp only [List.length_take, List.length_cons]
  omega

/-- An illegal transaction: the flag, the record, and for a read a free value; nothing else (R97). -/
theorem badTxn_cases (t : TxnWord) (s : State) :
    (fieldW t = true ∧ badTxn t s = (s.raise (.badTxn t)).returns .void) ∨
    (fieldW t = false ∧ badTxn t s = (s.drawn.raise (.badTxn t)).returns (.value (Config.freeWord s.draws))) := by
  cases h : fieldW t <;> simp [badTxn, h]

/-! ### The handshake and coprocessor memory -/

/-- Writing `ARBCTL`: its four cases by `RST` and `REQ` (R111, R112). -/
theorem writeArbctl_cases (d : Word) (s : State) :
    (dataRst d = false ∧ writeArbctl d s = { s with req := dataReq d }) ∨
    (dataRst d = true ∧ dataReq d = false ∧
      writeArbctl d s = { s with req := false, cpState := s.cfg.cpResetState, cpReady := false }) ∨
    (dataRst d = true ∧ dataReq d = true ∧
      writeArbctl d s =
        { s with req := true, taken := true, cpState := s.cfg.cpResetState, cpReady := false }) := by
  cases h1 : dataRst d <;> cases h2 : dataReq d <;> simp [writeArbctl, coprocReset, h1, h2]

/-- Reading a byte of coprocessor memory: out of range, not owned, or the byte (R66). -/
theorem memRead_cases (a : Nat) (s : State) :
    (s.cfg.cpmemSize ≤ a ∧ memRead a s = (Config.freeWord s.draws, s.drawn.raise (.cpmemRange a))) ∨
    (a < s.cfg.cpmemSize ∧ primaryOwns s = false ∧
      memRead a s = (Config.freeWord s.draws, s.drawn.raise (.busNotOwned a))) ∨
    (a < s.cfg.cpmemSize ∧ primaryOwns s = true ∧ memRead a s = (zext16 (cpByte s a), s)) := by
  unfold memRead
  split
  · next h => exact .inl ⟨h, rfl⟩
  · next h => cases ho : primaryOwns s <;> simp [Nat.lt_of_not_le h]

/-- Writing a byte of coprocessor memory: out of range, not owned, or stored (R66). -/
theorem memWrite_cases (a : Nat) (v : Byte) (s : State) :
    (s.cfg.cpmemSize ≤ a ∧ memWrite a v s = s.raise (.cpmemRange a)) ∨
    (a < s.cfg.cpmemSize ∧ primaryOwns s = false ∧ memWrite a v s = s.raise (.busNotOwned a)) ∨
    (a < s.cfg.cpmemSize ∧ primaryOwns s = true ∧
      memWrite a v s = { s with cpmem := Memory.put s.cpmem a v }) := by
  unfold memWrite
  split
  · next h => exact .inl ⟨h, rfl⟩
  · next h => cases ho : primaryOwns s <;> simp [Nat.lt_of_not_le h]

/-- `UploadProgram` copies exactly `length` bytes (R119). -/
@[simp] theorem uploadBytes_length (image : List Byte) (length : Nat) (s : State) :
    (uploadBytes image length s).length = length := by
  simp [uploadBytes]

/-- A byte to copy: the image's, or past its end a free one (R119; log 17). -/
theorem uploadBytes_getElem? (image : List Byte) (length : Nat) (s : State) {i : Nat} (h : i < length) :
    (uploadBytes image length s)[i]? = some (image[i]?.getD (Config.freeImageByte s.draws i)) := by
  simp [uploadBytes, h, List.getD]

/-- Of an image of at least `length` bytes, its first `length` bytes are copied, and nothing is free. -/
theorem uploadBytes_eq_take {image : List Byte} {length : Nat} (s : State) (h : length ≤ image.length) :
    uploadBytes image length s = image.take length := by
  refine List.ext_getElem? fun i => ?_
  by_cases hi : i < length
  · rw [uploadBytes_getElem? image length s hi, List.getElem?_take_of_lt hi,
      List.getElem?_eq_getElem (hi.trans_le h)]
    rfl
  · rw [List.getElem?_eq_none (by simpa using Nat.le_of_not_lt hi),
      List.getElem?_eq_none (by simp; omega)]

/-! ### The ports -/

/-- Pushing a byte to transmit: room, or overrun (R142). -/
theorem pushTx_cases (p : Port) (b : Byte) (s : State) :
    ((s.io p).txFifo.length < s.cfg.txDepth ∧
      pushTx p b s = s.setIo p { s.io p with txFifo := (s.io p).txFifo ++ [b] }) ∨
    (s.cfg.txDepth ≤ (s.io p).txFifo.length ∧
      pushTx p b s =
        (s.drawn.raise (.txOverrun p)).setIo p { s.io p with txFifo := overrunContent s.cfg.txDepth s }) := by
  unfold pushTx
  split
  · next h => exact .inl ⟨h, rfl⟩
  · next h => exact .inr ⟨Nat.le_of_not_lt h, rfl⟩

/-- Popping a received byte: the head, or underflow (R143). -/
theorem popRx_cases (p : Port) (s : State) :
    (∃ b rest, (s.io p).rxFifo = b :: rest ∧ popRx p s = (b, s.setIo p { s.io p with rxFifo := rest })) ∨
    ((s.io p).rxFifo = [] ∧ popRx p s = (Config.freeByte s.draws, s.drawn.raise (.rxUnderflow p))) := by
  unfold popRx
  cases h : (s.io p).rxFifo with
  | nil => exact .inr ⟨rfl, rfl⟩
  | cons b rest => exact .inl ⟨b, rest, rfl, rfl⟩

/-- A byte arriving: room, or overrun (R146). -/
theorem rxArrive_cases (p : Port) (b : Byte) (s : State) :
    ((s.io p).rxFifo.length < s.cfg.rxDepth ∧
      rxArrive p b s = s.setIo p { s.io p with rxFifo := (s.io p).rxFifo ++ [b] }) ∨
    (s.cfg.rxDepth ≤ (s.io p).rxFifo.length ∧
      rxArrive p b s =
        (s.drawn.raise (.rxfifoOverrun p)).setIo p { s.io p with rxFifo := overrunContent s.cfg.rxDepth s }) := by
  unfold rxArrive
  split
  · next h => exact .inl ⟨h, rfl⟩
  · next h => exact .inr ⟨Nat.le_of_not_lt h, rfl⟩

/-- A byte leaving on the line, or nothing to send (R147). -/
theorem txShift_cases (p : Port) (s : State) :
    (∃ b rest, (s.io p).txFifo = b :: rest ∧
      txShift p s = s.setIo p { s.io p with txFifo := rest, txLine := (s.io p).txLine ++ [b] }) ∨
    ((s.io p).txFifo = [] ∧ txShift p s = s) := by
  unfold txShift
  cases h : (s.io p).txFifo with
  | nil => exact .inr ⟨rfl, rfl⟩
  | cons b rest => exact .inl ⟨b, rest, rfl, rfl⟩

/-- The first use of the transport writes `serState` alone (R156). -/
theorem firstUse_eq (s : State) :
    firstUse s = { s with serState := if s.serState = .uninitialized then .uninitialized else .active } := by
  unfold firstUse
  split
  · next h => simp [← h]
  · next h => simp [h]
  · next h => simp [h]

/-- A serial operation: nothing but the result `SerialNotInit`, or the operation on the selected port (R157). -/
theorem serialOp_cases (f : Port → State → State) (s : State) :
    (s.port = none ∧ serialOp f s = s.returns .serialNotInit) ∨
    (∃ p, s.port = some p ∧ serialOp f s = f p (firstUse s)) := by
  unfold serialOp
  cases h : s.port with
  | none => exact .inl ⟨rfl, rfl⟩
  | some p => exact .inr ⟨p, rfl, rfl⟩

/-! ### The ring buffer -/

/-- The next cursor as a number (R171). -/
theorem nextCursor_toNat {n : Nat} (h : Word) (hn : 0 < n) (hn' : n ≤ 65536) :
    (nextCursor n h).toNat = (h.toNat + 1) % n := by
  have := Nat.mod_lt (h.toNat + 1) hn
  rw [nextCursor, BitVec.toNat_ofNat, Nat.mod_eq_of_lt]
  omega

/-- The ring write: room; full and refused; full and performed (R172). -/
theorem ringWrite_cases (b : Byte) (s : State) :
    (ringFull s = false ∧ ringWrite b s =
      { s with buf := Memory.put s.buf s.writeHead.toNat b, writeHead := nextCursor s.cfg.bufLen s.writeHead }) ∨
    (ringFull s = true ∧ s.cfg.rbStrict = true ∧ ringWrite b s = s.raise .rbOverflow) ∨
    (ringFull s = true ∧ s.cfg.rbStrict = false ∧ ringWrite b s =
      { s.raise .rbOverflow with
        buf := Memory.put s.buf s.writeHead.toNat b, writeHead := nextCursor s.cfg.bufLen s.writeHead }) := by
  unfold ringWrite
  cases h1 : ringFull s <;> cases h2 : s.cfg.rbStrict <;> simp

/-- The ring read: the byte at the consumer cursor and the cursor past it, flagged where the buffer was empty (R173). -/
theorem ringRead_cases (s : State) :
    (ringEmpty s = false ∧ ringRead s =
      (ringByte s s.readHead.toNat, { s with readHead := nextCursor s.cfg.bufLen s.readHead })) ∨
    (ringEmpty s = true ∧ ringRead s =
      (ringByte s s.readHead.toNat,
        { s.raise .rbUnderflow with readHead := nextCursor s.cfg.bufLen s.readHead })) := by
  unfold ringRead
  cases h : ringEmpty s <;> simp

/-- Clearing the ring buffer writes the two cursors alone, or nothing (R176). -/
theorem ringReset_cases (d : Word) (s : State) :
    (dataClr d = true ∧ ringReset d s = { s with readHead := 0, writeHead := 0 }) ∨
    (dataClr d = false ∧ ringReset d s = s) := by
  unfold ringReset
  cases h : dataClr d <;> simp

/-- A transaction of the drain routine: a check that ends it or goes on, a pop, or a ring write (R180). -/
theorem drainStep_cases (p : Port) (pos : DrainPos) (s : State) :
    (pos = .atCheck ∧ ∃ next, (next = none ∨ next = some .atRead) ∧ drainStep p pos s = (next, s)) ∨
    (pos = .atRead ∧ drainStep p pos s = (some (.atWrite (popRx p s).1), (popRx p s).2)) ∨
    (∃ b, pos = .atWrite b ∧ drainStep p pos s = (some .atCheck, ringWrite b s)) := by
  cases pos with
  | atCheck =>
    refine .inl ⟨rfl, _, ?_, rfl⟩
    split
    · exact .inr rfl
    · exact .inl rfl
  | atRead => exact .inr (.inl ⟨rfl, rfl⟩)
  | atWrite b => exact .inr (.inr ⟨b, rfl, rfl⟩)

/-! ### The interrupt context -/

/-- Entering the interrupt context writes `inIrq`, the position and, on a selected port, `serState` (R201). -/
theorem intEnter_eq (s : State) :
    ∃ v, intEnter s =
        { s with inIrq := true, intPos := some .atCheck, intIdx := 0, intOp := .idle, serState := v } ∧
      (s.port = none → v = s.serState) := by
  cases h : s.port with
  | none => exact ⟨s.serState, by simp [intEnter, h], fun _ => rfl⟩
  | some p =>
    refine ⟨if s.serState = .uninitialized then .uninitialized else .active, ?_, fun hn => by cases hn⟩
    simp only [intEnter, h, firstUse_eq]

/-- What the handler issues is exhausted: no operation under way, no command left. -/
theorem handlerDone_iff (s : State) : handlerDone s = true ↔ s.intOp = .idle ∧ s.handler[s.intIdx]? = none := by
  simp [handlerDone]

/-- The handler of R201 issues nothing after `RxDrain`. -/
theorem handlerDone_nil {s : State} (h : s.handler = []) (hop : s.intOp = .idle) : handlerDone s = true := by
  simp [handlerDone, h, hop]

/-- A step of `INT`: entry; nothing; a transaction of the drain routine; past it, a transaction of the handler; exit
(R201, R202, R203). -/
theorem intStep_cases (s : State) :
    (s.inIrq = false ∧ irq s = true ∧ intStep s = .next (intEnter s)) ∨
    (s.inIrq = false ∧ irq s = false ∧ intStep s = .next s) ∨
    (s.inIrq = true ∧ ∃ pos p, s.intPos = some pos ∧ s.port = some p ∧
      intStep s = .next { (drainStep p pos s).2 with intPos := (drainStep p pos s).1 }) ∨
    (s.inIrq = true ∧ (s.intPos = none ∨ s.port = none) ∧ handlerDone s = true ∧ intStep s = .next (intExit s)) ∨
    (s.inIrq = true ∧ (s.intPos = none ∨ s.port = none) ∧ handlerDone s = false ∧
      intStep s = handlerStep { s with intPos := none }) := by
  unfold intStep
  cases hi : s.inIrq
  · cases hq : irq s <;> simp
  · cases hp : s.intPos <;> cases ho : s.port <;> cases hd : handlerDone s <;> simp

/-! ### The autonomous steps and the main context -/

/-- `GRANT`: taken where it is enabled, nothing elsewhere (R113). -/
theorem grant_cases (s : State) :
    (s.req = true ∧ s.taken = false ∧ grant s = { s with taken := true }) ∨
    (grantEnabled s = false ∧ grant s = s) := by
  cases h1 : s.req <;> cases h2 : s.taken <;> simp [grant, grantEnabled, h1, h2]

/-- `RESUME`: taken where it is enabled, nothing elsewhere (R114). -/
theorem resume_cases (s : State) :
    (s.req = false ∧ s.taken = true ∧ resume s = { s with taken := false }) ∨
    (resumeEnabled s = false ∧ resume s = s) := by
  cases h1 : s.req <;> cases h2 : s.taken <;> simp [resume, resumeEnabled, h1, h2]

/-- `CP_STEP`: taken while the bus is not taken, nothing elsewhere (R115). -/
theorem cpStep_cases (state : CpState) (stores : List Host.Cell) (ready : Bool) (s : State) :
    (s.taken = false ∧ cpStep state stores ready s =
      { s with cpState := state, cpmem := cpStores s.cfg.cpmemSize s.cpmem stores, cpReady := ready }) ∨
    (s.taken = true ∧ cpStep state stores ready s = s) := by
  cases h : s.taken <;> simp [cpStep, cpStepEnabled, h]

/-- The issuer's next transaction: of its operation; else of its next command; else none (R102, R233). -/
theorem issueNext_cases (s : State) :
    (s.mainPos ≠ .idle ∧ issueNext s = .next (continueOp s.mainPos s)) ∨
    (s.mainPos = .idle ∧ ∃ c, fetch s = some c ∧ issueNext s = issueCmd c s.advance) ∨
    (s.mainPos = .idle ∧ fetch s = none ∧ issueNext s = .next s) := by
  cases hm : s.mainPos <;> simp [issueNext, hm]
  cases hf : fetch s <;> simp

/-- A step of `MAIN`: none inside the interrupt context; else its next transaction (R12). -/
theorem mainStep_cases (s : State) :
    (s.inIrq = true ∧ mainStep s = .next s) ∨ (s.inIrq = false ∧ mainStep s = issueNext s) := by
  cases hi : s.inIrq <;> simp [mainStep, hi]

/-- A function on the next state, applied where there is one. -/
theorem onNext_eq_next {f : State → State} {o : Host.Outcome State Fault Refusal} {t : State} :
    onNext f o = .next t ↔ ∃ u, o = .next u ∧ f u = t := by
  cases o <;> simp [onNext]

/-- A transaction of the handler is the one the issuer with `INT`'s list, index, place and result would issue, the
issuers changed back over after it. -/
theorem handlerStep_eq_next {s t : State} :
    handlerStep s = .next t ↔ ∃ u, issueNext s.swapIssuer = .next u ∧ u.swapIssuer = t :=
  onNext_eq_next

end Sys2Proof.Machine
end

