-- ==== Sys2Proof/Laws/PerInstr.lean ====
section
/-! SUPPORT. Facts about every instruction as syntax, one lemma a constructor. `OpcodeRowFixed`: the word the encoder
gives an instruction has the bits its opcode row fixes (R94); a level-1 operation has no word (R102). -/

namespace Sys2Proof.Laws

/-- A packed format R word has bits 31:16 of a format R row. -/
theorem packR_and_high (w : Bool) (reg : BitVec 8) (d : Word) :
    packR w reg d &&& 0xFFFF0000#32 = packR w reg 0 := by
  refine BitVec.eq_of_getLsbD_eq fun k hk => ?_
  simp only [packR, BitVec.getLsbD_and, BitVec.getLsbD_or, BitVec.getLsbD_shiftLeft, BitVec.getLsbD_setWidth]
  by_cases h : k < 16
  · have hm : (0xFFFF0000#32).getLsbD k = false := by interval_cases k <;> decide
    have h0 : (0#16).getLsbD k = false := by simp
    simp [hm, h, show k < 31 by omega]
  · have hm : (0xFFFF0000#32).getLsbD k = true := by interval_cases k <;> decide
    have hd : d.getLsbD k = false := BitVec.getLsbD_of_ge d k (by omega)
    simp [hm, hd]

/-- The bits of a format R word under a mask that fixes no bit of `DATA`. -/
theorem packR_and (w : Bool) (reg : BitVec 8) (d : Word) (m : TxnWord) (hm : m &&& 0xFFFF0000#32 = m) :
    packR w reg d &&& m = packR w reg 0 &&& m := by
  rw [← hm, BitVec.and_comm m, ← BitVec.and_assoc, ← BitVec.and_assoc, packR_and_high, packR_and_high w reg 0]

/-- The bits of a format M write under the mask of its row. -/
theorem packM_write_and (a : Word) (b : Byte) : packM true a b &&& 0xFF000000#32 = 0xC0000000#32 := by
  refine BitVec.eq_of_getLsbD_eq fun k hk => ?_
  simp only [packM, BitVec.getLsbD_and, BitVec.getLsbD_or, BitVec.getLsbD_shiftLeft, BitVec.getLsbD_setWidth]
  by_cases h : k < 24
  · have hm : (0xFF000000#32).getLsbD k = false := by interval_cases k <;> decide
    have h0 : (0xC0000000#32).getLsbD k = false := by interval_cases k <;> decide
    simp [hm, h0]
  · have ha : a.getLsbD (k - 8) = false := BitVec.getLsbD_of_ge a _ (by omega)
    have hb : b.getLsbD k = false := BitVec.getLsbD_of_ge b k (by omega)
    simp only [ha, hb]
    interval_cases k <;> decide

/-- The bits of a format M read under the mask of its row. -/
theorem packM_read_and (a : Word) : packM false a 0 &&& 0xFF0000FF#32 = 0x40000000#32 := by
  refine BitVec.eq_of_getLsbD_eq fun k hk => ?_
  simp only [packM, BitVec.getLsbD_and, BitVec.getLsbD_or, BitVec.getLsbD_shiftLeft, BitVec.getLsbD_setWidth]
  by_cases h : k < 24
  · by_cases h8 : k < 8
    · simp only [h8, decide_true, Bool.not_true, Bool.false_and, Bool.and_false]
      interval_cases k <;> decide
    · have hm : (0xFF0000FF#32).getLsbD k = false := by interval_cases k <;> decide
      have h0 : (0x40000000#32).getLsbD k = false := by interval_cases k <;> decide
      simp [hm, h0]
  · have ha : a.getLsbD (k - 8) = false := BitVec.getLsbD_of_ge a _ (by omega)
    simp only [ha]
    interval_cases k <;> decide

/-- A word of this instruction matches the opcode row with this match value and mask. -/
def RowFixes (i : Instr) (value mask : TxnWord) : Prop := ∀ w, encode i = some w → w &&& mask = value

/-- The match value and mask of an instruction's row in the opcode map (R94); a level-1 operation has no row. -/
def rowOf : Instr → Option (TxnWord × TxnWord)
  | .wrArbctl _ => some (0x80000000, 0xFFFF0000)
  | .rdArbctl => some (0x00000000, 0xFFFFFFFF)
  | .rdArbstat => some (0x00010000, 0xFFFFFFFF)
  | .rdFlt => some (0x00020000, 0xFFFFFFFF)
  | .wrCtrl _ _ => some (0x80100000, 0xFFFB0000)
  | .rdCtrl _ => some (0x00100000, 0xFFFBFFFF)
  | .wrSctrl _ _ => some (0x80110000, 0xFFFB0000)
  | .rdSctrl _ => some (0x00110000, 0xFFFBFFFF)
  | .wrTxdata _ _ => some (0x80120000, 0xFFFB0000)
  | .rdRxdata _ => some (0x00130000, 0xFFFBFFFF)
  | .wrMode _ => some (0x80200000, 0xFFFF0000)
  | .rdMode => some (0x00200000, 0xFFFFFFFF)
  | .wrImask _ => some (0x80210000, 0xFFFF0000)
  | .rdImask => some (0x00210000, 0xFFFFFFFF)
  | .wrRbdata _ => some (0x80300000, 0xFFFF0000)
  | .rdRbdata => some (0x00300000, 0xFFFFFFFF)
  | .rdRbstat => some (0x00310000, 0xFFFFFFFF)
  | .rdRbavail => some (0x00320000, 0xFFFFFFFF)
  | .rdRbrd => some (0x00330000, 0xFFFFFFFF)
  | .rdRbwr => some (0x00340000, 0xFFFFFFFF)
  | .wrRbctl _ => some (0x80350000, 0xFFFF0000)
  | .mrd _ => some (0x40000000, 0xFF0000FF)
  | .mwr _ _ => some (0xC0000000, 0xFF000000)
  | .requestBus _ | .releaseBus | .isBusTaken | .uploadProgram _ _ _ | .serialInit _ _ | .isPresent | .writeReady
  | .serWrite _ | .readReady | .serRead | .resetFifos | .baudRate | .rbWrite _ | .rbRead | .rbCanRead
  | .rbAvailable | .rxDrain => none

/-- The word the encoder gives an instruction has the bits its row fixes, and it gives a word exactly where there is
a row. -/
def OpcodeRowFixed.Statement (i : Instr) : Prop :=
  match rowOf i with
  | some (value, mask) => (encode i).isSome = true ∧ RowFixes i value mask
  | none => encode i = none

theorem rowFixes_write {i : Instr} {reg : BitVec 8} {d : Word} {value mask : TxnWord}
    (he : encode i = some (packR true reg d)) (hm : mask &&& 0xFFFF0000#32 = mask)
    (hv : packR true reg 0 &&& mask = value) : (encode i).isSome = true ∧ RowFixes i value mask := by
  refine ⟨by simp [he], fun w hw => ?_⟩
  obtain rfl : packR true reg d = w := by simpa [he] using hw
  rw [packR_and _ _ _ _ hm, hv]

theorem rowFixes_read {i : Instr} {w₀ : TxnWord} {value mask : TxnWord} (he : encode i = some w₀)
    (hv : w₀ &&& mask = value) : (encode i).isSome = true ∧ RowFixes i value mask := by
  refine ⟨by simp [he], fun w hw => ?_⟩
  obtain rfl : w₀ = w := by simpa [he] using hw
  exact hv

theorem OpcodeRowFixed.wrArbctl (d : Word) : OpcodeRowFixed.Statement (.wrArbctl d) :=
  rowFixes_write rfl (by decide) (by decide)

theorem OpcodeRowFixed.wrMode (d : Word) : OpcodeRowFixed.Statement (.wrMode d) :=
  rowFixes_write rfl (by decide) (by decide)

theorem OpcodeRowFixed.wrImask (d : Word) : OpcodeRowFixed.Statement (.wrImask d) :=
  rowFixes_write rfl (by decide) (by decide)

theorem OpcodeRowFixed.wrRbdata (d : Word) : OpcodeRowFixed.Statement (.wrRbdata d) :=
  rowFixes_write rfl (by decide) (by decide)

theorem OpcodeRowFixed.wrRbctl (d : Word) : OpcodeRowFixed.Statement (.wrRbctl d) :=
  rowFixes_write rfl (by decide) (by decide)

theorem OpcodeRowFixed.wrCtrl (p : Port) (d : Word) : OpcodeRowFixed.Statement (.wrCtrl p d) := by
  cases p
  · exact rowFixes_write rfl (by decide) (by decide)
  · exact rowFixes_write rfl (by decide) (by decide)

theorem OpcodeRowFixed.wrSctrl (p : Port) (d : Word) : OpcodeRowFixed.Statement (.wrSctrl p d) := by
  cases p
  · exact rowFixes_write rfl (by decide) (by decide)
  · exact rowFixes_write rfl (by decide) (by decide)

theorem OpcodeRowFixed.wrTxdata (p : Port) (d : Word) : OpcodeRowFixed.Statement (.wrTxdata p d) := by
  cases p
  · exact rowFixes_write rfl (by decide) (by decide)
  · exact rowFixes_write rfl (by decide) (by decide)

theorem OpcodeRowFixed.rdCtrl (p : Port) : OpcodeRowFixed.Statement (.rdCtrl p) := by
  cases p
  · exact rowFixes_read rfl (by decide)
  · exact rowFixes_read rfl (by decide)

theorem OpcodeRowFixed.rdSctrl (p : Port) : OpcodeRowFixed.Statement (.rdSctrl p) := by
  cases p
  · exact rowFixes_read rfl (by decide)
  · exact rowFixes_read rfl (by decide)

theorem OpcodeRowFixed.rdRxdata (p : Port) : OpcodeRowFixed.Statement (.rdRxdata p) := by
  cases p
  · exact rowFixes_read rfl (by decide)
  · exact rowFixes_read rfl (by decide)

theorem OpcodeRowFixed.rdArbctl : OpcodeRowFixed.Statement .rdArbctl := rowFixes_read rfl (by decide)

theorem OpcodeRowFixed.rdArbstat : OpcodeRowFixed.Statement .rdArbstat := rowFixes_read rfl (by decide)

theorem OpcodeRowFixed.rdFlt : OpcodeRowFixed.Statement .rdFlt := rowFixes_read rfl (by decide)

theorem OpcodeRowFixed.rdMode : OpcodeRowFixed.Statement .rdMode := rowFixes_read rfl (by decide)

theorem OpcodeRowFixed.rdImask : OpcodeRowFixed.Statement .rdImask := rowFixes_read rfl (by decide)

theorem OpcodeRowFixed.rdRbdata : OpcodeRowFixed.Statement .rdRbdata := rowFixes_read rfl (by decide)

theorem OpcodeRowFixed.rdRbstat : OpcodeRowFixed.Statement .rdRbstat := rowFixes_read rfl (by decide)

theorem OpcodeRowFixed.rdRbavail : OpcodeRowFixed.Statement .rdRbavail := rowFixes_read rfl (by decide)

theorem OpcodeRowFixed.rdRbrd : OpcodeRowFixed.Statement .rdRbrd := rowFixes_read rfl (by decide)

theorem OpcodeRowFixed.rdRbwr : OpcodeRowFixed.Statement .rdRbwr := rowFixes_read rfl (by decide)

theorem OpcodeRowFixed.mrd (a : Word) : OpcodeRowFixed.Statement (.mrd a) := rowFixes_read rfl (packM_read_and a)

theorem OpcodeRowFixed.mwr (a : Word) (b : Byte) : OpcodeRowFixed.Statement (.mwr a b) :=
  rowFixes_read rfl (packM_write_and a b)

theorem OpcodeRowFixed.requestBus (reset : Bool) :
    OpcodeRowFixed.Statement (.requestBus reset) := rfl

theorem OpcodeRowFixed.releaseBus :
    OpcodeRowFixed.Statement .releaseBus := rfl

theorem OpcodeRowFixed.isBusTaken :
    OpcodeRowFixed.Statement .isBusTaken := rfl

theorem OpcodeRowFixed.uploadProgram (image : List Byte) (length : Nat) (resetFirst : Bool) :
    OpcodeRowFixed.Statement (.uploadProgram image length resetFirst) := rfl

theorem OpcodeRowFixed.serialInit (port : Port) (rxInt : Bool) :
    OpcodeRowFixed.Statement (.serialInit port rxInt) := rfl

theorem OpcodeRowFixed.isPresent :
    OpcodeRowFixed.Statement .isPresent := rfl

theorem OpcodeRowFixed.writeReady :
    OpcodeRowFixed.Statement .writeReady := rfl

theorem OpcodeRowFixed.serWrite (b : Byte) :
    OpcodeRowFixed.Statement (.serWrite b) := rfl

theorem OpcodeRowFixed.readReady :
    OpcodeRowFixed.Statement .readReady := rfl

theorem OpcodeRowFixed.serRead :
    OpcodeRowFixed.Statement .serRead := rfl

theorem OpcodeRowFixed.resetFifos :
    OpcodeRowFixed.Statement .resetFifos := rfl

theorem OpcodeRowFixed.baudRate :
    OpcodeRowFixed.Statement .baudRate := rfl

theorem OpcodeRowFixed.rbWrite (b : Byte) :
    OpcodeRowFixed.Statement (.rbWrite b) := rfl

theorem OpcodeRowFixed.rbRead :
    OpcodeRowFixed.Statement .rbRead := rfl

theorem OpcodeRowFixed.rbCanRead :
    OpcodeRowFixed.Statement .rbCanRead := rfl

theorem OpcodeRowFixed.rbAvailable :
    OpcodeRowFixed.Statement .rbAvailable := rfl

theorem OpcodeRowFixed.rxDrain :
    OpcodeRowFixed.Statement .rxDrain := rfl

end Sys2Proof.Laws
end

