-- ==== Sys2Proof/Laws/Step.lean ====
section
/-! SUPPORT. What a step is, agent by agent, and what using up the choice of the agent leaves as it was. -/

namespace Sys2Proof.Machine

/-! ### The choice used up -/

@[simp] theorem afterChoice_req (s : State) : (afterChoice s).req = s.req := rfl
@[simp] theorem afterChoice_taken (s : State) : (afterChoice s).taken = s.taken := rfl
@[simp] theorem afterChoice_cpReady (s : State) : (afterChoice s).cpReady = s.cpReady := rfl
@[simp] theorem afterChoice_cpState (s : State) : (afterChoice s).cpState = s.cpState := rfl
@[simp] theorem afterChoice_cpmem (s : State) : (afterChoice s).cpmem = s.cpmem := rfl
@[simp] theorem afterChoice_ext (s : State) : (afterChoice s).ext = s.ext := rfl
@[simp] theorem afterChoice_ctrl2 (s : State) : (afterChoice s).ctrl2 = s.ctrl2 := rfl
@[simp] theorem afterChoice_modeReg (s : State) : (afterChoice s).modeReg = s.modeReg := rfl
@[simp] theorem afterChoice_imask (s : State) : (afterChoice s).imask = s.imask := rfl
@[simp] theorem afterChoice_inIrq (s : State) : (afterChoice s).inIrq = s.inIrq := rfl
@[simp] theorem afterChoice_buf (s : State) : (afterChoice s).buf = s.buf := rfl
@[simp] theorem afterChoice_readHead (s : State) : (afterChoice s).readHead = s.readHead := rfl
@[simp] theorem afterChoice_writeHead (s : State) : (afterChoice s).writeHead = s.writeHead := rfl
@[simp] theorem afterChoice_flt (s : State) : (afterChoice s).flt = s.flt := rfl
@[simp] theorem afterChoice_port (s : State) : (afterChoice s).port = s.port := rfl
@[simp] theorem afterChoice_serState (s : State) : (afterChoice s).serState = s.serState := rfl
@[simp] theorem afterChoice_intPos (s : State) : (afterChoice s).intPos = s.intPos := rfl
@[simp] theorem afterChoice_cfg (s : State) : (afterChoice s).cfg = s.cfg := rfl
@[simp] theorem afterChoice_prog (s : State) : (afterChoice s).prog = s.prog := rfl
@[simp] theorem afterChoice_idx (s : State) : (afterChoice s).idx = s.idx := rfl
@[simp] theorem afterChoice_mainPos (s : State) : (afterChoice s).mainPos = s.mainPos := rfl
@[simp] theorem afterChoice_result (s : State) : (afterChoice s).result = s.result := rfl
@[simp] theorem afterChoice_handler (s : State) : (afterChoice s).handler = s.handler := rfl
@[simp] theorem afterChoice_intIdx (s : State) : (afterChoice s).intIdx = s.intIdx := rfl
@[simp] theorem afterChoice_intOp (s : State) : (afterChoice s).intOp = s.intOp := rfl
@[simp] theorem afterChoice_intResult (s : State) : (afterChoice s).intResult = s.intResult := rfl
@[simp] theorem afterChoice_raised (s : State) : (afterChoice s).raised = s.raised := rfl
@[simp] theorem afterChoice_script (s : State) : (afterChoice s).script = s.script.tail := rfl

@[simp] theorem afterChoice_io (s : State) (p : Port) : (afterChoice s).io p = s.io p := by
  cases p <;> rfl

@[simp] theorem afterChoice_cpByte (s : State) (a : Nat) : cpByte (afterChoice s) a = cpByte s a := rfl

@[simp] theorem afterChoice_ringByte (s : State) (k : Nat) : ringByte (afterChoice s) k = ringByte s k := rfl

@[simp] theorem afterChoice_fetch (s : State) : fetch (afterChoice s) = fetch s := rfl

@[simp] theorem afterChoice_irq (s : State) : irq (afterChoice s) = irq s := rfl

@[simp] theorem afterChoice_primaryOwns (s : State) : primaryOwns (afterChoice s) = primaryOwns s := rfl

/-- `State.moved`, which the step uses, is `afterChoice`, which claims use. -/
theorem moved_eq_afterChoice (s : State) : s.moved = afterChoice s := by
  unfold State.moved afterChoice
  split <;> rename_i h <;> simp [h, State.drawn]

@[simp] theorem afterChoice_handlerDone (s : State) : handlerDone (afterChoice s) = handlerDone s := rfl

@[simp] theorem afterChoice_drainOver (s : State) : drainOver (afterChoice s) = drainOver s := rfl

/-! ### One step, agent by agent -/

/-- A step is the chosen agent's, on the state with the choice used up. -/
theorem step_eq (s : State) : step s = runMove (nextMove s) (afterChoice s) := by
  rw [step, moved_eq_afterChoice]

/-- A step of `MAIN` inside an operation is its next transaction. -/
theorem step_inside {s : State} (h : MainTurn s) (hpos : s.mainPos ≠ .idle) :
    step s = .next (continueOp s.mainPos (afterChoice s)) := by
  rw [step_eq, h.1, runMove, mainStep, if_neg (by simp [h.2]), issueNext]
  cases hm : s.mainPos <;> simp_all

/-- A step of `MAIN` outside an operation issues the command fetched, past it. -/
theorem step_idle {s : State} {c : Cmd} (h : MainTurn s) (hpos : s.mainPos = .idle) (hf : fetch s = some c) :
    step s = issueCmd c (afterChoice s).advance := by
  rw [step_eq, h.1, runMove, mainStep, if_neg (by simp [h.2]), issueNext]
  simp [hpos, hf]

/-- A step of `MAIN` with its list exhausted changes nothing. -/
theorem step_end {s : State} (h : MainTurn s) (hpos : s.mainPos = .idle) (hf : fetch s = none) :
    step s = .next (afterChoice s) := by
  rw [step_eq, h.1, runMove, mainStep, if_neg (by simp [h.2]), issueNext]
  simp [hpos, hf]

end Sys2Proof.Machine
end

