-- ==== Sys2Proof/Tests/Slice0.lean ====
section
/-! SUPPORT. The model's own tests: well-formedness, decoding from the spec's words, one step on a small state with the
result spec/95_test_vectors.md or a rule's example gives, and a witness for the hypotheses of each statement. -/

namespace Sys2Proof.Tests

open Sys2Proof.Machine

/-! ### Well-formedness: each check refuses an ill-formed term -/

theorem test_default_params_wf : Params.wf {} = true := by decide
/-- S4: `AVAIL_CAP` is `N - 1`, and `IMASK_INIT` one below the receive interrupt's level, where nothing else is said. -/
theorem test_derived_defaults :
    ({ bufLen := 2048 } : Params).availCap = 2047 ∧ ({} : Params).availCap = 4095 ∧
    ({ rxIrqLevel := 5 } : Params).imaskInit = 4 ∧ ({} : Params).imaskInit = 1 := by decide
theorem test_wf_bufLen_low : Params.wf { bufLen := 1 } = false := by decide
theorem test_wf_bufLen_high : Params.wf { bufLen := 65537 } = false := by decide
theorem test_wf_cpmemSize_low : Params.wf { cpmemSize := 0 } = false := by decide
theorem test_wf_cpmemSize_high : Params.wf { cpmemSize := 65537 } = false := by decide
theorem test_wf_txDepth : Params.wf { txDepth := 0 } = false := by decide
theorem test_wf_rxDepth : Params.wf { rxDepth := 0 } = false := by decide
theorem test_wf_baud_four_codes :
    Params.wf { baudDecode := { code0 := .b4800, code1 := .b4800, code2 := .b4800, code3 := .b4800 } } = false := by
  decide
theorem test_wf_baud_init : Params.wf { baudInitCode := 3 } = false := by decide
theorem test_wf_upload_image : (Instr.uploadProgram [1, 2] 2 true).wf = true := by decide
theorem test_wf_upload_image_short : (Instr.uploadProgram [1, 2] 3 true).wf = false := by decide

/-! ### Decoding: words written out from R91 to R93, R99 and table 2.1 of the test vectors -/

/-- `WR.SCTRL Ctrl2, #0x38` bit by bit: W 1, S 0, reserved 000000, REG 0b0001_0101, DATA 0x0038 (R91, R93, R96). -/
theorem test_decode_bits_r :
    decode (0b1_0_000000_00010101_0000000000111000 : TxnWord) = .ok (.wrSctrl .ctrl2 0x38) := by decide

/-- `MWR 0x1FFF, #0xAA` bit by bit: W 1, S 1, reserved 000000, ADDR 0x1FFF, BYTE 0xAA (R92). -/
theorem test_decode_bits_m :
    decode (0b1_1_000000_0001111111111111_10101010 : TxnWord) = .ok (.mwr 0x1FFF 0xAA) := by decide

theorem test_decode_arbiter :
    decode 0x8000FFFF = .ok (.wrArbctl 0xFFFF) ∧ decode 0x00000000 = .ok .rdArbctl ∧
    decode 0x00010000 = .ok .rdArbstat ∧ decode 0x40001000 = .ok (.mrd 0x0010) ∧
    decode 0xC0FFFF12 = .ok (.mwr 0xFFFF 0x12) := by decide

theorem test_decode_platform :
    decode 0x00020000 = .ok .rdFlt ∧ decode 0x80200008 = .ok (.wrMode 8) ∧ decode 0x00200000 = .ok .rdMode ∧
    decode 0x80210001 = .ok (.wrImask 1) ∧ decode 0x00210000 = .ok .rdImask := by decide

theorem test_decode_port_ext :
    decode 0x80100000 = .ok (.wrCtrl .ext 0) ∧ decode 0x00100000 = .ok (.rdCtrl .ext) ∧
    decode 0x80110038 = .ok (.wrSctrl .ext 0x38) ∧ decode 0x00110000 = .ok (.rdSctrl .ext) ∧
    decode 0x80120041 = .ok (.wrTxdata .ext 0x41) ∧ decode 0x00130000 = .ok (.rdRxdata .ext) := by decide

theorem test_decode_port_ctrl2 :
    decode 0x80140055 = .ok (.wrCtrl .ctrl2 0x55) ∧ decode 0x00140000 = .ok (.rdCtrl .ctrl2) ∧
    decode 0x80150038 = .ok (.wrSctrl .ctrl2 0x38) ∧ decode 0x00150000 = .ok (.rdSctrl .ctrl2) ∧
    decode 0x80160041 = .ok (.wrTxdata .ctrl2 0x41) ∧ decode 0x00170000 = .ok (.rdRxdata .ctrl2) := by decide

theorem test_decode_ring :
    decode 0x80300048 = .ok (.wrRbdata 0x48) ∧ decode 0x00300000 = .ok .rdRbdata ∧
    decode 0x00310000 = .ok .rdRbstat ∧ decode 0x00320000 = .ok .rdRbavail ∧ decode 0x00330000 = .ok .rdRbrd ∧
    decode 0x00340000 = .ok .rdRbwr ∧ decode 0x80350001 = .ok (.wrRbctl 1) := by decide

/-- Vectors V-E9 to V-E20. -/
theorem test_decode_illegal :
    decode 0x00000001 = .error .nonzeroReadData ∧ decode 0x80010000 = .error .illegalDirection ∧
    decode 0x80020000 = .error .illegalDirection ∧ decode 0x00120000 = .error .illegalDirection ∧
    decode 0x80170000 = .error .illegalDirection ∧ decode 0x00350000 = .error .illegalDirection ∧
    decode 0x80320000 = .error .illegalDirection ∧ decode 0x80030000 = .error .unimplementedRegister ∧
    decode 0x00180000 = .error .unimplementedRegister ∧ decode 0x81000001 = .error .reservedBits ∧
    decode 0xE00000F3 = .error .reservedBits ∧ decode 0x40001001 = .error .nonzeroReadData := by decide

/-- No two rows of the opcode map share a word: some bit both fix differs (R94, R97). -/
theorem test_rows_disjoint :
    opcodeRows.Pairwise fun r q => r.value &&& q.mask ≠ q.value &&& r.mask := by decide

theorem test_table_word : decodeTableWord 32 0xC00001C3 = some (.mwr 0x0001 0xC3) := by decide
theorem test_table_word_too_wide : decodeTableWord 40 0x1_00010000 = none := by decide
theorem test_encode_ctrl2 : encode (.rdSctrl .ctrl2) = some 0x00150000 := by decide

/-! ### One step -/

/-- One field of the next state, where there is one. -/
def out {α : Type} (f : State → α) (o : Host.Outcome State Fault Refusal) : Option α :=
  match o with
  | .next t => some (f t)
  | _ => none

/-- One step that runs a transaction word. -/
def runs (w : Nat) (s : State) : Host.Outcome State Fault Refusal := step (s.withFetchWord 32 w)

/-- The bus owned, with `cpmem[0x10] = 0x7E`. -/
def owned : State := { State.reset with req := true, taken := true, cpmem := [(0x10, 0x7E)] }

/-- A ring buffer of 8 slots, cursors `rh` and `wh`, with every slot written. -/
def ring (rh wh : Word) : State :=
  { State.reset with
    cfg := { bufLen := 8 }, readHead := rh, writeHead := wh
    buf := [(0, 0x10), (1, 0x11), (2, 0x12), (3, 0x13), (4, 0x14), (5, 0x15), (6, 0x16), (7, 0x77)] }

/-- Port `Ext` in use, `SCTRL` written 0x38, with these FIFOs. -/
def serial (rx tx : List Byte) : State :=
  { State.reset with
    port := some .ext, serState := .active
    ext := { ctrl := 0, baud := 0, subfn := 3, rint := true, rxFifo := rx, txFifo := tx, txLine := [] } }

/-- The same with the two other enables open: `MODE.IE` set, mask level 1. -/
def enabled (rx : List Byte) : State := { serial rx [] with modeReg := 0x08, imask := 1 }

-- V-A1, V-A5, V-A10
theorem test_wrArbctl_request : out (fun t => (t.req, t.taken)) (runs 0x80000001 State.reset) = some (true, false) := by
  decide
theorem test_wrArbctl_reset_and_request :
    out (fun t => (t.req, t.taken, t.cpReady)) (runs 0x80000003 { State.reset with cpReady := true }) =
      some (true, true, false) := by decide
-- V-A17, V-A14
theorem test_rdArbctl : out State.result (runs 0x00000000 { State.reset with taken := true }) = some (.value 0) := by
  decide
theorem test_rdArbstat :
    out State.result (runs 0x00010000 { State.reset with taken := true, cpReady := true }) = some (.value 3) := by
  decide
-- V-A2, V-A4
theorem test_grant :
    out State.taken (step { State.reset with req := true, script := [.grant] }) = some true := by decide
theorem test_resume :
    out State.taken (step { State.reset with taken := true, script := [.resume] }) = some false := by decide
theorem test_cpStep_while_taken :
    out State.cpReady (step { State.reset with taken := true, script := [.cpStep ⟨1⟩ [(0, 1)] true] }) = some false := by
  decide
-- R120's example, V-M8
theorem test_mrd : out State.result (runs 0x40001000 owned) = some (.value 0x7E) := by decide
theorem test_mrd_range_first : out State.flt (runs 0x40200000 State.reset) = some 0x02 := by decide
-- V-M3, V-M6
theorem test_mwr_last_address : out State.cpmem (runs 0xC01FFFAA owned) = some [(0x10, 0x7E), (0x1FFF, 0xAA)] := by
  decide
theorem test_mwr_not_owned :
    out (fun t => (t.flt, t.cpmem)) (runs 0xC00000F3 { State.reset with req := true }) = some (0x01, []) := by decide
theorem test_requestBus :
    out (fun t => (t.req, t.mainPos)) (exec (.requestBus false) State.reset) = some (true, .pollTaken 0 none) := by
  decide
theorem test_releaseBus : out (fun t => (t.req, t.taken)) (exec .releaseBus owned) = some (false, true) := by decide
theorem test_isBusTaken_released :
    out State.result (exec .isBusTaken { State.reset with taken := true }) = some (.bool true) := by decide
theorem test_uploadProgram :
    out (fun t => (t.taken, t.mainPos)) (exec (.uploadProgram [0xF3, 0xC3, 0] 2 true) State.reset) =
      some (true, .pollTaken 0 (some [0xF3, 0xC3])) := by decide
theorem test_uploadProgram_ready_poll :
    out State.result (step { State.reset with cpReady := true, mainPos := .pollReady 7, script := [.main] }) =
      some .ok := by decide
-- R205, table 2.2: the poll bound of 3 is exhausted
theorem test_requestBus_bound :
    out State.mainPos (step { State.reset with
      cfg := { pollBound := some 3 }, req := true, mainPos := .pollTaken 2 none, script := [.main] }) =
      some .withdraw := by decide
-- V-E9: every illegal word sets bit 2 alone
theorem test_illegal_word : out State.flt (runs 0x80030000 State.reset) = some 0x04 := by decide

-- V-S5, R141's example
theorem test_wrCtrl : out (fun t => t.ext.ctrl) (runs 0x801001FF State.reset) = some 0xFF := by decide
theorem test_rdCtrl :
    out State.result (runs 0x00140000 { State.reset with ctrl2 := { PortRegs.reset with ctrl := 0x7F } }) =
      some (.value 0x7F) := by decide
-- V-S1, V-S3
theorem test_wrSctrl :
    out (fun t => (t.ext.baud, t.ext.subfn, t.ext.rint)) (runs 0x801100FF State.reset) = some (3, 3, true) := by decide
theorem test_wrSctrl_other_port : out State.ctrl2 (runs 0x801100FF State.reset) = some PortRegs.reset := by decide
-- V-S4, R144's example
theorem test_rdSctrl : out State.result (runs 0x00110000 (serial [0x48] [0x41])) = some (.value 0x3B) := by decide
theorem test_rdSctrl_tx_empty : out State.result (runs 0x00110000 (serial [0x48] [])) = some (.value 0x3A) := by decide
-- V-S6, V-S8
theorem test_wrTxdata : out (fun t => t.ext.txFifo) (runs 0x80120041 (serial [] [])) = some [0x41] := by decide
theorem test_wrTxdata_full : out State.flt (runs 0x80120042 (serial [] [0x41])) = some 0x10 := by decide
-- V-S12, V-S13
theorem test_rdRxdata :
    out (fun t => (t.result, t.ext.rxFifo)) (runs 0x00130000 (serial [0x48, 0x45] [])) =
      some (.value 0x48, [0x45]) := by decide
theorem test_rdRxdata_empty : out State.flt (runs 0x00130000 (serial [] [])) = some 0x08 := by decide
-- V-S9, V-S10, V-S11
theorem test_txShift :
    out (fun t => (t.ext.txFifo, t.ext.txLine)) (step { serial [] [0x41] with script := [.txShift .ext] }) =
      some ([], [0x41]) := by decide
theorem test_rxArrive :
    out (fun t => t.ext.rxFifo) (step { serial [] [] with script := [.rxArrive .ext 0x48] }) = some [0x48] := by decide
theorem test_rxArrive_full :
    out State.flt (step { serial [0x48] [] with script := [.rxArrive .ext 0x45] }) = some 0x20 := by decide
theorem test_serialInit :
    out (fun t => (t.port, t.mainPos)) (exec (.serialInit .ctrl2 true) State.reset) =
      some (some .ctrl2, .initSctrl .ctrl2 true) := by decide
-- R148's example: 0x38 goes to SCTRL, and MODE keeps 0x74 with bit 3 set (P3)
theorem test_serialInit_mode :
    out (fun t => (t.modeReg, t.serState)) (step { State.reset with
      modeReg := 0x74, mainPos := .initModeWrite 0x74, script := [.main] }) = some (0x7C, .configured) := by decide
theorem test_isPresent : out State.result (exec .isPresent State.reset) = some (.bool true) := by decide
-- V-S7
theorem test_writeReady : out State.result (exec .writeReady (serial [] [0x41])) = some (.bool false) := by decide
theorem test_serWrite : out (fun t => t.ext.txFifo) (exec (.serWrite 0x41) (serial [] [])) = some [0x41] := by decide
-- V-S15
theorem test_readReady_no_port : out State.result (exec .readReady State.reset) = some .serialNotInit := by decide
theorem test_readReady : out State.result (exec .readReady (serial [0x48] [])) = some (.bool true) := by decide
theorem test_serRead : out State.result (exec .serRead (serial [0x48, 0x45] [])) = some (.byte 0x48) := by decide
theorem test_resetFifos_empty : out State.mainPos (exec .resetFifos (serial [] [])) = some (.ringClear none) := by decide
theorem test_resetFifos_first_byte :
    out State.mainPos (exec .resetFifos (serial [0x99] [])) = some (.fifoPop .ext none) := by decide
-- S5: code 3 is 300 at the default, code 1 is 4800
theorem test_baudRate :
    out State.result (exec .baudRate { serial [] [] with ext := { PortRegs.reset with baud := 3 } }) =
      some (.rate .b300) := by decide
theorem test_baudRate_4800 :
    out State.result (exec .baudRate { serial [] [] with ext := { PortRegs.reset with baud := 1 } }) =
      some (.rate .b4800) := by decide

-- V-R11, V-R13
theorem test_wrRbdata_wraps :
    out (fun t => (t.writeHead, t.flt)) (runs 0x80301234 (ring 3 7)) = some (0, 0) := by decide
theorem test_wrRbdata_full :
    out (fun t => (t.writeHead, t.flt)) (runs 0x803000EE (ring 0 7)) = some (0, 0x40) := by decide
-- V-R12, V-R15
theorem test_rdRbdata_wraps :
    out (fun t => (t.result, t.readHead)) (runs 0x00300000 (ring 7 2)) = some (.value 0x77, 0) := by decide
theorem test_rdRbdata_empty : out (fun t => (t.readHead, t.flt)) (runs 0x00300000 (ring 0 0)) = some (1, 0x80) := by
  decide
theorem test_rdRbstat : out State.result (runs 0x00310000 (ring 5 5)) = some (.value 0) := by decide
-- V-R4, V-R2
theorem test_rdRbavail_wrapped : out State.result (runs 0x00320000 (ring 1 0)) = some (.value 1) := by decide
theorem test_rdRbavail : out State.result (runs 0x00320000 (ring 0 3)) = some (.value 4) := by decide
-- V-R18
theorem test_rdRbrd : out State.result (runs 0x00330000 (ring 7 2)) = some (.value 7) := by decide
theorem test_rdRbwr : out State.result (runs 0x00340000 (ring 7 2)) = some (.value 2) := by decide
-- V-R16, V-R17
theorem test_wrRbctl : out (fun t => (t.readHead, t.writeHead)) (runs 0x80350001 (ring 7 2)) = some (0, 0) := by decide
theorem test_wrRbctl_no_clear :
    out (fun t => (t.readHead, t.writeHead)) (runs 0x8035FFFE (ring 7 2)) = some (7, 2) := by decide
-- V-R14
theorem test_rbWrite_strict :
    out (fun t => (t.writeHead, t.flt))
      (exec (.rbWrite 0xEE) { ring 0 7 with cfg := { bufLen := 8, rbStrict := true } }) =
      some (7, 0x40) := by decide
theorem test_rbRead : out State.result (exec .rbRead (ring 7 2)) = some (.byte 0x77) := by decide
theorem test_rbCanRead : out State.result (exec .rbCanRead (ring 7 2)) = some (.bool true) := by decide
-- V-R5
theorem test_rbAvailable : out State.result (exec .rbAvailable (ring 5 2)) = some (.value 3) := by decide
theorem test_rxDrain : out State.mainPos (exec .rxDrain (serial [0x48] [])) = some (.drain .ext .atRead) := by decide
theorem test_rxDrain_empty : out State.result (exec .rxDrain (serial [] [])) = some .void := by decide

-- R208's example, V-I10, V-I11, V-I12
theorem test_rdFlt : out State.result (runs 0x00020000 { State.reset with flt := 0x80 }) = some (.value 0x80) := by
  decide
theorem test_wrMode : out State.modeReg (runs 0x802001FF State.reset) = some 0xFF := by decide
theorem test_rdMode : out State.result (runs 0x00200000 { State.reset with modeReg := 0x7C }) = some (.value 0x7C) := by
  decide
theorem test_wrImask : out State.imask (runs 0x8021000F State.reset) = some 7 := by decide
theorem test_rdImask : out State.result (runs 0x00210000 State.reset) = some (.value 7) := by decide

/-- The interrupt condition: vectors V-I1 to V-I7, and V-I8 on the other port. -/
theorem test_irq :
    irq (enabled [1]) = true ∧ irq { enabled [1] with imask := 0 } = true ∧
    irq { enabled [1] with imask := 2 } = false ∧ irq { enabled [1] with imask := 7 } = false ∧
    irq { enabled [1] with modeReg := 0xF7 } = false ∧
    irq { enabled [1] with ext := { (enabled [1]).ext with rint := false } } = false ∧ irq (enabled []) = false ∧
    irq { enabled [] with ctrl2 := (enabled [1]).ext } = true := by decide

theorem test_intEnter :
    out (fun t => (t.inIrq, t.intPos)) (step { enabled [1] with script := [.int] }) = some (true, some .atCheck) := by
  decide

/-- The order of the drain routine (R180): what was read goes to the ring. -/
theorem test_drain_write :
    out (fun t => (t.writeHead, t.intPos))
      (step { enabled [] with inIrq := true, intPos := some (.atWrite 0x48), script := [.int] }) =
      some (1, some .atCheck) := by decide

/-- An upload of an image shorter than its length runs: the first transaction is issued all the same (log 17). -/
theorem test_upload_short :
    out (fun t => (t.req, (uploadBytes [0xF3] 2 t).length)) (exec (.uploadProgram [0xF3] 2 true) State.reset) =
      some (true, 2) := by decide

/-- The interrupt context at the end of its drain, with a handler that issues these commands then (R243). -/
def handling (cs : List Cmd) (s : State) : State := { s with inIrq := true, handler := cs, script := [.int] }

/-- P6 and *Case 2* of R243: the handler's `WR.ARBCTL #0` takes the bus from the main context, whose next `MWR` is
flagged. -/
theorem test_handler_drops_the_bus :
    out (fun t => (t.req, t.taken, t.mainPos, t.inIrq)) (step (handling [.txn 0x80000000] owned)) =
      some (false, true, .idle, true) ∧
    out State.flt (runs 0xC00000F3 { owned with req := false }) = some 0x01 := by decide

/-- *Case 1* of R243: the handler's `RequestBus` while the main context polls goes on to a poll of its own. -/
theorem test_handler_requests :
    out (fun t => (t.req, t.mainPos, t.intOp)) (step (handling [.op (.requestBus false)]
      { State.reset with req := true, mainPos := .pollTaken 4 none })) =
      some (true, .pollTaken 4 none, .pollTaken 0 none) := by decide

/-- The rights table (R213), a row at a time: `MAIN` against `INT`. -/
theorem test_rights_table :
    (mayIssue .main .releaseBus owned = true ∧ mayIssue .int .releaseBus owned = false) ∧
    (mayIssue .main (.mrd 0) owned = true ∧ mayIssue .main (.mrd 0) State.reset = false ∧
      mayIssue .int (.mrd 0) owned = false) ∧
    (mayIssue .main (.wrRbdata 0) owned = false ∧ mayIssue .int (.wrRbdata 0) owned = true) ∧
    (mayIssue .main .rdRbdata owned = true ∧ mayIssue .int .rdRbdata owned = false) ∧
    (mayIssue .main .rdRbstat owned = true ∧ mayIssue .int .rdRbstat owned = true) ∧
    (mayIssue .main (.rdRxdata .ext) (enabled []) = false ∧ mayIssue .main (.rdRxdata .ext) (serial [] []) = true ∧
      mayIssue .int (.rdRxdata .ext) (enabled []) = true) ∧
    (mayIssue .main .resetFifos (enabled []) = false ∧ mayIssue .main .resetFifos (serial [] []) = true ∧
      mayIssue .main (.wrRbctl 1) (serial [] []) = false ∧ mayIssue .int .resetFifos (serial [] []) = false) ∧
    (mayIssue .main (.wrMode 8) owned = false ∧ mayIssue .main (.serialInit .ext true) State.reset = true ∧
      mayIssue .int (.wrMode 8) owned = false) := by decide

/-! ### Witnesses: a concrete state and operands that meet the hypotheses of each statement, clause by clause -/

/-- `MAIN` moves next, with this command list. -/
def prog (cs : List Cmd) : State := { State.reset with prog := cs, script := [.main] }

/-- `MAIN` moves next, inside an operation. -/
def inside (pos : MainPos) (s : State) : State := { s with mainPos := pos, script := [.main] }

theorem witness_DecodeOfEncodeIsTheInstruction : (Instr.mwr 0xFFFF 0x12).level0 = true := rfl

theorem witness_EncodeOfDecodeIsTheWord : decode 0x80350001 = .ok (.wrRbctl 1) := by decide

theorem witness_StepRunsTheFetchedCommand_word :
    MainTurn (prog [.txn 0x80000001]) ∧ (prog [.txn 0x80000001]).mainPos = .idle ∧
    fetch (prog [.txn 0x80000001]) = some (.txn 0x80000001) ∧ decode 0x80000001 = .ok (.wrArbctl 1) :=
  ⟨⟨rfl, rfl⟩, rfl, rfl, by decide⟩

theorem witness_StepRunsTheFetchedCommand_name :
    MainTurn (prog [.op .isPresent]) ∧ (prog [.op .isPresent]).mainPos = .idle ∧
    fetch (prog [.op .isPresent]) = some (.op .isPresent) := ⟨⟨rfl, rfl⟩, rfl, rfl⟩

theorem witness_PlacedWordRunsNext : decode (BitVec.ofNat 32 0x00010000) = .ok .rdArbstat := by decide

theorem witness_IllegalWordRaisesBadTxnAlone_write :
    MainTurn (prog [.txn 0x80030000]) ∧ (prog [.txn 0x80030000]).mainPos = .idle ∧
    fetch (prog [.txn 0x80030000]) = some (.txn 0x80030000) ∧
    decode 0x80030000 = .error .unimplementedRegister ∧ (0x80030000 : TxnWord).getLsbD 31 = true :=
  ⟨⟨rfl, rfl⟩, rfl, rfl, by decide, by decide⟩

theorem witness_IllegalWordRaisesBadTxnAlone_read :
    MainTurn (prog [.txn 0x00350000]) ∧ (prog [.txn 0x00350000]).mainPos = .idle ∧
    fetch (prog [.txn 0x00350000]) = some (.txn 0x00350000) ∧
    decode 0x00350000 = .error .illegalDirection ∧ (0x00350000 : TxnWord).getLsbD 31 = false :=
  ⟨⟨rfl, rfl⟩, rfl, rfl, by decide, by decide⟩

theorem witness_InterruptContextPreemptsMain_blocked :
    (inside .idle { State.reset with inIrq := true }).inIrq = true ∧
    nextMove (inside .idle { State.reset with inIrq := true }) = .main := ⟨rfl, rfl⟩

theorem witness_InterruptContextPreemptsMain_enter :
    ({ enabled [1] with mainPos := .pollTaken 0 none, script := [.int] } : State).inIrq = false ∧
    irq { enabled [1] with mainPos := .pollTaken 0 none, script := [.int] } = true ∧
    nextMove { enabled [1] with mainPos := .pollTaken 0 none, script := [.int] } = .int := by decide

theorem witness_StepRunsTheFetchedCommand_jump :
    MainTurn (prog [.jump 0]) ∧ (prog [.jump 0]).mainPos = .idle ∧ fetch (prog [.jump 0]) = some (.jump 0) :=
  ⟨⟨rfl, rfl⟩, rfl, rfl⟩

theorem witness_StepRunsTheFetchedCommand_jumpIf :
    MainTurn (prog [.jumpIf (.equals .void) 5]) ∧ (prog [.jumpIf (.equals .void) 5]).mainPos = .idle ∧
    fetch (prog [.jumpIf (.equals .void) 5]) = some (.jumpIf (.equals .void) 5) ∧
    (Cond.equals .void).holds State.reset.result = true ∧ (Cond.differs .void).holds State.reset.result = false :=
  ⟨⟨rfl, rfl⟩, rfl, rfl, by decide, by decide⟩

/-- A word and a name in a handler's list, with the routine at its exit and with no port selected; inside an operation;
and the `WR.ARBCTL #0` of a handler against a polling main context. -/
theorem witness_TheHandlerIssuesAfterTheDrain :
    (nextMove (handling [.txn 0x80000000] owned) = .int ∧ (handling [.txn 0x80000000] owned).inIrq = true ∧
      drainOver (handling [.txn 0x80000000] owned) = true ∧ (handling [.txn 0x80000000] owned).intOp = .idle ∧
      (handling [.txn 0x80000000] owned).handler[0]? = some (.txn 0x80000000) ∧
      decode 0x80000000 = .ok (.wrArbctl 0) ∧ stepArbctl (handling [.txn 0x80000000] owned) = some 0) ∧
    (drainOver { handling [.op .releaseBus] owned with intPos := some .atCheck } = true ∧
      (handling [.op .releaseBus] owned).handler[0]? = some (.op .releaseBus)) ∧
    (nextMove (handling [] { owned with intOp := .withdraw }) = .int ∧
      drainOver (handling [] { owned with intOp := .withdraw }) = true ∧
      (handling [] { owned with intOp := .withdraw }).intOp ≠ .idle ∧
      stepArbctl (handling [] { owned with intOp := .withdraw }) = some 0) := by decide

/-- A main context that polls in `RELEASED`, its own step and one of the interrupt context, neither a write of `ARBCTL`. -/
theorem witness_TheHandlerIssuesAfterTheDrain_hang :
    State.reset.req = false ∧ State.reset.taken = false ∧ State.reset.cfg.pollBound = none ∧
    (inside (.pollTaken 7 none) State.reset).mainPos = .pollTaken 7 none ∧
    stepArbctl (inside (.pollTaken 7 none) State.reset) = none ∧
    out State.mainPos (step (inside (.pollTaken 7 none) State.reset)) = some (.pollTaken 8 none) ∧
    stepArbctl (handling [] { State.reset with mainPos := .pollTaken 7 none }) = none := by decide

theorem witness_WriteArbctlSetsRequestAndResets :
    (3 : Word).getLsbD 1 = true ∧ (1 : Word).getLsbD 1 = false := by decide

/-- The last address in range, owned; the first out of range; and in range, not owned. -/
theorem witness_ReadCoprocessorByte :
    ((0x1FFF : Word).toNat < owned.cfg.cpmemSize ∧ owned.req = true ∧ owned.taken = true) ∧
    owned.cfg.cpmemSize ≤ (0x2000 : Word).toNat ∧
    ((0x1FFF : Word).toNat < State.reset.cfg.cpmemSize ∧ (State.reset.req && State.reset.taken) = false) := by decide

theorem witness_WriteCoprocessorByte :
    ((0x1FFF : Word).toNat < owned.cfg.cpmemSize ∧ owned.req = true ∧ owned.taken = true) ∧
    owned.cfg.cpmemSize ≤ (0x2000 : Word).toNat ∧
    ((0 : Word).toNat < State.reset.cfg.cpmemSize ∧ (State.reset.req && State.reset.taken) = false) := by decide

theorem witness_GrantAndResume :
    nextMove { State.reset with req := true, script := [.grant] } = .grant ∧
    nextMove { State.reset with taken := true, script := [.resume] } = .resume := ⟨rfl, rfl⟩

theorem witness_CpStepIsAnyFirmwareStep :
    (nextMove { State.reset with script := [.cpStep ⟨1⟩ [(0, 0xAA)] true] } = .cpStep ⟨1⟩ [(0, 0xAA)] true ∧
      State.reset.taken = false ∧ (∀ x ∈ [((0 : Nat), (0xAA : Byte))], x.1 ≠ 1) ∧ State.reset.cfg.cpmemSize ≤ 8192) ∧
    (nextMove { owned with script := [.cpStep ⟨1⟩ [] true] } = .cpStep ⟨1⟩ [] true ∧ owned.taken = true) := by decide

/-- A firmware step that gives the two bytes of a small coprocessor memory the values of a function. -/
theorem witness_CpStepIsAnyFirmwareStep_content :
    ({ State.reset with cfg := { cpmemSize := 2 }, script := [.cpStep ⟨0⟩ [(0, 5), (1, 6)] false] } : State).cfg.cpmemSize
      = 2 ∧
    out (fun t => (cpByte t 0, cpByte t 1)) (step { State.reset with
      cfg := { cpmemSize := 2 }, script := [.cpStep ⟨0⟩ [(0, 5), (1, 6)] false] }) = some (5, 6) := by decide

theorem witness_RequestBusPollsUntilTaken_poll :
    MainTurn (inside (.pollTaken 0 none) owned) ∧ (inside (.pollTaken 0 none) owned).mainPos = .pollTaken 0 none ∧
    (inside (.pollTaken 0 none) owned).taken = true ∧
    (inside (.pollTaken 0 none) State.reset).taken = false ∧
    (inside (.pollTaken 0 none) State.reset).cfg.pollBound = none := ⟨⟨rfl, rfl⟩, rfl, rfl, rfl, rfl⟩

/-- The bound of 3: after one unsuccessful poll the next goes on, after two the next is the last. -/
theorem witness_RequestBusPollsUntilTaken_bound :
    MainTurn (inside (.pollTaken 2 none) { State.reset with cfg := { pollBound := some 3 } }) ∧
    (inside (.pollTaken 2 none) { State.reset with cfg := { pollBound := some 3 } }).taken = false ∧
    (inside (.pollTaken 2 none) { State.reset with cfg := { pollBound := some 3 } }).cfg.pollBound = some 3 ∧
    1 + 1 < 3 ∧ 3 ≤ 2 + 1 := ⟨⟨rfl, rfl⟩, rfl, rfl, by decide, by decide⟩

theorem witness_RequestBusPollsUntilTaken_withdraw :
    MainTurn (inside .withdraw State.reset) ∧ (inside .withdraw State.reset).mainPos = .withdraw :=
  ⟨⟨rfl, rfl⟩, rfl⟩

/-- After `RequestBus(true)` from reset: a byte arrives, then `MAIN` polls. -/
def requested : State :=
  { State.reset with
    req := true, taken := true, mainPos := .pollTaken 0 none, script := [.rxArrive .ext 0x48, .main] }

def requestedLater : State :=
  { requested with ext := { PortRegs.reset with rxFifo := [0x48] }, script := [.main] }

theorem witness_RequestBusWithResetNeedsNoFairness :
    intWithinRights { State.reset with script := [.rxArrive .ext 0x48, .main] } = true ∧
    exec (.requestBus true) { State.reset with script := [.rxArrive .ext 0x48, .main] } = .next requested ∧
    step requested = .next requestedLater ∧ nextMove requested ≠ .main ∧ MainTurn requestedLater :=
  ⟨rfl, rfl, rfl, by decide, rfl, rfl⟩

theorem witness_OwnershipSurvivesTheOtherAgents :
    primaryOwns { owned with script := [.resume] } = true ∧ intWithinRights { owned with script := [.resume] } = true ∧
    nextMove { owned with script := [.resume] } ≠ .main := by decide

theorem witness_OwnedAccessesRaiseNoFault :
    primaryOwns owned = true ∧ ((0 : Word).toNat < owned.cfg.cpmemSize ∧ (0x1FFF : Word).toNat < owned.cfg.cpmemSize) := by
  decide

/-- A byte changed by the coprocessor, by the main context while it owns the bus, and by a handler that breaks its
rights. -/
theorem witness_OnlyTheOwnerChangesCoprocessorMemory :
    out (fun t => cpByte t 0x10) (step { owned with req := false, taken := false, script := [.cpStep ⟨0⟩ [(0x10, 1)] false] })
      = some 1 ∧
    out (fun t => cpByte t 0x10) (runs 0xC0001002 owned) = some 2 ∧
    out (fun t => cpByte t 0x10) (step (handling [.txn 0xC0001003] owned)) = some 3 ∧
    intWithinRights (handling [.txn 0xC0001003] owned) = false ∧ cpByte owned 0x10 = 0x7E := by decide

/-- A step from each of the four handshake states. -/
theorem witness_HandshakeMovesOnlyAsTheTableSays :
    handshake State.reset = .released ∧ out handshake (runs 0x80000001 State.reset) = some .reqPending ∧
    out handshake (step { State.reset with req := true, script := [.grant] }) = some .owned ∧
    out handshake (runs 0x80000000 owned) = some .relPending ∧
    out handshake (step { State.reset with taken := true, script := [.resume] }) = some .released := by decide

/-- A `WR.ARBCTL` from each context, by word and by name, and none: from `REL_PENDING` a new request. -/
theorem witness_HandshakeMovesOnlyAsTheTableSays_write :
    stepArbctl (State.reset.withFetchWord 32 0x80000003) = some 3 ∧
    stepArbctl (prog [.op (.requestBus false)]) = some 1 ∧
    intWithinRights (prog [.op (.requestBus false)]) = true ∧ stepArbctl (handling [.txn 0x80000001] owned) = some 1 ∧
    stepArbctl (State.reset.withFetchWord 32 0x00010000) = none ∧
    nextMove (State.reset.withFetchWord 32 0x00010000) = .main ∧
    out handshake (runs 0x80000001 { State.reset with taken := true }) = some .owned := by decide

theorem witness_UploadProgramCopiesReleasesAndPolls :
    2 ≤ [(1 : Byte), 2].length ∧ [(1 : Byte), 2].length < 3 ∧
    MainTurn (inside (.pollTaken 0 (some [1])) owned) ∧ (inside (.pollTaken 0 (some [1])) owned).taken = true ∧
    MainTurn (inside (.copy 0x1FFF [1, 2]) owned) ∧ MainTurn (inside (.copy 0x2000 [2]) owned) ∧
    MainTurn (inside (.copy 2 []) owned) ∧ MainTurn (inside (.pollReady 0) State.reset) :=
  ⟨by decide, by decide, ⟨rfl, rfl⟩, rfl, ⟨rfl, rfl⟩, ⟨rfl, rfl⟩, ⟨rfl, rfl⟩, rfl, rfl⟩

/-- The `TAKEN` poll of an upload with the bus not taken: without a bound, below the bound of 3 and at it; then the
withdrawal. -/
theorem witness_UploadProgramCopiesReleasesAndPolls_poll :
    MainTurn (inside (.pollTaken 2 (some [1])) { State.reset with cfg := { pollBound := some 3 } }) ∧
    (inside (.pollTaken 2 (some [1])) State.reset).taken = false ∧
    (inside (.pollTaken 2 (some [1])) State.reset).cfg.pollBound = none ∧
    (inside (.pollTaken 2 (some [1])) { State.reset with cfg := { pollBound := some 3 } }).cfg.pollBound = some 3 ∧
    1 + 1 < 3 ∧ 3 ≤ 2 + 1 ∧ MainTurn (inside .withdraw State.reset) :=
  ⟨⟨rfl, rfl⟩, rfl, rfl, rfl, by decide, by decide, rfl, rfl⟩

theorem witness_UploadProgramCopiesReleasesAndPolls_ready :
    (inside (.pollReady 0) { State.reset with cpReady := true }).cpReady = true ∧
    (inside (.pollReady 0) State.reset).cpReady = false ∧ (inside (.pollReady 0) State.reset).cfg.pollBound = none ∧
    (inside (.pollReady 2) { State.reset with cfg := { pollBound := some 3 } }).cfg.pollBound = some 3 ∧
    1 + 1 < 3 ∧ 3 ≤ 2 + 1 := by decide

/-- An upload that ends at the last byte of coprocessor memory. -/
theorem witness_UploadProgramStoresTheImage :
    State.reset.inIrq = false ∧
    (8190 : Nat) + 2 ≤ ({ uploadBase := 8190 } : Params).cpmemSize ∧
    ({ State.reset with cfg := { uploadBase := 8190 }, script := [.main, .main, .main, .main, .grant] } : State).script =
      List.replicate (2 + 2) .main ++ [.grant] := by decide

/-- The schedule that gives the arbiter and the main context turns by turns. -/
def turns (n : Nat) : Move := if n % 2 = 0 then .grant else .main

/-- A run under that schedule: pending, granted, returned, and then nothing more. -/
def granted : Nat → State
  | 0 => { State.reset with req := true, mainPos := .pollTaken 0 none }
  | 1 => { State.reset with req := true, taken := true, mainPos := .pollTaken 0 none }
  | _ + 2 => { State.reset with req := true, taken := true, result := .ok }

theorem witness_RequestBusReturnsUnderFairGrant :
    IsRun turns granted ∧ FairGrant turns granted ∧ MainProgresses turns granted ∧ intWithinRights (granted 0) = true ∧
    (granted 0).mainPos = .pollTaken 0 none ∧ (granted 0).req = true ∧ (granted 0).cfg.pollBound = none := by
  refine ⟨fun n => ?_, fun n _ => ⟨2 * n, by omega, ?_⟩, fun n => ⟨2 * n + 3, by omega, ?_, rfl⟩, rfl, rfl, rfl, rfl⟩
  · match n with
    | 0 => rfl
    | 1 => rfl
    | n + 2 =>
      rcases Nat.mod_two_eq_zero_or_one (n + 2) with h | h
      · rw [turns, if_pos h]; rfl
      · rw [turns, if_neg (by omega)]; rfl
  · rw [turns, if_pos (by omega)]
  · rw [turns, if_neg (by omega)]

/-- The schedule of an upload of no bytes: the poll, the release, `RESUME`, a firmware step, and then `MAIN`. -/
def uploadTurns : Nat → Move
  | 2 => .resume
  | 3 => .cpStep ⟨1⟩ [] true
  | _ => .main

/-- The run under it: owned, polled, released, resumed, ready, returned, and then nothing more. -/
def uploaded : Nat → State
  | 0 => { State.reset with req := true, taken := true, mainPos := .pollTaken 0 (some []) }
  | 1 => { State.reset with req := true, taken := true, mainPos := .copy 0 [] }
  | 2 => { State.reset with taken := true, mainPos := .pollReady 0 }
  | 3 => { State.reset with mainPos := .pollReady 0 }
  | 4 => { State.reset with cpState := ⟨1⟩, cpReady := true, mainPos := .pollReady 0 }
  | _ + 5 => { State.reset with cpState := ⟨1⟩, cpReady := true, result := .ok }

/-- V-A6: `WR.ARBCTL #2` resets a coprocessor it leaves running, so `FAIR_READY` asks nothing of the firmware there; a
write without `RST` is no such step. -/
theorem test_resetsCoprocessor :
    resetsCoprocessor (fun _ => .main) (fun _ => prog [.txn 0x80000002]) 0 = true ∧
    resetsCoprocessor (fun _ => .main) (fun _ => prog [.txn 0x80000001]) 0 = false ∧
    out (fun t => (t.cpReady, cpStepEnabled t)) (step { prog [.txn 0x80000002] with cpReady := true }) =
      some (false, true) := by decide

theorem witness_UploadProgramReturnsUnderFairReady :
    IsRun uploadTurns uploaded ∧ FairResume uploadTurns uploaded ∧ FairReady [] uploadTurns uploaded ∧
    MainProgresses uploadTurns uploaded ∧ intWithinRights (uploaded 0) = true ∧
    (uploaded 0).mainPos = .pollTaken 0 (some []) ∧ primaryOwns (uploaded 0) = true ∧
    (uploaded 0).cpState = (uploaded 0).cfg.cpResetState ∧ (uploaded 0).cpReady = false ∧
    (uploaded 0).cfg.pollBound = none ∧ (uploaded 0).cfg.uploadBase + ([] : List Byte).length ≤ (uploaded 0).cfg.cpmemSize := by
  refine ⟨fun n => ?_, fun n h => ?_, fun n h _ => ⟨n + 4, by omega, fun m hm => ?_⟩, fun n => ⟨n + 5, by omega, rfl, rfl⟩,
    rfl, rfl, rfl, rfl, rfl, rfl, Nat.zero_le _⟩
  · match n with
    | 0 | 1 | 2 | 3 | 4 | _ + 5 => rfl
  · exact absurd (h (n + 5) (by omega)) Bool.false_ne_true
  · obtain ⟨k, rfl⟩ : ∃ k, m = k + 4 := ⟨m - 4, by omega⟩
    cases k <;> rfl

/-- Room for one byte at depth 1; and a full FIFO. -/
theorem witness_WriteTransmitData :
    ((serial [] []).io .ext).txFifo.length < (serial [] []).cfg.txDepth ∧
    1 ≤ (serial [] [0x41]).cfg.txDepth ∧
    (serial [] [0x41]).cfg.txDepth ≤ ((serial [] [0x41]).io .ext).txFifo.length := by decide

theorem witness_ReadReceiveData :
    ((serial [0x48, 0x45] []).io .ext).rxFifo = 0x48 :: [0x45] ∧ ((serial [] []).io .ext).rxFifo = [] := by decide

theorem witness_SerialLineMovesBytes :
    nextMove { serial [] [] with script := [.rxArrive .ext 0x48] } = .rxArrive .ext 0x48 ∧
    ((serial [] []).io .ext).rxFifo.length < (serial [] []).cfg.rxDepth ∧ 1 ≤ (serial [1] []).cfg.rxDepth ∧
    (serial [1] []).cfg.rxDepth ≤ ((serial [1] []).io .ext).rxFifo.length ∧
    nextMove { serial [] [0x41] with script := [.txShift .ext] } = .txShift .ext ∧
    ((serial [] [0x41]).io .ext).txFifo = 0x41 :: [] ∧ ((serial [] []).io .ext).txFifo = [] := by decide

theorem witness_SerialOperationsNeedAPort :
    State.reset.port = none ∧
    Instr.rxDrain ∈ [Instr.writeReady, .serWrite 0, .readReady, .serRead, .resetFifos, .baudRate, .rxDrain] := by decide

theorem witness_SerialQueriesAnswer : (serial [] []).port = some .ext ∧ (serial [] []).serState ≠ .uninitialized := by
  decide

theorem witness_SerialTransfersMoveOneByte :
    (serial [] []).port = some .ext ∧ (serial [] []).serState ≠ .uninitialized ∧
    ((serial [] []).io .ext).txFifo.length < (serial [] []).cfg.txDepth ∧ 1 ≤ (serial [] [1]).cfg.txDepth ∧
    (serial [] [1]).cfg.txDepth ≤ ((serial [] [1]).io .ext).txFifo.length ∧
    ((serial [0x48] []).io .ext).rxFifo = 0x48 :: [] ∧ ((serial [] []).io .ext).rxFifo = [] := by decide

theorem witness_SerialQueriesAnswer_baud : Params.wf {} = true := by decide

theorem witness_ResetFifosDrainsAndClears :
    (serial [0, 0xFF] []).port = some .ext ∧ (serial [0, 0xFF] []).inIrq = false ∧
    (serial [0, 0xFF] []).serState ≠ .uninitialized ∧
    ({ serial [0, 0xFF] [] with script := List.replicate 5 .main ++ [.grant] } : State).script =
      List.replicate (2 * ((serial [0, 0xFF] []).io .ext).rxFifo.length + 1) .main ++ [.grant] := by decide

/-- With one stale byte, in interrupt mode (P3) and without. -/
theorem witness_SerialInitConfiguresThePort :
    State.reset.inIrq = false ∧
    ({ serial [0x99] [] with script := List.replicate 8 .main } : State).script =
      List.replicate (2 * ((serial [0x99] []).io .ext).rxFifo.length + (if true then 6 else 3)) .main ++ [] ∧
    ({ serial [0x99] [] with script := List.replicate 5 .main } : State).script =
      List.replicate (2 * ((serial [0x99] []).io .ext).rxFifo.length + (if false then 6 else 3)) .main ++ [] := by decide

/-- The last step of `SerialInit`, which leaves `Uninitialized`. -/
theorem witness_TransportStaysInitialized :
    PortSelected (inside (.ringClear (some false)) { State.reset with port := some .ext }) ∧
    out State.serState (step (inside (.ringClear (some false)) { State.reset with port := some .ext })) =
      some .configured ∧ PortSelected (serial [] []) ∧ (serial [] []).serState ≠ .uninitialized :=
  ⟨fun _ => by decide, by decide, fun _ => by decide, by decide⟩

/-- Room; full; and full in strict mode. -/
theorem witness_RingWrite :
    (ringFull (ring 3 7) && (ring 3 7).cfg.rbStrict) = false ∧ (ringFull (ring 0 7) && (ring 0 7).cfg.rbStrict) = false ∧
    (ringFull { ring 0 7 with cfg := { bufLen := 8, rbStrict := true } } &&
      ({ bufLen := 8, rbStrict := true } : Params).rbStrict) = true := by decide

/-- Cursors equal at the highest slot, and wrapped. -/
theorem witness_AvailableIsTheLiteralFormula :
    ((ring 7 7).readHead.toNat < (ring 7 7).cfg.bufLen ∧ (ring 7 7).writeHead.toNat < (ring 7 7).cfg.bufLen ∧
      (ring 7 7).cfg.bufLen ≤ 65536 ∧ (ring 7 7).cfg.availCap = (ring 7 7).cfg.bufLen - 1) ∧
    (ring 7 7).readHead.toNat ≤ (ring 7 7).writeHead.toNat ∧ (ring 1 0).writeHead.toNat < (ring 1 0).readHead.toNat := by
  decide

theorem witness_RingStatusAndClear : (1 : Word).getLsbD 0 = true ∧ (0xFFFE : Word).getLsbD 0 = false := by decide

/-- A step of each context within its rights: `INT` writes the ring, `MAIN` clears it inside `ResetFifos`, `MAIN` reads
it, and `SerialInit` writes `IMASK`. -/
theorem witness_RightsKeepTheDiscipline :
    (intWithinRights { enabled [] with inIrq := true, intPos := some (.atWrite 1), script := [.int] } = true ∧
      out State.writeHead (step { enabled [] with inIrq := true, intPos := some (.atWrite 1), script := [.int] }) =
        some 1) ∧
    (mainWithinRights (inside (.ringClear none) (ring 7 2)) = true ∧ intWithinRights (ring 7 2) = true ∧
      out State.writeHead (step (inside (.ringClear none) (ring 7 2))) = some 0) ∧
    (mainWithinRights { ring 7 2 with prog := [.op .rbRead] } = true ∧
      out State.readHead (runs 0x00300000 (ring 7 2)) = some 0) ∧
    (mainWithinRights (inside .initImask (serial [] [])) = true ∧
      out State.imask (step (inside .initImask (serial [] []))) = some 1) := by decide

/-- Every state of the small ring with cursors in range is legal. -/
theorem legal_ring (rh wh : Word) (hr : rh.toNat < 8) (hw : wh.toNat < 8) : Legal (ring rh wh) where
  params := by show Params.wf { bufLen := 8 } = true; decide
  readHead := hr
  writeHead := hw
  rxFifo p := by cases p <;> exact Nat.zero_le _
  txFifo p := by cases p <;> exact Nat.zero_le _
  cpmemForm := rfl
  cpmemRange := rfl
  bufForm := rfl
  bufRange := rfl
  intPos _ := rfl

theorem witness_RingRefinesAQueue :
    Legal (ring 7 2) ∧ ringFull (ring 7 2) = false ∧ ringContents (ring 7 2) = 0x77 :: [0x10, 0x11] :=
  ⟨legal_ring 7 2 (by decide) (by decide), by decide, by decide⟩

/-- The two cursors at the last slot: the bytes cross the wrap. -/
theorem witness_RingKeepsFifoOrder :
    Legal (ring 7 7) ∧ ringEmpty (ring 7 7) = true ∧
    [(1 : Byte), 2, 3, 4, 5, 6, 7].length ≤ (ring 7 7).cfg.bufLen - 1 :=
  ⟨legal_ring 7 7 (by decide) (by decide), by decide, by decide⟩

/-- An empty and a full buffer. -/
theorem witness_EmptyAndFullAreToldApart :
    Legal (ring 7 7) ∧ ringEmpty (ring 7 7) = true ∧ Legal (ring 0 7) ∧ ringFull (ring 0 7) = true :=
  ⟨legal_ring 7 7 (by decide) (by decide), by decide, legal_ring 0 7 (by decide) (by decide), by decide⟩

/-- The interrupt context at the start of the routine, one byte received, the last free slot of the ring. -/
def draining : State :=
  { ring 0 6 with
    inIrq := true, intPos := some .atCheck, port := some .ext, ext := { PortRegs.reset with rxFifo := [0x48] }
    script := [.int, .int, .int, .int] }

theorem legal_draining : Legal draining where
  params := by decide
  readHead := by decide
  writeHead := by decide
  rxFifo p := by cases p <;> decide
  txFifo p := by cases p <;> decide
  cpmemForm := rfl
  cpmemRange := rfl
  bufForm := rfl
  bufRange := by decide
  intPos h := by cases h

theorem witness_DrainRoutineMovesTheFifoIntoTheRing :
    Legal draining ∧ draining.inIrq = true ∧ draining.intPos = some .atCheck ∧ draining.port = some .ext ∧
    ringUsed draining + (draining.io .ext).rxFifo.length ≤ draining.cfg.bufLen - 1 ∧
    draining.script = List.replicate (3 * (draining.io .ext).rxFifo.length + 1) .int ++ [] :=
  ⟨legal_draining, rfl, rfl, rfl, by decide, by decide⟩

/-- The interrupt context at each later step of the routine: a byte to read, none to read, a write with room and one on
a full buffer; and the check with nothing left. -/
theorem witness_DrainRoutineMovesTheFifoIntoTheRing_steps :
    nextMove draining = .int ∧
    (({ draining with intPos := some .atRead } : State).io .ext).rxFifo = 0x48 :: [] ∧
    (({ draining with intPos := some .atRead, ext := PortRegs.reset } : State).io .ext).rxFifo = [] ∧
    ringFull { draining with intPos := some (.atWrite 1) } = false ∧
    ringFull { draining with intPos := some (.atWrite 1), writeHead := 7 } = true ∧
    out (fun t => (t.flt, t.writeHead))
      (step { draining with intPos := some (.atWrite 1), writeHead := 7 }) = some (0x40, 0) := by decide

/-- `MAIN` in the loop of `ResetFifos` with one byte queued, alone: the check, the read, the check that ends it. -/
def resetting : Nat → State
  | 0 => { serial [1] [] with mainPos := .fifoCheck .ext none }
  | 1 => { serial [1] [] with mainPos := .fifoPop .ext none }
  | 2 => { serial [] [] with mainPos := .fifoCheck .ext none }
  | 3 => { serial [] [] with mainPos := .ringClear none }
  | _ + 4 => serial [] []

/-- `INT` in its routine with one byte queued, alone: check, read, write, check, exit. -/
def drainRun : Nat → State
  | 0 => draining
  | 1 => { draining with script := [], intPos := some .atRead }
  | 2 => { draining with script := [], ext := PortRegs.reset, intPos := some (.atWrite 0x48) }
  | 3 => { draining with
      script := [], ext := PortRegs.reset, buf := Memory.put draining.buf 6 0x48, writeHead := 7, intPos := some .atCheck }
  | 4 => { draining with
      script := [], ext := PortRegs.reset, buf := Memory.put draining.buf 6 0x48, writeHead := 7, intPos := none }
  | _ + 5 => { draining with
      script := [], ext := PortRegs.reset, buf := Memory.put draining.buf 6 0x48, writeHead := 7, intPos := none
      inIrq := false }

theorem witness_DrainLoopsEndOnAQuietLine_main :
    IsRun (fun _ => .main) resetting ∧ (resetting 0).mainPos = .fifoCheck .ext none ∧
    QuietForDrain .ext 2 (mainSteps (fun _ => .main) resetting) (fun _ => .main) resetting 0 :=
  ⟨fun n => match n with | 0 | 1 | 2 | 3 | _ + 4 => rfl, rfl, 3, by omega, fun _ _ _ _ => by simp, by decide⟩

theorem witness_DrainLoopsEndOnAQuietLine_int :
    IsRun (fun _ => .int) drainRun ∧
    ((drainRun 0).inIrq = true ∧ (drainRun 0).port = some .ext ∧ (drainRun 0).intPos = some .atCheck) ∧
    QuietForDrain .ext 3 (intSteps (fun _ => .int) drainRun) (fun _ => .int) drainRun 0 :=
  ⟨fun n => match n with | 0 | 1 | 2 | 3 | 4 | _ + 5 => rfl, ⟨rfl, rfl, rfl⟩, 4, by omega, fun _ _ _ _ => by simp, by decide⟩

theorem witness_RxDrainRunsItsLoop_start :
    (serial [] []).port = some .ext ∧ (serial [] []).serState ≠ .uninitialized ∧ ((serial [] []).io .ext).rxFifo = [] ∧
    ((serial [1] []).io .ext).rxFifo ≠ [] := by decide

/-- The later steps of `MAIN` inside `RxDrain`: a read with a byte there and without, a write with room and on a full
buffer, a check with nothing left and with a byte. -/
theorem witness_RxDrainRunsItsLoop_steps :
    MainTurn (inside (.drain .ext .atRead) (serial [1] [])) ∧ ((serial [1] []).io .ext).rxFifo = 1 :: [] ∧
    MainTurn (inside (.drain .ext .atRead) (serial [] [])) ∧ ((serial [] []).io .ext).rxFifo = [] ∧
    MainTurn (inside (.drain .ext (.atWrite 1)) (ring 0 6)) ∧ ringFull (ring 0 6) = false ∧
    MainTurn (inside (.drain .ext (.atWrite 1)) (ring 0 7)) ∧ ringFull (ring 0 7) = true ∧
    MainTurn (inside (.drain .ext .atCheck) (serial [1] [])) :=
  ⟨⟨rfl, rfl⟩, rfl, ⟨rfl, rfl⟩, rfl, ⟨rfl, rfl⟩, by decide, ⟨rfl, rfl⟩, by decide, rfl, rfl⟩

theorem witness_FaultFlagsAreSticky :
    out (fun t => t.flt) (runs 0x00320000 { ring 0 0 with flt := 0x80 }) = some 0x80 ∧
    (0x80 : Byte).getLsbD 7 = true := by decide

theorem witness_EveryStepGoesOnWithAtMostOneFault :
    out State.raised (runs 0x00300000 (ring 0 0)) = some [.rbUnderflow] ∧
    out State.raised (runs 0x00310000 (ring 0 0)) = some [] := by decide

/-- Entry with a port selected, entry with none, and exit: of the handler of R201, and of one with its list exhausted. -/
theorem witness_InterruptEntryAndExit :
    (nextMove { enabled [1] with script := [.int] } = .int ∧ (enabled [1]).inIrq = false ∧ irq (enabled [1]) = true ∧
      (enabled [1]).port ≠ none ∧ (enabled [1]).serState ≠ .uninitialized) ∧
    (irq { enabled [1] with port := none } = true) ∧
    (nextMove { enabled [] with inIrq := true, script := [.int] } = .int ∧
      drainOver { enabled [] with inIrq := true, script := [.int] } = true ∧
      handlerDone { enabled [] with inIrq := true, script := [.int] } = true ∧ (enabled []).handler = [] ∧
      (enabled []).intOp = .idle) ∧
    handlerDone { handling [.op .rbAvailable] owned with intIdx := 1 } = true := by decide

/-- A step that enters the interrupt context, and one that leaves it. -/
theorem witness_ContextChangesOnlyByEntryAndExit :
    (enabled [1]).inIrq = false ∧ out State.inIrq (step { enabled [1] with script := [.int] }) = some true ∧
    out State.inIrq (step { enabled [] with inIrq := true, script := [.int] }) = some false := by decide

theorem witness_NoSelectedPortStarvesMain :
    ({ enabled [1] with port := none, script := [.int, .int] } : State).port = none ∧ (enabled [1]).inIrq = false ∧
    (enabled [1]).intPos = none ∧ (enabled [1]).handler = [] ∧ irq { enabled [1] with port := none, script := [.int, .int] } = true ∧
    ({ enabled [1] with port := none, script := [.int, .int] } : State).script = .int :: .int :: [] := by decide

/-- A legal state, its records in order, and a step from it. -/
theorem witness_StepKeepsTheStateLegal :
    Legal draining ∧ FltRecords draining ∧ intWithinRights draining = true ∧
    out State.intPos (step draining) = some (some .atRead) :=
  ⟨legal_draining, fun k _ => by simp [draining, ring, State.reset], by decide, by decide⟩

end Sys2Proof.Tests
end

