-- ==== Sys2Proof/Proofs/Effects.lean ====
section
/-! PROOF. What one transaction can do to the state: a chain of the shared operations (`exec_effects`,
`continueOp_effects`, `issueNext_effects`). An invariant of every transaction is then one case analysis over `Effect`. -/

namespace Sys2Proof.Machine

open Relation (ReflTransGen)

/-! ### The effects -/

/-- One shared operation of a transaction, or a note of the issuer's own (its result, place, index, port, `serState`).
With `bus = false` the operations that write the handshake or coprocessor memory are left out. -/
inductive Effect (bus : Bool) : State → State → Prop where
  | arbctl (h : bus = true) (d : Word) (s : State) : Effect bus s (writeArbctl d s)
  | memWrite (h : bus = true) (a : Nat) (v : Byte) (s : State) : Effect bus s (memWrite a v s)
  | memRead (a : Nat) (s : State) : Effect bus s (memRead a s).2
  | badTxn (t : TxnWord) (s : State) : Effect bus s (badTxn t s)
  | drawn (s : State) : Effect bus s s.drawn
  | writeCtrl (p : Port) (d : Word) (s : State) : Effect bus s (writeCtrl p d s)
  | writeSctrl (p : Port) (d : Word) (s : State) : Effect bus s (writeSctrl p d s)
  | pushTx (p : Port) (b : Byte) (s : State) : Effect bus s (pushTx p b s)
  | popRx (p : Port) (s : State) : Effect bus s (popRx p s).2
  | ringWrite (b : Byte) (s : State) : Effect bus s (ringWrite b s)
  | ringRead (s : State) : Effect bus s (ringRead s).2
  | ringReset (d : Word) (s : State) : Effect bus s (ringReset d s)
  | writeMode (d : Word) (s : State) : Effect bus s (writeMode d s)
  | writeImask (d : Word) (s : State) : Effect bus s (writeImask d s)
  | note (port : Option Port) (serState : SerState) (idx : Nat) (mainPos : MainPos) (result : Result) (s : State) :
    Effect bus s { s with port := port, serState := serState, idx := idx, mainPos := mainPos, result := result }

/-- A chain of effects. -/
abbrev Effects (bus : Bool) : State → State → Prop := ReflTransGen (Effect bus)

theorem Effect.returns {bus : Bool} (s : State) (r : Result) : Effect bus s (s.returns r) :=
  .note s.port s.serState s.idx s.mainPos r s

theorem Effect.finish {bus : Bool} (s : State) (r : Result) : Effect bus s (s.finish r) :=
  .note s.port s.serState s.idx .idle r s

theorem Effect.place {bus : Bool} (s : State) (pos : MainPos) : Effect bus s { s with mainPos := pos } :=
  .note s.port s.serState s.idx pos s.result s

theorem Effect.index {bus : Bool} (s : State) (k : Nat) : Effect bus s { s with idx := k } :=
  .note s.port s.serState k s.mainPos s.result s

theorem Effect.select {bus : Bool} (s : State) (p : Option Port) : Effect bus s { s with port := p } :=
  .note p s.serState s.idx s.mainPos s.result s

theorem Effect.firstUse {bus : Bool} (s : State) : Effect bus s (firstUse s) := by
  rw [firstUse_eq]
  exact .note s.port _ s.idx s.mainPos s.result s

theorem Effect.initDone {bus : Bool} (s : State) : Effect bus s (initDone s) :=
  .note s.port .configured s.idx .idle .void s

theorem Effect.widen {bus : Bool} {s t : State} (h : Effect bus s t) : Effect true s t := by
  cases h <;> constructor <;> rfl

theorem Effects.widen {bus : Bool} {s t : State} (h : Effects bus s t) : Effects true s t :=
  ReflTransGen.mono (fun _ _ => Effect.widen) _ _ h

/-! ### The chain of each transaction -/

/-- The instruction writes the handshake or coprocessor memory with its first transaction. -/
def writesBus : Instr → Bool
  | .mwr _ _ => true
  | i => (arbctlOf i).isSome

/-- `INT` has no right to an instruction that writes the bus (R213). -/
theorem writesBus_of_intMay {i : Instr} (h : intMay i = true) : writesBus i = false := by
  cases i with
  | wrArbctl | requestBus | releaseBus | uploadProgram | mwr => cases h
  | _ => rfl

theorem serialOp_effects {bus : Bool} {f : Port → State → State} (s : State)
    (hf : ∀ p u, Effects bus u (f p u)) : Effects bus s (serialOp f s) := by
  obtain ⟨-, h⟩ | ⟨p, -, h⟩ := serialOp_cases f s
  · rw [h]; exact .single (.returns s _)
  · rw [h]; exact .head (.firstUse s) (hf p _)

theorem drainStep_effects {bus : Bool} (p : Port) (pos : DrainPos) (s : State) :
    Effects bus s (drainStep p pos s).2 := by
  obtain ⟨-, _, -, h⟩ | ⟨-, h⟩ | ⟨b, -, h⟩ := drainStep_cases p pos s
  · rw [h]
  · rw [h]; exact .single (.popRx p s)
  · rw [h]; exact .single (.ringWrite b s)

theorem mainDrainStep_effects {bus : Bool} (p : Port) (pos : DrainPos) (s : State) :
    Effects bus s (mainDrainStep p pos s) := by
  unfold mainDrainStep
  split
  · exact (drainStep_effects p pos s).tail (.place _ _)
  · exact (drainStep_effects p pos s).tail (.finish _ _)

theorem fifoCheckStep_effects {bus : Bool} (p : Port) (init : Option Bool) (s : State) :
    Effects bus s (fifoCheckStep p init s) :=
  .single (.place s _)

theorem ringClearStep_effects {bus : Bool} (init : Option Bool) (s : State) :
    Effects bus s (ringClearStep init s) := by
  refine .head (.ringReset 1 s) (.single ?_)
  match init with
  | none => exact .finish _ _
  | some false => exact .initDone _
  | some true => exact .place _ _

theorem execUploadProgram_effects (image : List Byte) (length : Nat) (resetFirst : Bool) (s : State) :
    ∃ t, execUploadProgram image length resetFirst s = .next t ∧ Effects true s t := by
  refine ⟨_, rfl, ?_⟩
  split
  · exact .head (.drawn s) (.head (.arbctl rfl _ _) (.single (.place _ _)))
  · exact .head (.arbctl rfl _ s) (.single (.place _ _))

/-- Every instruction answers a next state, by a chain of effects. -/
theorem exec_effects (i : Instr) (s : State) : ∃ t, exec i s = .next t ∧ Effects (writesBus i) s t := by
  cases i with
  | wrArbctl d => exact ⟨_, rfl, .head (.arbctl rfl d s) (.single (.returns _ _))⟩
  | rdArbctl => exact ⟨_, rfl, .single (.returns s _)⟩
  | rdArbstat => exact ⟨_, rfl, .single (.returns s _)⟩
  | rdFlt => exact ⟨_, rfl, .single (.returns s _)⟩
  | wrCtrl p d => exact ⟨_, rfl, .head (.writeCtrl p d s) (.single (.returns _ _))⟩
  | rdCtrl p => exact ⟨_, rfl, .single (.returns s _)⟩
  | wrSctrl p d => exact ⟨_, rfl, .head (.writeSctrl p d s) (.single (.returns _ _))⟩
  | rdSctrl p => exact ⟨_, rfl, .single (.returns s _)⟩
  | wrTxdata p d => exact ⟨_, rfl, .head (.pushTx p _ s) (.single (.returns _ _))⟩
  | rdRxdata p => exact ⟨_, rfl, .head (.popRx p s) (.single (.returns _ _))⟩
  | wrMode d => exact ⟨_, rfl, .head (.writeMode d s) (.single (.returns _ _))⟩
  | rdMode => exact ⟨_, rfl, .single (.returns s _)⟩
  | wrImask d => exact ⟨_, rfl, .head (.writeImask d s) (.single (.returns _ _))⟩
  | rdImask => exact ⟨_, rfl, .single (.returns s _)⟩
  | wrRbdata d => exact ⟨_, rfl, .head (.ringWrite _ s) (.single (.returns _ _))⟩
  | rdRbdata => exact ⟨_, rfl, .head (.ringRead s) (.single (.returns _ _))⟩
  | rdRbstat => exact ⟨_, rfl, .single (.returns s _)⟩
  | rdRbavail => exact ⟨_, rfl, .single (.returns s _)⟩
  | rdRbrd => exact ⟨_, rfl, .single (.returns s _)⟩
  | rdRbwr => exact ⟨_, rfl, .single (.returns s _)⟩
  | wrRbctl d => exact ⟨_, rfl, .head (.ringReset d s) (.single (.returns _ _))⟩
  | mrd a => exact ⟨_, rfl, .head (.memRead _ s) (.single (.returns _ _))⟩
  | mwr a b => exact ⟨_, rfl, .head (.memWrite rfl _ b s) (.single (.returns _ _))⟩
  | requestBus reset => exact ⟨_, rfl, .head (.arbctl rfl _ s) (.single (.place _ _))⟩
  | releaseBus => exact ⟨_, rfl, .head (.arbctl rfl 0 s) (.single (.returns _ _))⟩
  | isBusTaken => exact ⟨_, rfl, .single (.returns s _)⟩
  | uploadProgram image length resetFirst => exact execUploadProgram_effects image length resetFirst s
  | serialInit p rxInt =>
    exact ⟨_, rfl, .head (.select s (some p)) (.head (.writeCtrl p _ _) (.single (.place _ _)))⟩
  | isPresent => exact ⟨_, rfl, .single (.returns s _)⟩
  | writeReady => exact ⟨_, rfl, serialOp_effects s fun _ u => .single (.returns u _)⟩
  | serWrite b =>
    exact ⟨_, rfl, serialOp_effects s fun p u => .head (.pushTx p b u) (.single (.returns _ _))⟩
  | readReady => exact ⟨_, rfl, serialOp_effects s fun _ u => .single (.returns u _)⟩
  | serRead => exact ⟨_, rfl, serialOp_effects s fun p u => .head (.popRx p u) (.single (.returns _ _))⟩
  | resetFifos => exact ⟨_, rfl, serialOp_effects s fun p u => fifoCheckStep_effects p none u⟩
  | baudRate => exact ⟨_, rfl, serialOp_effects s fun _ u => .single (.returns u _)⟩
  | rbWrite b => exact ⟨_, rfl, .head (.ringWrite b s) (.single (.returns _ _))⟩
  | rbRead => exact ⟨_, rfl, .head (.ringRead s) (.single (.returns _ _))⟩
  | rbCanRead => exact ⟨_, rfl, .single (.returns s _)⟩
  | rbAvailable => exact ⟨_, rfl, .single (.returns s _)⟩
  | rxDrain => exact ⟨_, rfl, serialOp_effects s fun p u => mainDrainStep_effects p .atCheck u⟩

/-- Every later transaction of an operation is a chain of effects. -/
theorem continueOp_effects (pos : MainPos) (s : State) : Effects true s (continueOp pos s) := by
  cases pos with
  | idle => exact .refl
  | pollTaken n upload =>
    simp only [continueOp, pollTakenStep]
    split
    · cases upload with
      | none => exact .single (.finish s _)
      | some bytes => exact .single (.place s _)
    · split
      · exact .single (.place s _)
      · exact .single (.place s _)
  | withdraw => exact .head (.arbctl rfl 0 s) (.single (.finish _ _))
  | copy a rest =>
    cases rest with
    | nil => exact .head (.arbctl rfl 0 s) (.single (.place _ _))
    | cons b bs => exact .head (.memWrite rfl a b s) (.single (.place _ _))
  | pollReady n =>
    simp only [continueOp, pollReadyStep]
    split
    · exact .single (.finish s _)
    · split
      · exact .single (.finish s _)
      · exact .single (.place s _)
  | initSctrl p rxInt => exact .head (.writeSctrl p _ s) (.single (.place _ _))
  | fifoCheck p init => exact fifoCheckStep_effects p init s
  | fifoPop p init => exact .head (.popRx p s) (.single (.place _ _))
  | ringClear init => exact ringClearStep_effects init s
  | initImask => exact .head (.writeImask _ s) (.single (.place _ _))
  | initModeRead => exact .single (.place s _)
  | initModeWrite m => exact .head (.writeMode _ s) (.single (.initDone _))
  | drain p pos => exact mainDrainStep_effects p pos s

/-- The command writes the handshake or coprocessor memory with its first transaction. -/
def Cmd.writesBus (c : Cmd) : Bool := !c.within fun i => !Machine.writesBus i

theorem issueTxn_effects (w : TxnWord) (s : State) :
    ∃ t, issueTxn w s = .next t ∧ Effects (Cmd.writesBus (.txn w)) s t := by
  simp only [issueTxn, Cmd.writesBus, Cmd.within]
  cases decode w with
  | ok i => simpa only [Bool.not_not] using exec_effects i s
  | error e => exact ⟨_, rfl, .single (.badTxn w s)⟩

/-- Every command answers a next state, by a chain of effects. -/
theorem issueCmd_effects (c : Cmd) (s : State) : ∃ t, issueCmd c s = .next t ∧ Effects c.writesBus s t := by
  cases c with
  | txn w => exact issueTxn_effects w s
  | op i => simpa only [issueCmd, Cmd.writesBus, Cmd.within, Bool.not_not] using exec_effects i s
  | jump k => exact ⟨_, rfl, .single (.index s k)⟩
  | jumpIf c k =>
    refine ⟨_, rfl, ?_⟩
    split
    · exact .single (.index s k)
    · exact .refl

/-- An issuer's next transaction answers a next state, by a chain of effects. -/
theorem issueNext_effects (s : State) : ∃ t, issueNext s = .next t ∧ Effects true s t := by
  obtain ⟨-, h⟩ | ⟨-, c, -, h⟩ | ⟨-, -, h⟩ := issueNext_cases s
  · exact ⟨_, h, continueOp_effects s.mainPos s⟩
  · obtain ⟨t, ht, he⟩ := issueCmd_effects c s.advance
    exact ⟨t, h.trans ht, .head (.index s (s.idx + 1)) he.widen⟩
  · exact ⟨s, h, .refl⟩

/-! ### What no transaction writes, and what one that leaves the bus alone does not -/

/-- The fields that no transaction of an issuer writes. -/
structure Outside where
  cfg : Params
  prog : List Cmd
  handler : List Cmd
  intIdx : Nat
  intOp : MainPos
  intResult : Result
  inIrq : Bool
  intPos : Option DrainPos

/-- The parameters, the lists, the other issuer's index, place and result, and the interrupt context's own fields. -/
def State.outside (s : State) : Outside :=
  { cfg := s.cfg, prog := s.prog, handler := s.handler, intIdx := s.intIdx, intOp := s.intOp
    intResult := s.intResult, inIrq := s.inIrq, intPos := s.intPos }

@[simp] theorem State.setIo_outside (s : State) (p : Port) (r : PortRegs) : (s.setIo p r).outside = s.outside := by
  cases p <;> rfl

/-- What `WR.ARBCTL` and `MWR` write: the handshake, the coprocessor and its memory. -/
structure Bus where
  req : Bool
  taken : Bool
  cpReady : Bool
  cpState : CpState
  cpmem : Memory

def State.bus (s : State) : Bus :=
  { req := s.req, taken := s.taken, cpReady := s.cpReady, cpState := s.cpState, cpmem := s.cpmem }

@[simp] theorem State.setIo_bus (s : State) (p : Port) (r : PortRegs) : (s.setIo p r).bus = s.bus := by
  cases p <;> rfl

/-- The fields that no transaction writes, and those that only a write of the bus does. -/
def SameFrame (bus : Bool) (s t : State) : Prop := t.outside = s.outside ∧ (bus = false → t.bus = s.bus)

theorem SameFrame.setIo (bus : Bool) (s : State) (p : Port) (r : PortRegs) : SameFrame bus s (s.setIo p r) :=
  ⟨s.setIo_outside p r, fun _ => s.setIo_bus p r⟩

theorem Effect.sameFrame {bus : Bool} {s t : State} (h : Effect bus s t) : SameFrame bus s t := by
  cases h with
  | arbctl hb d =>
    obtain ⟨-, h⟩ | ⟨-, -, h⟩ | ⟨-, -, h⟩ := writeArbctl_cases d s <;> rw [h] <;> exact ⟨rfl, by simp [hb]⟩
  | memWrite hb a v =>
    obtain ⟨-, h⟩ | ⟨-, -, h⟩ | ⟨-, -, h⟩ := memWrite_cases a v s <;> rw [h] <;> exact ⟨rfl, by simp [hb]⟩
  | memRead a =>
    obtain ⟨-, h⟩ | ⟨-, -, h⟩ | ⟨-, -, h⟩ := memRead_cases a s <;> rw [h] <;> exact ⟨rfl, fun _ => rfl⟩
  | badTxn w => obtain ⟨-, h⟩ | ⟨-, h⟩ := badTxn_cases w s <;> rw [h] <;> exact ⟨rfl, fun _ => rfl⟩
  | writeCtrl p d => exact .setIo bus s p _
  | writeSctrl p d => exact .setIo bus s p _
  | pushTx p b =>
    obtain ⟨-, h⟩ | ⟨-, h⟩ := pushTx_cases p b s <;> rw [h]
    · exact .setIo bus s p _
    · exact .setIo bus (s.drawn.raise (.txOverrun p)) p _
  | popRx p =>
    obtain ⟨_, _, -, h⟩ | ⟨-, h⟩ := popRx_cases p s <;> rw [h]
    · exact .setIo bus s p _
    · exact ⟨rfl, fun _ => rfl⟩
  | ringWrite b =>
    obtain ⟨-, h⟩ | ⟨-, -, h⟩ | ⟨-, -, h⟩ := ringWrite_cases b s <;> rw [h] <;> exact ⟨rfl, fun _ => rfl⟩
  | ringRead => obtain ⟨-, h⟩ | ⟨-, h⟩ := ringRead_cases s <;> rw [h] <;> exact ⟨rfl, fun _ => rfl⟩
  | ringReset d => obtain ⟨-, h⟩ | ⟨-, h⟩ := ringReset_cases d s <;> rw [h] <;> exact ⟨rfl, fun _ => rfl⟩
  | drawn | writeMode | writeImask | note => exact ⟨rfl, fun _ => rfl⟩

theorem Effects.sameFrame {bus : Bool} {s t : State} (h : Effects bus s t) : SameFrame bus s t := by
  induction h with
  | refl => exact ⟨rfl, fun _ => rfl⟩
  | tail _ h ih =>
    obtain ⟨ho, hb⟩ := h.sameFrame
    exact ⟨ho.trans ih.1, fun hf => (hb hf).trans (ih.2 hf)⟩

theorem Effects.outside_eq {bus : Bool} {s t : State} (h : Effects bus s t) : t.outside = s.outside := h.sameFrame.1

theorem Effects.bus_eq {s t : State} (h : Effects false s t) : t.bus = s.bus := h.sameFrame.2 rfl

end Sys2Proof.Machine
end

