-- ==== Sys2Proof/Proofs/Legal.lean ====
section
/-! PROOF. Every effect of a transaction, and so every step of every agent, keeps the state legal, the flags a record
of the faults raised, and an interrupt context within its rights so. -/

namespace Sys2Proof.Machine

/-! ### The operations -/

theorem bufLen_bounds_of_wf {c : Params} (h : c.wf = true) : 2 ≤ c.bufLen ∧ c.bufLen ≤ 65536 := by
  simp only [Params.wf, Bool.and_eq_true, decide_eq_true_eq] at h
  omega

theorem FltRecords.raise {s : State} (h : FltRecords s) (f : Raised) : FltRecords (s.raise f) := by
  intro k hk
  rw [raise_bit s f hk, h k hk, State.raise_raised, List.any_append, List.any_cons, List.any_nil, Bool.or_false]
  simp [eq_comm]

theorem Legal.setIo {s : State} (h : Legal s) (p : Port) {r : PortRegs} (hrx : r.rxFifo.length ≤ s.cfg.rxDepth)
    (htx : r.txFifo.length ≤ s.cfg.txDepth) : Legal (s.setIo p r) where
  params := by simpa using h.params
  readHead := by simpa using h.readHead
  writeHead := by simpa using h.writeHead
  rxFifo q := by
    rw [State.setIo_io, State.setIo_cfg]
    split
    · exact hrx
    · exact h.rxFifo q
  txFifo q := by
    rw [State.setIo_io, State.setIo_cfg]
    split
    · exact htx
    · exact h.txFifo q
  cpmemForm := by simpa using h.cpmemForm
  cpmemRange := by simpa using h.cpmemRange
  bufForm := by simpa using h.bufForm
  bufRange := by simpa using h.bufRange
  intPos := by simpa using h.intPos

theorem Legal.nextCursor_lt {s : State} (h : Legal s) (c : Word) :
    (nextCursor s.cfg.bufLen c).toNat < s.cfg.bufLen := by
  obtain ⟨hlo, hhi⟩ := bufLen_bounds_of_wf h.params
  rw [nextCursor_toNat c (by omega) hhi]
  exact Nat.mod_lt _ (by omega)

theorem Legal.storeRing {s : State} (h : Legal s) (b : Byte) :
    Legal { s with
      buf := Memory.put s.buf s.writeHead.toNat b, writeHead := nextCursor s.cfg.bufLen s.writeHead } :=
  { h with
    writeHead := h.nextCursor_lt _
    bufForm := Memory.put_wf _ _ h.bufForm
    bufRange := Memory.put_below _ h.bufRange h.writeHead }

/-! ### The effects -/

/-- A change that writes no parameter, keeps the state legal and keeps the flags a record of the faults raised. -/
structure Preserves (s t : State) : Prop where
  cfg : t.cfg = s.cfg
  legal : Legal s → Legal t
  records : FltRecords s → FltRecords t

theorem Preserves.refl (s : State) : Preserves s s := ⟨rfl, id, id⟩

theorem Preserves.trans {s t u : State} (h : Preserves s t) (h' : Preserves t u) : Preserves s u :=
  ⟨h'.cfg.trans h.cfg, h'.legal ∘ h.legal, h'.records ∘ h.records⟩

theorem Preserves.raise (s : State) (f : Raised) : Preserves s (s.raise f) :=
  ⟨rfl, fun h => { h with }, fun h => h.raise f⟩

theorem Preserves.drawn (s : State) : Preserves s s.drawn := ⟨rfl, fun h => { h with }, id⟩

theorem Preserves.setIo (s : State) (p : Port) {r : PortRegs} (hrx : Legal s → r.rxFifo.length ≤ s.cfg.rxDepth)
    (htx : Legal s → r.txFifo.length ≤ s.cfg.txDepth) : Preserves s (s.setIo p r) :=
  ⟨s.setIo_cfg p r, fun h => h.setIo p (hrx h) (htx h), by cases p <;> exact id⟩

theorem Preserves.storeRing (s : State) (b : Byte) :
    Preserves s { s with
      buf := Memory.put s.buf s.writeHead.toNat b, writeHead := nextCursor s.cfg.bufLen s.writeHead } :=
  ⟨rfl, fun h => h.storeRing b, id⟩

theorem Preserves.advanceReadHead (s : State) :
    Preserves s { s with readHead := nextCursor s.cfg.bufLen s.readHead } :=
  ⟨rfl, fun h => { h with readHead := h.nextCursor_lt _ }, id⟩

theorem Preserves.memWrite (a : Nat) (v : Byte) (s : State) : Preserves s (memWrite a v s) := by
  obtain ⟨-, h⟩ | ⟨-, -, h⟩ | ⟨ha, -, h⟩ := memWrite_cases a v s <;> rw [h]
  · exact .raise s _
  · exact .raise s _
  · exact ⟨rfl, fun h => { h with
      cpmemForm := Memory.put_wf _ _ h.cpmemForm
      cpmemRange := Memory.put_below _ h.cpmemRange ha }, id⟩

theorem Preserves.pushTx (p : Port) (b : Byte) (s : State) : Preserves s (pushTx p b s) := by
  obtain ⟨hlen, h⟩ | ⟨-, h⟩ := pushTx_cases p b s <;> rw [h]
  · exact .setIo s p (fun h => h.rxFifo p) fun _ => by simpa using hlen
  · refine ((Preserves.drawn s).trans (.raise _ _)).trans (.setIo _ p (fun h => ?_) fun _ => ?_)
    · simpa using h.rxFifo p
    · exact (overrunContent_length s.cfg.txDepth s).1

theorem Preserves.popRx (p : Port) (s : State) : Preserves s (popRx p s).2 := by
  obtain ⟨b, rest, hf, h⟩ | ⟨-, h⟩ := popRx_cases p s <;> rw [h]
  · refine .setIo s p (fun h => ?_) fun h => h.txFifo p
    have := h.rxFifo p
    rw [hf] at this
    exact (Nat.le_succ _).trans this
  · exact (Preserves.drawn s).trans (.raise _ _)

theorem Preserves.rxArrive (p : Port) (b : Byte) (s : State) : Preserves s (rxArrive p b s) := by
  obtain ⟨hlen, h⟩ | ⟨-, h⟩ := rxArrive_cases p b s <;> rw [h]
  · exact .setIo s p (fun _ => by simpa using hlen) fun h => h.txFifo p
  · refine ((Preserves.drawn s).trans (.raise _ _)).trans (.setIo _ p (fun _ => ?_) fun h => ?_)
    · exact (overrunContent_length s.cfg.rxDepth s).1
    · simpa using h.txFifo p

theorem Preserves.txShift (p : Port) (s : State) : Preserves s (txShift p s) := by
  obtain ⟨b, rest, hf, h⟩ | ⟨-, h⟩ := txShift_cases p s <;> rw [h]
  · refine .setIo s p (fun h => h.rxFifo p) fun h => ?_
    have := h.txFifo p
    rw [hf] at this
    exact (Nat.le_succ _).trans this
  · exact .refl s

theorem Preserves.ringWrite (b : Byte) (s : State) : Preserves s (ringWrite b s) := by
  obtain ⟨-, h⟩ | ⟨-, -, h⟩ | ⟨-, -, h⟩ := ringWrite_cases b s <;> rw [h]
  · exact .storeRing s b
  · exact .raise s _
  · exact (Preserves.raise s _).trans (.storeRing _ b)

theorem Preserves.ringRead (s : State) : Preserves s (ringRead s).2 := by
  obtain ⟨-, h⟩ | ⟨-, h⟩ := ringRead_cases s <;> rw [h]
  · exact .advanceReadHead s
  · exact (Preserves.raise s _).trans (.advanceReadHead _)

theorem Preserves.ringReset (d : Word) (s : State) : Preserves s (ringReset d s) := by
  obtain ⟨-, h⟩ | ⟨-, h⟩ := ringReset_cases d s <;> rw [h]
  · exact ⟨rfl, fun h => { h with
      readHead := Nat.zero_lt_of_lt h.readHead
      writeHead := Nat.zero_lt_of_lt h.writeHead }, id⟩
  · exact .refl s

theorem Effect.preserves {bus : Bool} {s t : State} (h : Effect bus s t) : Preserves s t := by
  cases h with
  | arbctl _ d =>
    obtain ⟨-, h⟩ | ⟨-, -, h⟩ | ⟨-, -, h⟩ := writeArbctl_cases d s <;> rw [h] <;> exact ⟨rfl, fun h => { h with }, id⟩
  | memWrite _ a v => exact .memWrite a v s
  | memRead a =>
    obtain ⟨-, h⟩ | ⟨-, -, h⟩ | ⟨-, -, h⟩ := memRead_cases a s <;> rw [h]
    · exact (Preserves.drawn s).trans (.raise _ _)
    · exact (Preserves.drawn s).trans (.raise _ _)
    · exact .refl s
  | badTxn w =>
    obtain ⟨-, h⟩ | ⟨-, h⟩ := badTxn_cases w s <;> rw [h]
    · exact (Preserves.raise s (.badTxn w)).trans ⟨rfl, fun h => { h with }, id⟩
    · exact ((Preserves.drawn s).trans (.raise _ (.badTxn w))).trans ⟨rfl, fun h => { h with }, id⟩
  | writeCtrl p d => exact .setIo s p (fun h => h.rxFifo p) fun h => h.txFifo p
  | writeSctrl p d => exact .setIo s p (fun h => h.rxFifo p) fun h => h.txFifo p
  | pushTx p b => exact .pushTx p b s
  | popRx p => exact .popRx p s
  | ringWrite b => exact .ringWrite b s
  | ringRead => exact .ringRead s
  | ringReset d => exact .ringReset d s
  | drawn | writeMode | writeImask | note => exact ⟨rfl, fun h => { h with }, id⟩

theorem Effects.preserves {bus : Bool} {s t : State} (h : Effects bus s t) : Preserves s t := by
  induction h with
  | refl => exact .refl s
  | tail _ h ih => exact ih.trans h.preserves

/-! ### The agents -/

theorem Preserves.grant (s : State) : Preserves s (grant s) := by
  obtain ⟨-, -, h⟩ | ⟨-, h⟩ := grant_cases s <;> rw [h] <;> exact ⟨rfl, fun h => { h with }, id⟩

theorem Preserves.resume (s : State) : Preserves s (resume s) := by
  obtain ⟨-, -, h⟩ | ⟨-, h⟩ := resume_cases s <;> rw [h] <;> exact ⟨rfl, fun h => { h with }, id⟩

theorem Preserves.cpStep (c : CpState) (stores : List Host.Cell) (ready : Bool) (s : State) :
    Preserves s (cpStep c stores ready s) := by
  obtain ⟨-, h⟩ | ⟨-, h⟩ := cpStep_cases c stores ready s <;> rw [h]
  · exact ⟨rfl, fun h => { h with
      cpmemForm := cpStores_wf _ _ h.cpmemForm
      cpmemRange := cpStores_below _ _ h.cpmemRange }, id⟩
  · exact .refl s

theorem Preserves.mainStep {s t : State} (h : mainStep s = .next t) : Preserves s t := by
  obtain ⟨-, hs⟩ | ⟨-, hs⟩ := mainStep_cases s
  · cases hs.symm.trans h
    exact .refl s
  · obtain ⟨u, hu, he⟩ := issueNext_effects s
    cases hu.symm.trans (hs.symm.trans h)
    exact he.preserves

theorem Preserves.swapIssuer (s : State) : Preserves s s.swapIssuer := ⟨rfl, fun h => { h with }, id⟩

theorem Preserves.handlerStep {s t : State} (h : handlerStep s = .next t) : Preserves s t := by
  obtain ⟨u, hu, rfl⟩ := handlerStep_eq_next.1 h
  obtain ⟨v, hv, he⟩ := issueNext_effects s.swapIssuer
  cases hv.symm.trans hu
  exact ((Preserves.swapIssuer s).trans he.preserves).trans (.swapIssuer _)

theorem Preserves.intStep {s t : State} (h : intStep s = .next t) : Preserves s t := by
  obtain ⟨-, -, hs⟩ | ⟨-, -, hs⟩ | ⟨hin, pos, p, -, -, hs⟩ | ⟨-, -, -, hs⟩ | ⟨-, -, -, hs⟩ := intStep_cases s
  · cases hs.symm.trans h
    obtain ⟨_, hv, -⟩ := intEnter_eq s
    rw [hv]
    exact ⟨rfl, fun h => { h with intPos := nofun }, id⟩
  · cases hs.symm.trans h
    exact .refl s
  · cases hs.symm.trans h
    have he := drainStep_effects (bus := false) p pos s
    have hin' : (drainStep p pos s).2.inIrq = true := (congrArg Outside.inIrq he.outside_eq).trans hin
    exact he.preserves.trans ⟨rfl, fun h => { h with intPos := fun hf => nomatch hin'.symm.trans hf }, id⟩
  · cases hs.symm.trans h
    exact ⟨rfl, fun h => { h with intPos := fun _ => rfl }, id⟩
  · have hpast : Preserves s { s with intPos := none } := ⟨rfl, fun h => { h with intPos := fun _ => rfl }, id⟩
    exact hpast.trans (.handlerStep (hs.symm.trans h))

theorem Preserves.runMove {m : Move} {s t : State} (h : runMove m s = .next t) : Preserves s t := by
  cases m with
  | main => exact .mainStep h
  | int => exact .intStep h
  | grant => cases h; exact .grant s
  | resume => cases h; exact .resume s
  | cpStep c stores ready => cases h; exact .cpStep c stores ready s
  | rxArrive p b => cases h; exact .rxArrive p b s
  | txShift p => cases h; exact .txShift p s

theorem Preserves.afterChoice (s : State) : Preserves s (afterChoice s) := ⟨rfl, fun h => { h with }, id⟩

theorem Preserves.step {s t : State} (h : step s = .next t) : Preserves s t := by
  rw [step_eq] at h
  exact (Preserves.afterChoice s).trans (.runMove h)

end Sys2Proof.Machine
end

