-- ==== Sys2Proof/Proofs/Rights.lean ====
section
/-! PROOF. The rights of the interrupt context (R213): what `INT` issues within them leaves the bus alone and keeps to
them, and no other agent touches them. -/

namespace Sys2Proof.Machine

/-! ### The places and instructions of `INT` -/

/-- The places that are `INT`'s to be at: in no operation, or in a `RxDrain`. -/
def intPlace : MainPos → Bool
  | .idle | .drain _ _ => true
  | _ => false

theorem intWithinRights_iff (s : State) :
    intWithinRights s = true ↔ (∀ c ∈ s.handler, c.within intMay = true) ∧ intPlace s.intOp = true := by
  rw [intWithinRights, Bool.and_eq_true, List.all_eq_true]
  cases s.intOp <;> rfl

theorem intWithinRights_congr {s t : State} (hh : t.handler = s.handler) (hop : t.intOp = s.intOp) :
    intWithinRights t = intWithinRights s := by
  rw [Bool.eq_iff_iff, intWithinRights_iff, intWithinRights_iff, hh, hop]

@[simp] theorem firstUse_mainPos (s : State) : (firstUse s).mainPos = s.mainPos := by rw [firstUse_eq]

@[simp] theorem pushTx_mainPos (p : Port) (b : Byte) (s : State) : (pushTx p b s).mainPos = s.mainPos := by
  obtain ⟨-, h⟩ | ⟨-, h⟩ := pushTx_cases p b s <;> simp [h]

@[simp] theorem popRx_mainPos (p : Port) (s : State) : (popRx p s).2.mainPos = s.mainPos := by
  obtain ⟨_, _, -, h⟩ | ⟨-, h⟩ := popRx_cases p s <;> simp [h]

@[simp] theorem ringWrite_mainPos (b : Byte) (s : State) : (ringWrite b s).mainPos = s.mainPos := by
  obtain ⟨-, h⟩ | ⟨-, -, h⟩ | ⟨-, -, h⟩ := ringWrite_cases b s <;> simp [h]

@[simp] theorem badTxn_mainPos (w : TxnWord) (s : State) : (badTxn w s).mainPos = s.mainPos := by
  obtain ⟨-, h⟩ | ⟨-, h⟩ := badTxn_cases w s <;> simp [h]

theorem mainDrainStep_intPlace (p : Port) (pos : DrainPos) (s : State) :
    intPlace (mainDrainStep p pos s).mainPos = true := by
  unfold mainDrainStep
  split <;> rfl

theorem serialOp_intPlace {f : Port → State → State} {s : State} (hs : intPlace s.mainPos = true)
    (hf : ∀ p u, intPlace u.mainPos = true → intPlace (f p u).mainPos = true) :
    intPlace (serialOp f s).mainPos = true := by
  obtain ⟨-, h⟩ | ⟨p, -, h⟩ := serialOp_cases f s
  · simpa [h] using hs
  · rw [h]
    exact hf p _ (by simpa using hs)

/-- What is `INT`'s to issue begins no operation but `RxDrain`. -/
theorem exec_intPlace {i : Instr} {s t : State} (hi : intMay i = true) (h : exec i s = .next t)
    (hs : intPlace s.mainPos = true) : intPlace t.mainPos = true := by
  cases i with
  | wrArbctl | requestBus | releaseBus | uploadProgram | mrd | mwr | rdRbdata | rbRead | wrRbctl | resetFifos
  | wrCtrl | wrSctrl | wrMode | wrImask | serialInit => cases hi
  | rdArbctl | rdArbstat | isBusTaken | rdFlt | rdCtrl | rdMode | rdImask | isPresent | rdSctrl | rdRbstat | rbCanRead
  | rdRbavail | rbAvailable | rdRbrd | rdRbwr => cases h; exact hs
  | wrRbdata | rbWrite | rdRxdata | wrTxdata => cases h; simpa using hs
  | serRead | serWrite => cases h; exact serialOp_intPlace hs fun p u hu => by simpa using hu
  | writeReady | readReady | baudRate => cases h; exact serialOp_intPlace hs fun _ _ hu => hu
  | rxDrain => cases h; exact serialOp_intPlace hs fun p u _ => mainDrainStep_intPlace p .atCheck u

theorem Cmd.writesBus_of_within {c : Cmd} (h : c.within intMay = true) : c.writesBus = false := by
  cases c with
  | txn w =>
    simp only [Cmd.within, Cmd.writesBus, Bool.not_eq_false'] at h ⊢
    cases hd : decode w with
    | ok i => rw [hd] at h; simp [writesBus_of_intMay h]
    | error e => rfl
  | op i => simpa [Cmd.writesBus, Cmd.within] using writesBus_of_intMay h
  | jump | jumpIf => rfl

theorem issueCmd_intPlace {c : Cmd} {s t : State} (hc : c.within intMay = true) (h : issueCmd c s = .next t)
    (hs : intPlace s.mainPos = true) : intPlace t.mainPos = true := by
  cases c with
  | txn w =>
    simp only [Cmd.within, issueCmd, issueTxn] at hc h
    cases hd : decode w with
    | ok i => rw [hd] at hc h; exact exec_intPlace hc h hs
    | error e => rw [hd] at h; cases h; simpa using hs
  | op i => exact exec_intPlace hc h hs
  | jump k => cases h; exact hs
  | jumpIf c k =>
    cases h
    split
    · exact hs
    · exact hs

/-- An issuer that keeps to `INT`'s rights leaves the bus alone, and its place stays `INT`'s to be at. -/
theorem issueNext_within {s t : State} (hp : ∀ c ∈ s.prog, c.within intMay = true)
    (hs : intPlace s.mainPos = true) (h : issueNext s = .next t) :
    Effects false s t ∧ intPlace t.mainPos = true := by
  obtain ⟨hne, hi⟩ | ⟨-, c, hf, hi⟩ | ⟨-, -, hi⟩ := issueNext_cases s
  · cases hi.symm.trans h
    cases hm : s.mainPos with
    | idle => exact absurd hm hne
    | drain p pos => exact ⟨mainDrainStep_effects p pos s, mainDrainStep_intPlace p pos s⟩
    | _ => rw [hm] at hs; cases hs
  · rw [hi] at h
    have hc := hp c (List.mem_of_getElem? hf)
    obtain ⟨u, hu, he⟩ := issueCmd_effects c s.advance
    cases hu.symm.trans h
    rw [Cmd.writesBus_of_within hc] at he
    exact ⟨.head (.index s (s.idx + 1)) he, issueCmd_intPlace hc h hs⟩
  · cases hi.symm.trans h
    exact ⟨.refl, hs⟩

/-! ### What another agent than `MAIN` can do -/

/-- What belongs to `MAIN` and to the launch: no other agent writes it. -/
structure MainView where
  cfg : Params
  prog : List Cmd
  idx : Nat
  mainPos : MainPos
  result : Result
  handler : List Cmd

def State.mainView (s : State) : MainView :=
  { cfg := s.cfg, prog := s.prog, idx := s.idx, mainPos := s.mainPos, result := s.result, handler := s.handler }

@[simp] theorem State.setIo_mainView (s : State) (p : Port) (r : PortRegs) :
    (s.setIo p r).mainView = s.mainView := by
  cases p <;> rfl

/-- What another agent's move can do to the handshake, the coprocessor and its memory: nothing; `GRANT`; `RESUME`; or,
while the bus is not taken, a step of the coprocessor (R113, R114, R115). -/
inductive BusMove (m : Move) (b b' : Bus) : Prop where
  | same (h : b' = b)
  | grant (hm : m = .grant) (hreq : b.req = true) (h : b' = { b with taken := true })
  | resume (hm : m = .resume) (hreq : b.req = false) (h : b' = { b with taken := false })
  | coprocessor (htaken : b.taken = false) (hreq' : b'.req = b.req) (htaken' : b'.taken = false)

/-- `REQ` is the primary controller's alone. -/
theorem BusMove.req_eq {m : Move} {b b' : Bus} (h : BusMove m b b') : b'.req = b.req := by
  cases h with
  | same h | grant _ _ h | resume _ _ h => rw [h]
  | coprocessor _ hreq' => exact hreq'

/-- While the bus is taken only `RESUME` moves anything. -/
theorem BusMove.eq_of_taken {m : Move} {b b' : Bus} (h : BusMove m b b') (htaken : b.taken = true)
    (hm : m = .resume → b.req = true) : b' = b := by
  cases h with
  | same h => exact h
  | grant _ _ h => rw [h, ← htaken]
  | resume hr hreq => simp [hm hr] at hreq
  | coprocessor hf => simp [hf] at htaken

/-- The bus is taken by `GRANT` alone, on a request. -/
theorem BusMove.taken_eq_false {m : Move} {b b' : Bus} (h : BusMove m b b') (htaken : b.taken = false)
    (hm : m = .grant → b.req = false) : b'.taken = false := by
  cases h with
  | same h => rw [h, htaken]
  | grant hg hreq => simp [hm hg] at hreq
  | resume _ _ h => rw [h]
  | coprocessor _ _ htaken' => exact htaken'

/-- A step of another agent than `MAIN`, `INT` keeping to its rights. -/
structure OtherStep (m : Move) (s t : State) : Prop where
  view : t.mainView = s.mainView
  rights : intWithinRights t = true
  bus : BusMove m s.bus t.bus

theorem drainStep_frame (p : Port) (pos : DrainPos) (s : State) :
    (drainStep p pos s).2.mainView = s.mainView ∧ (drainStep p pos s).2.intOp = s.intOp ∧
      (drainStep p pos s).2.bus = s.bus := by
  obtain ⟨-, _, -, h⟩ | ⟨-, h⟩ | ⟨b, -, h⟩ := drainStep_cases p pos s <;> rw [h]
  · exact ⟨rfl, rfl, rfl⟩
  · obtain ⟨_, _, -, h⟩ | ⟨-, h⟩ := popRx_cases p s <;> rw [h]
    · exact ⟨s.setIo_mainView p _, s.setIo_intOp p _, s.setIo_bus p _⟩
    · exact ⟨rfl, rfl, rfl⟩
  · obtain ⟨-, h⟩ | ⟨-, -, h⟩ | ⟨-, -, h⟩ := ringWrite_cases b s <;> rw [h] <;> exact ⟨rfl, rfl, rfl⟩

theorem OtherStep.handlerStep {s t : State} (hr : intWithinRights s = true) (h : handlerStep s = .next t) :
    OtherStep .int s t := by
  obtain ⟨u, hu, rfl⟩ := handlerStep_eq_next.1 h
  obtain ⟨hp, hs⟩ := (intWithinRights_iff s).1 hr
  obtain ⟨he, hplace⟩ := issueNext_within (s := s.swapIssuer) hp hs hu
  have hout := he.outside_eq
  simp only [State.outside, Outside.mk.injEq, State.swapIssuer_cfg, State.swapIssuer_prog, State.swapIssuer_handler,
    State.swapIssuer_intIdx, State.swapIssuer_intOp, State.swapIssuer_intResult] at hout
  obtain ⟨hcfg, hprog, hhandler, hidx, hpos, hresult, -⟩ := hout
  refine ⟨?_, ?_, .same he.bus_eq⟩
  · simp [State.mainView, hcfg, hprog, hhandler, hidx, hpos, hresult]
  · exact (intWithinRights_iff _).2 ⟨by simpa [hprog] using hp, by simpa using hplace⟩

theorem OtherStep.intStep {s t : State} (hr : intWithinRights s = true) (h : intStep s = .next t) :
    OtherStep .int s t := by
  obtain ⟨-, -, hs⟩ | ⟨-, -, hs⟩ | ⟨-, pos, p, -, -, hs⟩ | ⟨-, -, -, hs⟩ | ⟨-, -, -, hs⟩ := intStep_cases s
  · cases hs.symm.trans h
    obtain ⟨_, hv, -⟩ := intEnter_eq s
    rw [hv]
    exact ⟨rfl, (intWithinRights_iff _).2 ⟨((intWithinRights_iff s).1 hr).1, rfl⟩, .same rfl⟩
  · cases hs.symm.trans h
    exact ⟨rfl, hr, .same rfl⟩
  · cases hs.symm.trans h
    obtain ⟨hview, hop, hbus⟩ := drainStep_frame p pos s
    exact ⟨hview, (intWithinRights_congr (congrArg MainView.handler hview) hop).trans hr, .same hbus⟩
  · cases hs.symm.trans h
    exact ⟨rfl, hr, .same rfl⟩
  · obtain ⟨hview, hrights, hbus⟩ := OtherStep.handlerStep (s := { s with intPos := none }) hr (hs.symm.trans h)
    exact ⟨hview, hrights, hbus⟩

/-- The line moves FIFOs of a port and faults alone. -/
theorem OtherStep.line {m : Move} {s u : State} (hr : intWithinRights s = true) (p : Port) (r : PortRegs)
    (hview : u.mainView = s.mainView) (hop : u.intOp = s.intOp) (hbus : u.bus = s.bus) :
    OtherStep m s (u.setIo p r) where
  view := by simpa using hview
  rights := by
    have hhandler : u.handler = s.handler := congrArg MainView.handler hview
    rw [intWithinRights_congr (s := s) (by simpa using hhandler) (by simpa using hop), hr]
  bus := .same (by simpa using hbus)

/-- A move that is not a transaction of `MAIN`, `INT` keeping to its rights. -/
theorem OtherStep.runMove {m : Move} {s t : State} (hr : intWithinRights s = true) (hm : m = .main → s.inIrq = true)
    (h : runMove m s = .next t) : OtherStep m s t := by
  cases m with
  | main =>
    obtain ⟨-, hs⟩ | ⟨hf, -⟩ := mainStep_cases s
    · cases hs.symm.trans h
      exact ⟨rfl, hr, .same rfl⟩
    · simp [hm rfl] at hf
  | int => exact .intStep hr h
  | grant =>
    cases h
    obtain ⟨hreq, -, hg⟩ | ⟨-, hg⟩ := grant_cases s <;> rw [hg]
    · exact ⟨rfl, hr, .grant rfl hreq rfl⟩
    · exact ⟨rfl, hr, .same rfl⟩
  | resume =>
    cases h
    obtain ⟨hreq, -, hg⟩ | ⟨-, hg⟩ := resume_cases s <;> rw [hg]
    · exact ⟨rfl, hr, .resume rfl hreq rfl⟩
    · exact ⟨rfl, hr, .same rfl⟩
  | cpStep c stores ready =>
    cases h
    obtain ⟨htaken, hg⟩ | ⟨-, hg⟩ := cpStep_cases c stores ready s <;> rw [hg]
    · exact ⟨rfl, hr, .coprocessor htaken rfl htaken⟩
    · exact ⟨rfl, hr, .same rfl⟩
  | rxArrive p b =>
    cases h
    obtain ⟨-, hg⟩ | ⟨-, hg⟩ := rxArrive_cases p b s <;> rw [hg] <;> exact .line hr p _ rfl rfl rfl
  | txShift p =>
    cases h
    obtain ⟨_, _, -, hg⟩ | ⟨-, hg⟩ := txShift_cases p s <;> rw [hg]
    · exact .line hr p _ rfl rfl rfl
    · exact ⟨rfl, hr, .same rfl⟩

/-- A transaction of `MAIN` touches nothing that the rights of `INT` are read from. -/
theorem intWithinRights_mainStep {s t : State} (h : mainStep s = .next t) : intWithinRights t = intWithinRights s := by
  obtain ⟨-, hs⟩ | ⟨-, hs⟩ := mainStep_cases s
  · cases hs.symm.trans h
    rfl
  · obtain ⟨u, hu, he⟩ := issueNext_effects s
    cases hu.symm.trans (hs.symm.trans h)
    exact intWithinRights_congr (congrArg Outside.handler he.outside_eq) (congrArg Outside.intOp he.outside_eq)

/-- Every agent's move keeps an interrupt context within its rights so. -/
theorem intWithinRights_runMove {m : Move} {s t : State} (hr : intWithinRights s = true)
    (h : runMove m s = .next t) : intWithinRights t = true := by
  by_cases hm : m = .main
  · subst hm
    exact (intWithinRights_mainStep h).trans hr
  · exact (OtherStep.runMove hr (fun h => absurd h hm) h).rights

/-! ### The writes of `ARBCTL` -/

/-- `INT` has no right to a write of `ARBCTL` (R213). -/
theorem arbctlOf_of_intMay {i : Instr} (h : intMay i = true) : arbctlOf i = none := by
  cases i with
  | wrArbctl | requestBus | releaseBus | uploadProgram => cases h
  | _ => rfl

/-- An issuer that keeps to `INT`'s rights writes no `ARBCTL`. -/
theorem issuerArbctl_of_within {s : State} (hp : ∀ c ∈ s.prog, c.within intMay = true)
    (hs : intPlace s.mainPos = true) : issuerArbctl s = none := by
  unfold issuerArbctl
  cases hm : s.mainPos with
  | idle =>
    cases hf : fetch s with
    | none => rfl
    | some c =>
      have hc := hp c (List.mem_of_getElem? hf)
      cases c with
      | txn w =>
        simp only [Cmd.within] at hc ⊢
        cases hd : decode w with
        | ok i => rw [hd] at hc; exact arbctlOf_of_intMay hc
        | error e => rfl
      | op i => exact arbctlOf_of_intMay hc
      | jump | jumpIf => rfl
  | drain => rfl
  | _ => simp [hm, intPlace] at hs

/-- While `INT` keeps to its rights, no step but `MAIN`'s writes `ARBCTL`. -/
theorem stepArbctl_of_within {s : State} (hr : intWithinRights s = true) (hmain : issuerArbctl s = none) :
    stepArbctl s = none := by
  obtain ⟨hp, hplace⟩ := (intWithinRights_iff s).1 hr
  unfold stepArbctl
  cases nextMove s with
  | main => simp [hmain]
  | int => simp [issuerArbctl_of_within (s := s.swapIssuer) hp hplace]
  | grant | resume | cpStep | rxArrive | txShift => rfl

end Sys2Proof.Machine
end

