-- ==== Sys2Proof/Proofs/Invariants.lean ====
section
/-! PROOF. The invariants: they hold at reset (O59), and every step keeps them (O60). -/

namespace Sys2Proof.Machine

/-- Settles O60: each agent's step preserves legality and the record of the faults, and `INT`'s rights. -/
theorem stepKeepsTheStateLegal : Obligations.StepKeepsTheStateLegal := by
  intro s t h
  obtain ⟨hcfg, hlegal, hrecords⟩ := Preserves.step h
  rw [step_eq] at h
  exact ⟨hcfg, hlegal, hrecords, fun hr => intWithinRights_runMove (s := afterChoice s) hr h⟩

theorem legal_reset : Legal State.reset where
  params := by decide
  readHead := by decide
  writeHead := by decide
  rxFifo p := by cases p <;> exact Nat.zero_le _
  txFifo p := by cases p <;> exact Nat.zero_le _
  cpmemForm := rfl
  cpmemRange := rfl
  bufForm := rfl
  bufRange := rfl
  intPos _ := rfl

/-- Settles O59: nothing is written, raised or launched at reset. -/
theorem resetIsLegal : Obligations.ResetIsLegal := by
  refine ⟨legal_reset, fun k _ => ?_, ?_, rfl⟩
  · simp [State.reset]
  · simp [PortSelected, State.reset, insideInit]

end Sys2Proof.Machine
end

