-- ==== Sys2Proof/Proofs/MainSteps.lean ====
section
/-! PROOF. The step of the main context: the fetched command is executed (O5), and the interrupt context comes first
(O8). -/

namespace Sys2Proof.Machine

theorem issueTxn_of_decode {w : TxnWord} {i : Instr} (h : decode w = .ok i) (s : State) : issueTxn w s = exec i s := by
  rw [issueTxn, h]

/-- Settles O5: each kind of command by what issuing it is, past its place in the list. -/
theorem stepRunsTheFetchedCommand : Obligations.StepRunsTheFetchedCommand := by
  refine ⟨?_, ?_, ?_⟩
  · rintro s i ht hpos (⟨w, hf, hd⟩ | hf)
    · rw [step_idle ht hpos hf, issueCmd, issueTxn_of_decode hd]
      rfl
    · rw [step_idle ht hpos hf]
      rfl
  · intro s k ht hpos hf
    rw [step_idle ht hpos hf]
    rfl
  · intro s c k ht hpos hf
    rw [step_idle ht hpos hf, issueCmd]
    cases hc : c.holds s.result <;> simp [hc, State.advance]

/-- Settles O8: inside the interrupt context `MAIN`'s move changes nothing, and entry keeps what `MAIN` was doing. -/
theorem interruptContextPreemptsMain : Obligations.InterruptContextPreemptsMain := by
  refine ⟨?_, ?_⟩
  · intro s hin hmove
    rw [step_eq, hmove, runMove, mainStep, if_pos (by simpa using hin)]
  · intro s hin hirq hmove
    obtain ⟨_, hv, -⟩ := intEnter_eq (afterChoice s)
    refine ⟨intEnter (afterChoice s), ?_, ?_⟩
    · rw [step_eq, hmove, runMove, intStep]
      simp [hin, hirq]
    · rw [hv]
      exact ⟨rfl, rfl, rfl, rfl, rfl⟩

end Sys2Proof.Machine
end

