-- ==== Sys2Proof/Proofs/SerialQueries.lean ====
section
/-! PROOF. `SCTRL` as read, and the serial queries that read it (O33). -/

namespace Sys2Proof.Machine

/-! ### The bits of `SCTRL` -/

@[simp] theorem getElem_zext16 {n : Nat} (v : BitVec n) {k : Nat} (h : k < 16) : (zext16 v)[k] = v.getLsbD k := by
  simp [zext16]

@[simp] theorem getElem_bitWord (b : Bool) {k : Nat} (h : k < 16) : (bitWord b)[k] = (decide (k = 0) && b) := by
  cases k <;> simp [bitWord]

/-- Bit 0 of `SCTRL` is `TFULL` (R144). -/
theorem sctrlWord_tfull (p : Port) (s : State) : (sctrlWord p s).getLsbD 0 = tfull p s := by
  simp [sctrlWord]

/-- Bit 1 of `SCTRL` is `RRDY` (R144). -/
theorem sctrlWord_rrdy (p : Port) (s : State) : (sctrlWord p s).getLsbD 1 = rrdy p s := by
  simp [sctrlWord]

/-- Bits 7:6 of `SCTRL` are `BAUD` (R144). -/
theorem dataBaud_sctrlWord (p : Port) (s : State) : dataBaud (sctrlWord p s) = (s.io p).baud := by
  refine BitVec.eq_of_getLsbD_eq fun k hk => ?_
  obtain rfl | rfl : k = 0 ∨ k = 1 := by omega
  all_goals simp [dataBaud, sctrlWord]

/-! ### The queries -/

/-- `BAUD_DECODE` at a code is the entry of the table at that code (R155). -/
theorem values_getElem?_toNat (t : BaudTable) (code : BitVec 2) : t.values[code.toNat]? = some (baudOf t code) := by
  have h := code.isLt
  unfold baudOf BaudTable.values
  generalize code.toNat = n at h
  interval_cases n <;> rfl

theorem serialOp_of_port {f : Port → State → State} {s : State} {p : Port} (h : s.port = some p) :
    serialOp f s = f p (firstUse s) := by
  rw [serialOp, h]

@[simp] theorem firstUse_io (s : State) (p : Port) : (firstUse s).io p = s.io p := by
  rw [firstUse_eq]
  cases p <;> rfl

@[simp] theorem firstUse_cfg (s : State) : (firstUse s).cfg = s.cfg := by rw [firstUse_eq]

theorem exec_writeReady {s : State} {p : Port} (h : s.port = some p) :
    exec .writeReady s =
      .next ((firstUse s).returns (.bool (decide ((s.io p).txFifo.length ≠ s.cfg.txDepth)))) := by
  change Host.Outcome.next (serialOp _ s) = _
  rw [serialOp_of_port h, sctrlWord_tfull, tfull, firstUse_io, firstUse_cfg, decide_not]

theorem exec_readReady {s : State} {p : Port} (h : s.port = some p) :
    exec .readReady s = .next ((firstUse s).returns (.bool (decide ((s.io p).rxFifo ≠ [])))) := by
  change Host.Outcome.next (serialOp _ s) = _
  rw [serialOp_of_port h, sctrlWord_rrdy, rrdy, firstUse_io]
  cases (s.io p).rxFifo <;> rfl

theorem exec_baudRate {s : State} {p : Port} (h : s.port = some p) :
    exec .baudRate s = .next ((firstUse s).returns (.rate (baudOf s.cfg.baudDecode (s.io p).baud))) := by
  change Host.Outcome.next (serialOp _ s) = _
  rw [serialOp_of_port h, dataBaud_sctrlWord, firstUse_io, firstUse_cfg]

/-- The codes that decode to a rate are as many as the entries of the table with that rate. -/
theorem countP_baudOf (t : BaudTable) (r : Baud) :
    ([0, 1, 2, 3].countP fun k => decide (baudOf t (BitVec.ofNat 2 k) = r)) = t.values.count r := by
  simp [List.countP_cons, List.count_cons, baudOf, BaudTable.values]

/-- Settles O33: each query by the bits of `SCTRL` it reads, and the table of rates by its entries. -/
theorem serialQueriesAnswer : Obligations.SerialQueriesAnswer := by
  refine ⟨fun s => rfl, ?_, ?_⟩
  · intro s p hp
    refine ⟨if s.serState = .uninitialized then .uninitialized else .active, fun h => if_neg h, ?_, ?_, _, ?_,
      values_getElem?_toNat s.cfg.baudDecode _⟩
    · rw [exec_writeReady hp, firstUse_eq]
      rfl
    · rw [exec_readReady hp, firstUse_eq]
      rfl
    · rw [exec_baudRate hp, firstUse_eq]
      rfl
  · intro c hc
    simp only [Params.wf, Bool.and_eq_true, decide_eq_true_eq] at hc
    obtain ⟨⟨-, hcount⟩, hinit⟩ := hc
    exact ⟨(countP_baudOf _ _).trans hcount, by simpa [values_getElem?_toNat] using hinit⟩

end Sys2Proof.Machine
end

