-- ==== Sys2Proof/Proofs/Runs.lean ====
section
/-! PROOF. Runs: what one step of a run is, and when a property that steps keep meets the step it waits for. -/

namespace Sys2Proof.Machine

/-! ### One step of a run -/

/-- The state with the one choice its script held used up. -/
def State.spent (s : State) : State := { s with script := [] }

/-- `MAIN` takes the step from the `n`th state (R12). -/
def MainMoves (moves : Nat → Move) (r : Nat → State) (n : Nat) : Prop := moves n = .main ∧ (r n).inIrq = false

section OneStep

variable {moves : Nat → Move} {r : Nat → State}

theorem IsRun.runMove_eq (h : IsRun moves r) (n : Nat) : runMove (moves n) (r n).spent = .next (r (n + 1)) := by
  have hstep := h n
  rw [step_eq] at hstep
  exact hstep

theorem IsRun.otherStep (h : IsRun moves r) {n : Nat} (hr : intWithinRights (r n) = true)
    (hm : ¬ MainMoves moves r n) : OtherStep (moves n) (r n) (r (n + 1)) := by
  have hin : moves n = .main → (r n).inIrq = true := fun hmain => by
    simpa [MainMoves, hmain] using hm
  obtain ⟨hview, hrights, hbus⟩ := OtherStep.runMove (s := (r n).spent) hr hin (h.runMove_eq n)
  exact ⟨hview, hrights, hbus⟩

/-- `MAIN`'s step inside an operation is the operation's next transaction. -/
theorem IsRun.mainMove_eq (h : IsRun moves r) {n : Nat} (hm : MainMoves moves r n) {pos : MainPos}
    (hpos : (r n).mainPos = pos) (hne : pos ≠ .idle) : r (n + 1) = continueOp pos (r n).spent := by
  have hstep := h n
  rw [step_inside (s := { r n with script := [moves n] }) hm (hpos.trans_ne hne), Host.Outcome.next.injEq] at hstep
  rw [← hstep, ← hpos]
  rfl

theorem OtherStep.mainPos_eq {m : Move} {s t : State} (h : OtherStep m s t) : t.mainPos = s.mainPos :=
  congrArg MainView.mainPos h.view

theorem OtherStep.cfg_eq {m : Move} {s t : State} (h : OtherStep m s t) : t.cfg = s.cfg :=
  congrArg MainView.cfg h.view

end OneStep

/-! ### Waiting for a step -/

/-- A property that every step keeps but the awaited one holds when that step comes. -/
theorem holds_until {P E : Nat → Prop} {n : Nat} (hP : P n) (hkeep : ∀ k, P k → ¬ E k → P (k + 1))
    (hE : ∃ k, n ≤ k ∧ E k) : ∃ m, n ≤ m ∧ P m ∧ E m := by
  obtain ⟨k, hk, hEk⟩ := hE
  obtain ⟨d, rfl⟩ := Nat.exists_eq_add_of_le hk
  clear hk
  induction d generalizing n with
  | zero => exact ⟨n, le_rfl, hP, hEk⟩
  | succ d ih =>
    by_cases hEn : E n
    · exact ⟨n, le_rfl, hP, hEn⟩
    · obtain ⟨m, hm, h⟩ := ih (hkeep n hP hEn) (by rwa [Nat.add_assoc, Nat.add_comm 1 d])
      exact ⟨m, (Nat.le_succ n).trans hm, h⟩

section Fairness

variable {moves : Nat → Move} {r : Nat → State}

/-- What every other step keeps still holds when `MAIN` moves (R253). -/
theorem MainProgresses.reaches (hp : MainProgresses moves r) {P : State → Prop} {n : Nat} (hP : P (r n))
    (hkeep : ∀ k, P (r k) → ¬ MainMoves moves r k → P (r (k + 1))) :
    ∃ m, n ≤ m ∧ P (r m) ∧ MainMoves moves r m :=
  holds_until (P := fun k => P (r k)) hP hkeep (hp n)

/-- What enables a fair move, and every other move keeps, still holds when the move is taken (R13). -/
theorem EventuallyTaken.reaches {enabled : State → Bool} {m : Move} (hf : EventuallyTaken enabled m moves r)
    {P : State → Prop} {n : Nat} (hP : P (r n)) (hen : ∀ s, P s → enabled s = true)
    (hkeep : ∀ k, P (r k) → moves k ≠ m → P (r (k + 1))) : ∃ k, n ≤ k ∧ P (r k) ∧ moves k = m := by
  refine holds_until (P := fun k => P (r k)) hP hkeep ?_
  by_contra hnone
  have hnever : ∀ k, n ≤ k → moves k ≠ m := fun k hk hm => hnone ⟨k, hk, hm⟩
  have hall : ∀ k, n ≤ k → P (r k) := Nat.le_induction hP fun k hk h => hkeep k h (hnever k hk)
  exact hnone (hf n fun k hk => hen _ (hall k hk))

end Fairness

end Sys2Proof.Machine
end

