-- ==== Sys2Proof/Proofs/RequestUnderFairGrant.lean ====
section
/-! PROOF. Under `FAIR_GRANT` a pending `RequestBus` without a poll bound returns with the bus owned (O25). -/

namespace Sys2Proof.Machine

/-! ### One poll -/

/-- Bit 0 of `ARBSTAT` is `TAKEN` (R123). -/
theorem arbstatWord_taken (s : State) : (arbstatWord s).getLsbD 0 = s.taken := by
  simp [arbstatWord]

/-- Bit 1 of `ARBSTAT` is `READY` (R123). -/
theorem arbstatWord_ready (s : State) : (arbstatWord s).getLsbD 1 = s.cpReady := by
  simp [arbstatWord]

theorem boundReached_of_none {c : Params} (h : c.pollBound = none) (n : Nat) : boundReached c n = false := by
  rw [boundReached, h]

theorem pollTakenStep_ok {s : State} (h : s.taken = true) (n : Nat) : pollTakenStep n none s = s.finish .ok := by
  simp only [pollTakenStep, arbstatWord_taken, h, if_true]

theorem pollTakenStep_copy {s : State} (h : s.taken = true) (n : Nat) (bytes : List Byte) :
    pollTakenStep n (some bytes) s = { s with mainPos := .copy s.cfg.uploadBase bytes } := by
  simp only [pollTakenStep, arbstatWord_taken, h, if_true]

theorem pollTakenStep_again {s : State} (h : s.taken = false) (hb : s.cfg.pollBound = none) (n : Nat)
    (upload : Option (List Byte)) : pollTakenStep n upload s = { s with mainPos := .pollTaken (n + 1) upload } := by
  simp only [pollTakenStep, arbstatWord_taken, h, boundReached_of_none hb, Bool.false_eq_true, if_false]

/-! ### The pending request -/

/-- `RequestBus` waits in its `TAKEN` poll, without a bound, its request standing and `INT` within its rights. -/
structure RequestPending (s : State) : Prop where
  poll : ∃ k, s.mainPos = .pollTaken k none
  req : s.req = true
  noBound : s.cfg.pollBound = none
  rights : intWithinRights s = true

theorem RequestPending.otherStep {m : Move} {s t : State} (h : RequestPending s) (ho : OtherStep m s t) :
    RequestPending t where
  poll := by simpa [ho.mainPos_eq] using h.poll
  req := ho.bus.req_eq.trans h.req
  noBound := by simpa [ho.cfg_eq] using h.noBound
  rights := ho.rights

section

variable {moves : Nat → Move} {r : Nat → State}

/-- Until `GRANT` the request stays pending, whoever moves. -/
theorem RequestPending.waits (hrun : IsRun moves r) {n : Nat} (h : RequestPending (r n) ∧ (r n).taken = false)
    (hg : moves n ≠ .grant) : RequestPending (r (n + 1)) ∧ (r (n + 1)).taken = false := by
  obtain ⟨h, htaken⟩ := h
  by_cases hm : MainMoves moves r n
  · obtain ⟨k, hpos⟩ := h.poll
    rw [hrun.mainMove_eq hm hpos nofun, continueOp, pollTakenStep_again (s := (r n).spent) htaken h.noBound]
    exact ⟨⟨⟨_, rfl⟩, h.req, h.noBound, h.rights⟩, htaken⟩
  · have ho := hrun.otherStep h.rights hm
    exact ⟨h.otherStep ho, ho.bus.taken_eq_false htaken fun he => absurd he hg⟩

/-- Under `FAIR_GRANT` the pending request comes to be granted (R13). -/
theorem RequestPending.granted (hrun : IsRun moves r) (hfair : FairGrant moves r) {n : Nat}
    (h : RequestPending (r n)) : ∃ m, n ≤ m ∧ RequestPending (r m) ∧ (r m).taken = true := by
  cases htaken : (r n).taken with
  | true => exact ⟨n, le_rfl, h, htaken⟩
  | false =>
    obtain ⟨k, hk, ⟨hp, hf⟩, hg⟩ := hfair.reaches (P := fun s => RequestPending s ∧ s.taken = false) ⟨h, htaken⟩
      (fun s ⟨hs, hf⟩ => by simp [grantEnabled, hs.req, hf]) fun k => RequestPending.waits hrun
    have hstep := hrun.runMove_eq k
    have ho := hrun.otherStep hp.rights (by simp [MainMoves, hg])
    refine ⟨k + 1, hk.trans (Nat.le_succ k), hp.otherStep ho, ?_⟩
    rw [hg, runMove, Host.Outcome.next.injEq] at hstep
    rw [← hstep]
    simp [grant, grantEnabled, State.spent, hp.req, hf]

/-- Once granted, the request stays pending and granted until `MAIN` polls. -/
theorem RequestPending.staysGranted (hrun : IsRun moves r) {n : Nat} (h : RequestPending (r n) ∧ (r n).taken = true)
    (hm : ¬ MainMoves moves r n) : RequestPending (r (n + 1)) ∧ (r (n + 1)).taken = true := by
  obtain ⟨h, htaken⟩ := h
  have ho := hrun.otherStep h.rights hm
  have hbus := ho.bus.eq_of_taken htaken fun _ => h.req
  exact ⟨h.otherStep ho, (congrArg Bus.taken hbus).trans htaken⟩

end

/-- Settles O25: the request is granted by fairness, and stays so until `MAIN`'s next poll, which returns `Ok`. -/
theorem requestBusReturnsUnderFairGrant : Obligations.RequestBusReturnsUnderFairGrant := by
  intro moves r n k hrun hfair hprog hrights hpos hreq hbound
  obtain ⟨m, hm, hgranted⟩ := RequestPending.granted hrun hfair ⟨⟨k, hpos⟩, hreq, hbound, hrights⟩
  obtain ⟨j, hj, ⟨hp, htaken⟩, hmain⟩ := hprog.reaches (P := fun s => RequestPending s ∧ s.taken = true) hgranted
    fun _ => RequestPending.staysGranted hrun
  obtain ⟨i, hi⟩ := hp.poll
  refine ⟨j + 1, by omega, ?_⟩
  rw [hrun.mainMove_eq hmain hi nofun, continueOp, pollTakenStep_ok (s := (r j).spent) htaken]
  exact ⟨rfl, rfl, by simp [primaryOwns, State.spent, hp.req, htaken]⟩

end Sys2Proof.Machine
end

