-- ==== Sys2Proof/Proofs/UploadUnderFairReady.lean ====
section
/-! PROOF. Under `FAIR_RESUME` and `FAIR_READY` an `UploadProgram` with reset and without a poll bound returns `Ok`
(O22): it copies the image, releases the bus, waits to be resumed, and polls until the firmware is ready. -/

namespace Sys2Proof.Machine

/-! ### The transactions -/

theorem writeArbctl_zero (s : State) : writeArbctl 0 s = { s with req := false } := by
  simp [writeArbctl, dataReq, dataRst]

theorem memWrite_owned {s : State} {a : Nat} (ha : a < s.cfg.cpmemSize) (ho : primaryOwns s = true) (v : Byte) :
    memWrite a v s = { s with cpmem := Memory.put s.cpmem a v } := by
  rw [memWrite, if_neg (Nat.not_le.2 ha), if_neg (by simp [ho])]

theorem pollReadyStep_ok {s : State} (h : s.cpReady = true) (n : Nat) : pollReadyStep n s = s.finish .ok := by
  rw [pollReadyStep, arbstatWord_ready, if_pos h]

theorem pollReadyStep_again {s : State} (h : s.cpReady = false) (hb : s.cfg.pollBound = none) (n : Nat) :
    pollReadyStep n s = { s with mainPos := .pollReady (n + 1) } := by
  simp only [pollReadyStep, arbstatWord_ready, h, boundReached_of_none hb, Bool.false_eq_true, if_false]

/-! ### The stages of the upload -/

/-- The bus is taken, the coprocessor stays as its reset left it, and the first `copied` bytes of the image stand in
its memory, from `UPLOAD_BASE` on. -/
structure Uploading (bytes : List Byte) (req : Bool) (copied : Nat) (s : State) : Prop where
  noBound : s.cfg.pollBound = none
  rights : intWithinRights s = true
  req : s.req = req
  taken : s.taken = true
  reset : s.cpState = s.cfg.cpResetState
  notReady : s.cpReady = false
  fits : s.cfg.uploadBase + bytes.length ≤ s.cfg.cpmemSize
  stored : ∀ k < copied, bytes[k]? = some (cpByte s (s.cfg.uploadBase + k))

/-- The upload stands in its copy, before the byte `copied` of the image. -/
def Copying (bytes : List Byte) (copied : Nat) (s : State) : Prop :=
  Uploading bytes true copied s ∧ s.mainPos = .copy (s.cfg.uploadBase + copied) (bytes.drop copied)

/-- The image is copied, the bus released but not yet resumed, and the upload stands in its `READY` poll. -/
def AwaitingResume (bytes : List Byte) (s : State) : Prop :=
  Uploading bytes false bytes.length s ∧ ∃ n, s.mainPos = .pollReady n

/-- The coprocessor runs, and the upload stands in its `READY` poll. -/
structure AwaitingReady (s : State) : Prop where
  noBound : s.cfg.pollBound = none
  rights : intWithinRights s = true
  req : s.req = false
  taken : s.taken = false
  poll : ∃ n, s.mainPos = .pollReady n

/-- Another agent's step leaves the upload as it is, but that `RESUME` may come once the bus is released. -/
theorem Uploading.otherStep {bytes : List Byte} {req : Bool} {copied : Nat} {m : Move} {s t : State}
    (h : Uploading bytes req copied s) (ho : OtherStep m s t) (hm : m = .resume → req = true) :
    Uploading bytes req copied t := by
  have hbus := ho.bus.eq_of_taken h.taken fun he => h.req.trans (hm he)
  have hcpmem : t.cpmem = s.cpmem := congrArg Bus.cpmem hbus
  exact {
    noBound := by simpa [ho.cfg_eq] using h.noBound
    rights := ho.rights
    req := (congrArg Bus.req hbus).trans h.req
    taken := (congrArg Bus.taken hbus).trans h.taken
    reset := by
      rw [ho.cfg_eq]
      exact (congrArg Bus.cpState hbus).trans h.reset
    notReady := (congrArg Bus.cpReady hbus).trans h.notReady
    fits := by simpa [ho.cfg_eq] using h.fits
    stored := by simpa [ho.cfg_eq, cpByte_congr hcpmem] using h.stored }

theorem Copying.otherStep {bytes : List Byte} {copied : Nat} {m : Move} {s t : State} (h : Copying bytes copied s)
    (ho : OtherStep m s t) : Copying bytes copied t := by
  obtain ⟨hu, hpos⟩ := h
  refine ⟨hu.otherStep ho fun _ => rfl, ?_⟩
  rw [ho.mainPos_eq, ho.cfg_eq, hpos]

/-- One byte more is copied (R119). -/
theorem Uploading.store {bytes : List Byte} {copied : Nat} {s : State} (h : Uploading bytes true copied s) {b : Byte}
    (hb : bytes[copied]? = some b) (pos : MainPos) :
    Uploading bytes true (copied + 1) { memWrite (s.cfg.uploadBase + copied) b s with mainPos := pos } := by
  have hlt : copied < bytes.length := (List.getElem?_eq_some_iff.1 hb).1
  rw [memWrite_owned (by have := h.fits; omega) (by simp [primaryOwns, h.req, h.taken])]
  refine { h with stored := fun k hk => ?_ }
  change _ = some (cpByte { s with cpmem := Memory.put s.cpmem (s.cfg.uploadBase + copied) b } (s.cfg.uploadBase + k))
  rw [cpByte_put]
  split
  · next he => rw [Nat.add_left_cancel he, hb]
  · next hne => exact h.stored k (by omega)

theorem Uploading.spent {bytes : List Byte} {req : Bool} {copied : Nat} {s : State}
    (h : Uploading bytes req copied s) : Uploading bytes req copied s.spent :=
  { h with }

section

variable {moves : Nat → Move} {r : Nat → State} {bytes : List Byte}

/-! ### The copy -/

/-- `MAIN`'s step in the copy stores the next byte. -/
theorem Copying.next (hrun : IsRun moves r) {n copied : Nat} (h : Copying bytes copied (r n))
    (hlt : copied < bytes.length) (hm : MainMoves moves r n) : Copying bytes (copied + 1) (r (n + 1)) := by
  obtain ⟨hu, hpos⟩ := h
  rw [List.drop_eq_getElem_cons hlt] at hpos
  rw [hrun.mainMove_eq hm hpos nofun]
  refine ⟨hu.spent.store (List.getElem?_eq_getElem hlt) _, ?_⟩
  have hcfg := (Preserves.memWrite ((r n).cfg.uploadBase + copied) bytes[copied] (r n).spent).cfg
  change MainPos.copy _ _ = .copy ((memWrite _ _ _).cfg.uploadBase + _) _
  rw [hcfg]
  rfl

/-- `MAIN` comes to every place of the copy. -/
theorem Copying.reaches (hrun : IsRun moves r) (hprog : MainProgresses moves r) {n : Nat} (h : Copying bytes 0 (r n))
    {copied : Nat} (hle : copied ≤ bytes.length) :
    ∃ m, n ≤ m ∧ Copying bytes copied (r m) ∧ MainMoves moves r m := by
  induction copied with
  | zero => exact hprog.reaches h fun _ hk hm => hk.otherStep (hrun.otherStep hk.1.rights hm)
  | succ copied ih =>
    obtain ⟨m, hnm, hcopy, hmain⟩ := ih (Nat.le_of_succ_le hle)
    obtain ⟨j, hmj, hj⟩ := hprog.reaches (hcopy.next hrun hle hmain) fun _ hk hm =>
      hk.otherStep (hrun.otherStep hk.1.rights hm)
    exact ⟨j, by omega, hj⟩

/-- With the image copied `MAIN` releases the bus and goes to its `READY` poll. -/
theorem Copying.release (hrun : IsRun moves r) {n : Nat} (h : Copying bytes bytes.length (r n))
    (hm : MainMoves moves r n) : AwaitingResume bytes (r (n + 1)) := by
  obtain ⟨hu, hpos⟩ := h
  rw [List.drop_length] at hpos
  rw [hrun.mainMove_eq hm hpos nofun, continueOp, copyStep, writeArbctl_zero]
  exact ⟨{ hu with req := rfl }, 0, rfl⟩

/-! ### The wait for `RESUME` -/

/-- Until `RESUME` the upload waits, whoever moves: the coprocessor does not run, so `MAIN`'s poll reads not ready. -/
theorem AwaitingResume.waits (hrun : IsRun moves r) {n : Nat} (h : AwaitingResume bytes (r n))
    (hm : moves n ≠ .resume) : AwaitingResume bytes (r (n + 1)) := by
  obtain ⟨hu, k, hpos⟩ := h
  by_cases hmain : MainMoves moves r n
  · rw [hrun.mainMove_eq hmain hpos nofun, continueOp, pollReadyStep_again (s := (r n).spent) hu.notReady hu.noBound]
    exact ⟨{ hu with }, k + 1, rfl⟩
  · have ho := hrun.otherStep hu.rights hmain
    exact ⟨hu.otherStep ho fun he => absurd he hm, k, ho.mainPos_eq.trans hpos⟩

/-- `RESUME` starts the coprocessor on the image (R114). -/
theorem AwaitingResume.resumedOnImage {n : Nat} (h : AwaitingResume bytes (r n)) (hm : moves n = .resume) :
    ResumedOnImage bytes moves r n := by
  obtain ⟨hu, -⟩ := h
  exact ⟨hm, by simp [resumeEnabled, hu.req, hu.taken], hu.reset, hu.notReady, hu.stored⟩

theorem AwaitingResume.resume (hrun : IsRun moves r) {n : Nat} (h : AwaitingResume bytes (r n))
    (hm : moves n = .resume) : AwaitingReady (r (n + 1)) := by
  obtain ⟨hu, hpos⟩ := h
  have hstep := hrun.runMove_eq n
  have hen : resumeEnabled (r n).spent = true := by simp [resumeEnabled, State.spent, hu.req, hu.taken]
  rw [hm, runMove, Host.Outcome.next.injEq, Machine.resume, if_pos hen] at hstep
  rw [← hstep]
  exact ⟨hu.noBound, hu.rights, hu.req, rfl, hpos⟩

/-! ### The wait for the firmware -/

/-- Until `MAIN` polls a ready coprocessor, the upload waits for it with the coprocessor running. -/
theorem AwaitingReady.waits (hrun : IsRun moves r) {n : Nat} (h : AwaitingReady (r n))
    (hm : ¬ (MainMoves moves r n ∧ (r n).cpReady = true)) : AwaitingReady (r (n + 1)) := by
  obtain ⟨k, hpos⟩ := h.poll
  by_cases hmain : MainMoves moves r n
  · have hnot : (r n).cpReady = false := by simpa [hmain] using hm
    rw [hrun.mainMove_eq hmain hpos nofun, continueOp, pollReadyStep_again (s := (r n).spent) hnot h.noBound]
    exact { h with poll := ⟨k + 1, rfl⟩ }
  · have ho := hrun.otherStep h.rights hmain
    exact {
      noBound := by simpa [ho.cfg_eq] using h.noBound
      rights := ho.rights
      req := ho.bus.req_eq.trans h.req
      taken := ho.bus.taken_eq_false h.taken fun _ => h.req
      poll := ⟨k, ho.mainPos_eq.trans hpos⟩ }

/-- The upload's own poll, and an interrupt context within its rights, do not reset the coprocessor. -/
theorem AwaitingReady.not_resets {n : Nat} (h : AwaitingReady (r n)) : resetsCoprocessor moves r n = false := by
  obtain ⟨k, hpos⟩ := h.poll
  have hnone := stepArbctl_of_within (s := { r n with script := [moves n] }) h.rights (by simp [issuerArbctl, hpos])
  rw [resetsCoprocessor, hnone]
  rfl

/-- Let run on the image, the firmware sets its flag, and `MAIN` comes to poll it (R115, R253). -/
theorem AwaitingReady.becomesReady (hrun : IsRun moves r) (hfair : FairReady bytes moves r)
    (hprog : MainProgresses moves r) {n : Nat} (hres : ResumedOnImage bytes moves r n) (h : AwaitingReady (r (n + 1))) :
    ∃ m, n < m ∧ AwaitingReady (r m) ∧ MainMoves moves r m ∧ (r m).cpReady = true := by
  refine holds_until (P := fun k => AwaitingReady (r k)) h (fun _ => AwaitingReady.waits hrun) ?_
  by_contra hnone
  have hall : ∀ k, n < k → AwaitingReady (r k) :=
    Nat.le_induction h fun k hk hw => hw.waits hrun fun he => hnone ⟨k, hk, he⟩
  obtain ⟨k, hnk, hready⟩ := hfair n hres fun j hj =>
    ⟨by simp [cpStepEnabled, (hall j hj).taken], (hall j hj).not_resets⟩
  obtain ⟨j, hkj, hmain⟩ := hprog k
  exact hnone ⟨j, by omega, hmain, hready j hkj⟩

end

/-- Settles O22: the stages one after another, `MAIN`'s progress, `FAIR_RESUME` and `FAIR_READY` each ending one. -/
theorem uploadProgramReturnsUnderFairReady : Obligations.UploadProgramReturnsUnderFairReady := by
  intro moves r n k bytes hrun hresume hready hprog hrights hpos howns hreset hnot hbound hfits
  obtain ⟨hreq, htaken⟩ : (r n).req = true ∧ (r n).taken = true := by simpa [primaryOwns] using howns
  have hstart : Uploading bytes true 0 (r n) :=
    ⟨hbound, hrights, hreq, htaken, hreset, hnot, hfits, fun _ hk => absurd hk (Nat.not_lt_zero _)⟩
  obtain ⟨a, ha, ⟨hpoll, hposa⟩, hmain⟩ := hprog.reaches
    (P := fun s => Uploading bytes true 0 s ∧ s.mainPos = .pollTaken k (some bytes)) ⟨hstart, hpos⟩
    fun i ⟨hu, hp⟩ hm => by
      have ho := hrun.otherStep hu.rights hm
      exact ⟨hu.otherStep ho fun _ => rfl, ho.mainPos_eq.trans hp⟩
  have hcopy : Copying bytes 0 (r (a + 1)) := by
    rw [hrun.mainMove_eq hmain hposa nofun, continueOp, pollTakenStep_copy (s := (r a).spent) hpoll.taken]
    exact ⟨{ hpoll with }, rfl⟩
  obtain ⟨b, hb, hdone, hmainb⟩ := hcopy.reaches hrun hprog le_rfl
  obtain ⟨c, hc, hwait, hmc⟩ := hresume.reaches (hdone.release hrun hmainb)
    (fun s ⟨hu, _⟩ => by simp [resumeEnabled, hu.req, hu.taken]) fun _ => AwaitingResume.waits hrun
  obtain ⟨d, hd, hw, hmaind, hrdy⟩ := (hwait.resume hrun hmc).becomesReady hrun hready hprog (hwait.resumedOnImage hmc)
  obtain ⟨i, hi⟩ := hw.poll
  refine ⟨d + 1, by omega, ?_⟩
  rw [hrun.mainMove_eq hmaind hi nofun, continueOp, pollReadyStep_ok (s := (r d).spent) hrdy]
  exact ⟨rfl, rfl, hrdy⟩

end Sys2Proof.Machine
end

