-- ==== Sys2Proof/Proofs/PlacementAndReset.lean ====
section
/-! PROOF. The step after a word is placed (O6), and the state after block reset (O58). -/

namespace Sys2Proof.Machine

theorem mainTurn_withFetchWord (s : State) (n w : Nat) : MainTurn (s.withFetchWord n w) := ⟨rfl, rfl⟩

theorem fetch_withFetchWord (s : State) (n w : Nat) :
    fetch (s.withFetchWord n w) = some (.txn (BitVec.ofNat 32 w)) := rfl

/-- Settles O6: the placed word is what `MAIN` fetches, on its turn and in no operation. -/
theorem placedWordRunsNext : Obligations.PlacedWordRunsNext := by
  intro s n w i hd
  rw [step_idle (mainTurn_withFetchWord s n w) rfl (fetch_withFetchWord s n w), issueCmd, issueTxn_of_decode hd]
  rfl

/-- Both ports stand alike after block reset (R44). -/
theorem reset_io (p : Port) : State.reset.io p = PortRegs.reset := by
  cases p <;> rfl

/-- Settles O58: each field of the reset state, the ports' from the one reset port. -/
theorem resetValues : Obligations.ResetValues := by
  refine ⟨rfl, rfl, rfl, rfl, fun p => ?_, rfl, rfl, rfl, rfl, rfl, rfl, rfl, rfl⟩
  rw [reset_io]
  exact ⟨rfl, rfl, rfl, rfl, rfl, rfl, Nat.zero_le _⟩

end Sys2Proof.Machine
end

