-- ==== Sys2Proof/Proofs/RingQueue.lean ====
section
/-! PROOF. The ring buffer as a queue: its slots in the order they are read, empty and full told apart (O48), and what a
write and a read make of the bytes queued (O46). -/

namespace Sys2Proof.Machine

/-! ### Slots in the order they are read -/

/-- The slot that holds the `k`th byte from the consumer cursor on, modulo `N` (R171). -/
def ringSlot (s : State) (k : Nat) : Nat := (s.readHead.toNat + k) % s.cfg.bufLen

theorem ringContents_eq (s : State) :
    ringContents s = (List.range (ringUsed s)).map fun k => ringByte s (ringSlot s k) := rfl

theorem ringSlot_succ (s : State) (k : Nat) : ringSlot s (k + 1) = (ringSlot s k + 1) % s.cfg.bufLen := by
  simp [ringSlot, Nat.add_assoc]

/-- Within one turn of the ring no slot comes twice. -/
theorem ringSlot_inj {s : State} {j k : Nat} (hj : j < s.cfg.bufLen) (hk : k < s.cfg.bufLen)
    (h : ringSlot s j = ringSlot s k) : j = k :=
  Nat.ModEq.eq_of_lt_of_lt (Nat.ModEq.add_left_cancel' _ h) hj hk

/-! ### The two operations where they raise nothing -/

theorem ringWrite_of_room {s : State} (h : ringFull s = false) (b : Byte) :
    ringWrite b s =
      { s with buf := Memory.put s.buf s.writeHead.toNat b, writeHead := nextCursor s.cfg.bufLen s.writeHead } := by
  simp [ringWrite, h]

theorem ringRead_of_nonempty {s : State} (h : ringEmpty s = false) :
    ringRead s = (ringByte s s.readHead.toNat, { s with readHead := nextCursor s.cfg.bufLen s.readHead }) := by
  simp [ringRead, h]

/-- The byte a data register takes is the low byte of `DATA` (R95). -/
theorem dataByte_eq_setWidth (d : Word) : dataByte d = d.setWidth 8 :=
  (BitVec.setWidth_eq_extractLsb' (by decide)).symm

namespace Legal

variable {s : State} (h : Legal s)
include h

theorem ringSlot_zero : ringSlot s 0 = s.readHead.toNat := Nat.mod_eq_of_lt h.readHead

theorem ringSlot_bufLen : ringSlot s s.cfg.bufLen = s.readHead.toNat := by
  rw [ringSlot, Nat.add_mod_right, Nat.mod_eq_of_lt h.readHead]

theorem ringUsed_lt : ringUsed s < s.cfg.bufLen := by
  have hr := h.readHead
  have hw := h.writeHead
  unfold ringUsed
  split <;> omega

/-- The producer cursor is the slot past the bytes queued. -/
theorem ringSlot_ringUsed : ringSlot s (ringUsed s) = s.writeHead.toNat := by
  have hr := h.readHead
  unfold ringSlot ringUsed
  split
  · rw [Nat.add_sub_cancel' ‹_›, Nat.mod_eq_of_lt h.writeHead]
  · rw [Nat.add_sub_cancel' (by omega), Nat.add_mod_right, Nat.mod_eq_of_lt h.writeHead]

/-- The number of bytes queued is told by the two cursors. -/
theorem ringUsed_eq {k : Nat} (hk : k < s.cfg.bufLen) (hslot : ringSlot s k = s.writeHead.toNat) : ringUsed s = k :=
  ringSlot_inj h.ringUsed_lt hk (h.ringSlot_ringUsed.trans hslot.symm)

theorem nextCursor_eq (c : Word) : (nextCursor s.cfg.bufLen c).toNat = (c.toNat + 1) % s.cfg.bufLen := by
  obtain ⟨hlo, hhi⟩ := bufLen_bounds_of_wf h.params
  exact nextCursor_toNat c (by omega) hhi

/-! ### Empty and full -/

theorem ringEmpty_iff : ringEmpty s = true ↔ ringUsed s = 0 := by
  have hN := Nat.zero_lt_of_lt h.readHead
  rw [ringEmpty, decide_eq_true_eq, ← BitVec.toNat_inj]
  constructor
  · intro heq
    exact h.ringUsed_eq hN (h.ringSlot_zero.trans heq.symm)
  · intro hused
    rw [← h.ringSlot_ringUsed, hused, h.ringSlot_zero]

theorem ringFull_iff : ringFull s = true ↔ ringUsed s + 1 = s.cfg.bufLen := by
  have hN := Nat.zero_lt_of_lt h.readHead
  rw [ringFull, decide_eq_true_eq, ← BitVec.toNat_inj, h.nextCursor_eq, ← h.ringSlot_ringUsed, ← ringSlot_succ]
  constructor
  · intro heq
    by_contra hne
    have hlt : ringUsed s + 1 < s.cfg.bufLen := lt_of_le_of_ne h.ringUsed_lt hne
    exact absurd (ringSlot_inj hlt hN (heq.trans h.ringSlot_zero.symm)) (Nat.succ_ne_zero _)
  · intro heq
    rw [heq, h.ringSlot_bufLen]

/-! ### Write and read -/

/-- With room, one byte more is still fewer than `N` (R186). -/
theorem ringUsed_succ_lt (hroom : ringFull s = false) : ringUsed s + 1 < s.cfg.bufLen :=
  lt_of_le_of_ne h.ringUsed_lt fun heq => by simp [h.ringFull_iff.2 heq] at hroom

/-- A write with room queues its byte after the others (R172). -/
theorem ringContents_ringWrite (hroom : ringFull s = false) (b : Byte) :
    ringContents (ringWrite b s) = ringContents s ++ [b] := by
  have hused : ringUsed (ringWrite b s) = ringUsed s + 1 := by
    have ht := (Preserves.ringWrite b s).legal h
    rw [ringWrite_of_room hroom] at ht ⊢
    refine ht.ringUsed_eq (h.ringUsed_succ_lt hroom) ?_
    change ringSlot s (ringUsed s + 1) = (nextCursor s.cfg.bufLen s.writeHead).toNat
    rw [h.nextCursor_eq, ringSlot_succ, h.ringSlot_ringUsed]
  have hbyte (k : Nat) (hk : k < s.cfg.bufLen) :
      ringByte (ringWrite b s) (ringSlot (ringWrite b s) k) =
        if k = ringUsed s then b else ringByte s (ringSlot s k) := by
    rw [ringWrite_of_room hroom]
    change ringByte { s with buf := Memory.put s.buf s.writeHead.toNat b } (ringSlot s k) = _
    rw [ringByte_put, ← h.ringSlot_ringUsed]
    exact if_congr ⟨ringSlot_inj hk h.ringUsed_lt, congrArg _⟩ rfl rfl
  have hlt := h.ringUsed_lt
  rw [ringContents_eq, hused, List.range_succ, List.map_append, ringContents_eq]
  congr 1
  · refine List.map_congr_left fun k hk => ?_
    have hk := List.mem_range.1 hk
    rw [hbyte k (hk.trans hlt), if_neg hk.ne]
  · simp [hbyte (ringUsed s) hlt]

/-- A buffer that is not empty holds the byte at its consumer cursor, and a read leaves the others (R173). -/
theorem ringContents_ringRead (hne : ringEmpty s = false) :
    ringContents s = (ringRead s).1 :: ringContents (ringRead s).2 := by
  obtain ⟨n, hn⟩ : ∃ n, ringUsed s = n + 1 :=
    Nat.exists_eq_succ_of_ne_zero fun h0 => by simp [h.ringEmpty_iff.2 h0] at hne
  have hslot (k : Nat) : ringSlot (ringRead s).2 k = ringSlot s (k + 1) := by
    rw [ringRead_of_nonempty hne]
    change ((nextCursor s.cfg.bufLen s.readHead).toNat + k) % s.cfg.bufLen = _
    rw [h.nextCursor_eq, Nat.mod_add_mod, Nat.add_right_comm]
    rfl
  have hlt := h.ringUsed_lt
  have hused : ringUsed (ringRead s).2 = n := by
    have ht := (Preserves.ringRead s).legal h
    refine ht.ringUsed_eq ?_ ?_
    · rw [(Preserves.ringRead s).cfg]
      omega
    · rw [hslot, ← hn, h.ringSlot_ringUsed, ringRead_of_nonempty hne]
  have hbytes (k : Nat) : ringByte (ringRead s).2 k = ringByte s k := by
    rw [ringRead_of_nonempty hne]
    rfl
  simp only [ringContents_eq, hused, hn, hslot, hbytes, List.range_succ_eq_map, List.map_cons, List.map_map,
    h.ringSlot_zero]
  rw [ringRead_of_nonempty hne]
  rfl

theorem ringEmpty_iff_ringContents : ringEmpty s = true ↔ ringContents s = [] := by
  rw [h.ringEmpty_iff, ringContents_eq, List.map_eq_nil_iff, List.range_eq_nil]

end Legal

/-! ### The obligations -/

/-- Settles O48: empty and full by the number of bytes queued, which stays below `N`, and `N` is at least 2. -/
theorem emptyAndFullAreToldApart : Obligations.EmptyAndFullAreToldApart := by
  intro s h
  obtain ⟨hN, -⟩ := bufLen_bounds_of_wf h.params
  have hlt := h.ringUsed_lt
  refine ⟨?_, ?_, h.ringEmpty_iff, by omega⟩
  · rw [← Bool.not_eq_true, Bool.and_eq_true, h.ringEmpty_iff, h.ringFull_iff]
    omega
  · rw [h.ringFull_iff]
    omega

/-- Settles O46: a write with room and a read of a buffer that is not empty, on the list of the bytes queued. -/
theorem ringRefinesAQueue : Obligations.RingRefinesAQueue := by
  intro s h
  refine ⟨fun d hroom => ⟨_, rfl, ?_, ?_⟩, h.ringEmpty_iff_ringContents, fun b rest hcons => ⟨_, rfl, ?_⟩⟩
  · rw [← dataByte_eq_setWidth]
    exact h.ringContents_ringWrite hroom (dataByte d)
  · rw [State.returns_flt, ringWrite_of_room hroom]
  · have hne : ringEmpty s = false := by
      rw [← Bool.not_eq_true, h.ringEmpty_iff_ringContents, hcons]
      exact List.cons_ne_nil b rest
    obtain ⟨hb, hrest⟩ := List.cons.inj ((h.ringContents_ringRead hne).symm.trans hcons)
    exact ⟨by rw [State.returns_result, hb]; rfl, hrest, by rw [State.returns_flt, ringRead_of_nonempty hne]⟩

end Sys2Proof.Machine
end

