-- ==== Sys2Proof/Proofs/StepParts.lean ====
section
/-! PROOF. What holds between the states before and after every part of a step holds of the step of every agent, said
once for the claims that follow. -/

namespace Sys2Proof.Machine

/-- A relation that every part of a step keeps to: the choice used up, an issuer's transaction, the parts of the
interrupt context, and the autonomous steps. -/
structure KeptByParts (R : State → State → Prop) : Prop where
  refl : ∀ s, R s s
  trans : ∀ {s t u}, R s t → R t u → R s u
  choice : ∀ s, R s (afterChoice s)
  issue : ∀ {s t}, issueNext s = .next t → R s t
  swap : ∀ {s t}, R s.swapIssuer t → R s t.swapIssuer
  enter : ∀ s, R s (intEnter s)
  drain : ∀ p pos s, R s (drainStep p pos s).2
  place : ∀ s inIrq intPos, R s { s with inIrq := inIrq, intPos := intPos }
  grant : ∀ s, R s (grant s)
  resume : ∀ s, R s (resume s)
  cpStep : ∀ c stores ready s, R s (cpStep c stores ready s)
  rxArrive : ∀ p b s, R s (rxArrive p b s)
  txShift : ∀ p s, R s (txShift p s)

namespace KeptByParts

variable {R : State → State → Prop} (h : KeptByParts R) {s t : State}
include h

theorem mainStep (hs : mainStep s = .next t) : R s t := by
  obtain ⟨-, hm⟩ | ⟨-, hm⟩ := mainStep_cases s
  · cases hm.symm.trans hs
    exact h.refl s
  · exact h.issue (hm.symm.trans hs)

theorem handlerStep (hs : handlerStep s = .next t) : R s t := by
  obtain ⟨u, hu, rfl⟩ := handlerStep_eq_next.1 hs
  exact h.swap (h.issue hu)

theorem intStep (hs : intStep s = .next t) : R s t := by
  obtain ⟨-, -, hi⟩ | ⟨-, -, hi⟩ | ⟨-, pos, p, -, -, hi⟩ | ⟨-, -, -, hi⟩ | ⟨-, -, -, hi⟩ := intStep_cases s
  · cases hi.symm.trans hs
    exact h.enter s
  · cases hi.symm.trans hs
    exact h.refl s
  · cases hi.symm.trans hs
    exact h.trans (h.drain p pos s) (h.place _ _ _)
  · cases hi.symm.trans hs
    exact h.place s false none
  · exact h.trans (h.place s s.inIrq none) (h.handlerStep (hi.symm.trans hs))

theorem runMove {m : Move} (hs : runMove m s = .next t) : R s t := by
  cases m with
  | main => exact h.mainStep hs
  | int => exact h.intStep hs
  | grant => cases hs; exact h.grant s
  | resume => cases hs; exact h.resume s
  | cpStep c stores ready => cases hs; exact h.cpStep c stores ready s
  | rxArrive p b => cases hs; exact h.rxArrive p b s
  | txShift p => cases hs; exact h.txShift p s

/-- A relation that every part of a step keeps to, every step of every agent keeps to. -/
theorem step (hs : step s = .next t) : R s t := by
  rw [step_eq] at hs
  exact h.trans (h.choice s) (h.runMove hs)

end KeptByParts

end Sys2Proof.Machine
end

