-- ==== Sys2Proof/Proofs/StickyFaults.lean ====
section
/-! PROOF. No step of any agent clears a bit of `FLT` (O52): every operation leaves `flt` as it is or raises one fault. -/

namespace Sys2Proof.Machine

/-- No bit of `flt` is cleared from the one state to the other (R26, R191). -/
def FaultsStay (s t : State) : Prop := ∀ k, s.flt.getLsbD k = true → t.flt.getLsbD k = true

theorem FaultsStay.of_eq {s t : State} (h : t.flt = s.flt) : FaultsStay s t := fun k hk => by rwa [h]

/-- Raising a fault sets its bit and clears none. -/
theorem FaultsStay.of_raise {s t : State} (f : Raised) (h : t.flt = (s.raise f).flt) : FaultsStay s t := fun k hk => by
  rw [h, State.raise_flt, BitVec.getLsbD_or, hk, Bool.true_or]

theorem FaultsStay.trans {s t u : State} (h : FaultsStay s t) (h' : FaultsStay t u) : FaultsStay s u :=
  fun k hk => h' k (h k hk)

theorem Effect.faultsStay {bus : Bool} {s t : State} (h : Effect bus s t) : FaultsStay s t := by
  cases h with
  | arbctl _ d =>
    obtain ⟨-, h⟩ | ⟨-, -, h⟩ | ⟨-, -, h⟩ := writeArbctl_cases d s <;> exact .of_eq (by rw [h])
  | memWrite _ a v =>
    obtain ⟨-, h⟩ | ⟨-, -, h⟩ | ⟨-, -, h⟩ := memWrite_cases a v s <;> rw [h]
    · exact .of_raise _ rfl
    · exact .of_raise _ rfl
    · exact .of_eq rfl
  | memRead a =>
    obtain ⟨-, h⟩ | ⟨-, -, h⟩ | ⟨-, -, h⟩ := memRead_cases a s <;> rw [h]
    · exact .of_raise (.cpmemRange a) rfl
    · exact .of_raise (.busNotOwned a) rfl
    · exact .of_eq rfl
  | badTxn w => obtain ⟨-, h⟩ | ⟨-, h⟩ := badTxn_cases w s <;> rw [h] <;> exact .of_raise (.badTxn w) rfl
  | writeCtrl p d => exact .of_eq (s.setIo_flt p _)
  | writeSctrl p d => exact .of_eq (s.setIo_flt p _)
  | pushTx p b =>
    obtain ⟨-, h⟩ | ⟨-, h⟩ := pushTx_cases p b s <;> rw [h]
    · exact .of_eq (s.setIo_flt p _)
    · exact .of_raise (.txOverrun p) (State.setIo_flt _ p _)
  | popRx p =>
    obtain ⟨_, _, -, h⟩ | ⟨-, h⟩ := popRx_cases p s <;> rw [h]
    · exact .of_eq (s.setIo_flt p _)
    · exact .of_raise (.rxUnderflow p) rfl
  | ringWrite b =>
    obtain ⟨-, h⟩ | ⟨-, -, h⟩ | ⟨-, -, h⟩ := ringWrite_cases b s <;> rw [h]
    · exact .of_eq rfl
    · exact .of_raise _ rfl
    · exact .of_raise .rbOverflow rfl
  | ringRead =>
    obtain ⟨-, h⟩ | ⟨-, h⟩ := ringRead_cases s <;> rw [h]
    · exact .of_eq rfl
    · exact .of_raise .rbUnderflow rfl
  | ringReset d => obtain ⟨-, h⟩ | ⟨-, h⟩ := ringReset_cases d s <;> exact .of_eq (by rw [h])
  | drawn | writeMode | writeImask | note => exact .of_eq rfl

theorem Effects.faultsStay {bus : Bool} {s t : State} (h : Effects bus s t) : FaultsStay s t := by
  induction h with
  | refl => exact .of_eq rfl
  | tail _ h ih => exact ih.trans h.faultsStay

theorem FaultsStay.issueNext {s t : State} (h : issueNext s = .next t) : FaultsStay s t := by
  obtain ⟨u, hu, he⟩ := issueNext_effects s
  cases hu.symm.trans h
  exact he.faultsStay

theorem FaultsStay.rxArrive (p : Port) (b : Byte) (s : State) : FaultsStay s (rxArrive p b s) := by
  obtain ⟨-, h⟩ | ⟨-, h⟩ := rxArrive_cases p b s <;> rw [h]
  · exact .of_eq (s.setIo_flt p _)
  · exact .of_raise (.rxfifoOverrun p) (State.setIo_flt _ p _)

/-- Every part of a step leaves the bits of `flt` that are set so. -/
theorem FaultsStay.keptByParts : KeptByParts FaultsStay where
  refl _ := .of_eq rfl
  trans := .trans
  choice _ := .of_eq rfl
  issue := .issueNext
  swap h := h
  enter s := .of_eq (by obtain ⟨_, h, -⟩ := intEnter_eq s; rw [h])
  drain p pos s := (drainStep_effects (bus := false) p pos s).faultsStay
  place _ _ _ := .of_eq rfl
  grant s := .of_eq (by obtain ⟨-, -, h⟩ | ⟨-, h⟩ := grant_cases s <;> rw [h])
  resume s := .of_eq (by obtain ⟨-, -, h⟩ | ⟨-, h⟩ := resume_cases s <;> rw [h])
  cpStep c stores ready s := .of_eq (by obtain ⟨-, h⟩ | ⟨-, h⟩ := cpStep_cases c stores ready s <;> rw [h])
  rxArrive := .rxArrive
  txShift p s := .of_eq (by obtain ⟨_, _, -, h⟩ | ⟨-, h⟩ := txShift_cases p s <;> simp [h])

/-- Settles O52: every part of every agent's step lets the faults stay. -/
theorem faultFlagsAreSticky : Obligations.FaultFlagsAreSticky :=
  fun _ _ => FaultsStay.keptByParts.step

end Sys2Proof.Machine
end

