-- ==== Sys2Proof/Proofs/Transport.lean ====
section
/-! PROOF. The transport never becomes `Uninitialized` again, and has a port selected wherever it left that state or is
about to (O39). -/

namespace Sys2Proof.Machine

/-! ### What the invariant is read from -/

/-- The selected port, the transport's state, and the places of the two issuers. -/
structure Transport where
  port : Option Port
  serState : SerState
  mainPos : MainPos
  intOp : MainPos

def State.transport (s : State) : Transport :=
  { port := s.port, serState := s.serState, mainPos := s.mainPos, intOp := s.intOp }

/-- The invariant with the claim: a port stays selected where one has to be, and no `Uninitialized` again. -/
structure TransportKept (s t : State) : Prop where
  selected : PortSelected s → PortSelected t
  initialized : s.serState ≠ .uninitialized → t.serState ≠ .uninitialized

namespace TransportKept

theorem of_eq {s t : State} (h : t.transport = s.transport) : TransportKept s t := by
  simp only [State.transport, Transport.mk.injEq] at h
  obtain ⟨hport, hser, hmain, hint⟩ := h
  exact ⟨fun hs => by rwa [PortSelected, hport, hser, hmain, hint], fun hs => by rwa [hser]⟩

theorem trans {s t u : State} (h : TransportKept s t) (h' : TransportKept t u) : TransportKept s u :=
  ⟨h'.selected ∘ h.selected, h'.initialized ∘ h.initialized⟩

theorem swap {s t : State} (h : TransportKept s.swapIssuer t) : TransportKept s t.swapIssuer := by
  have hswap (u : State) : PortSelected u → PortSelected u.swapIssuer := fun hu hor => by
    rw [or_comm (a := insideInit _ = true)] at hor
    exact hu hor
  exact ⟨hswap t ∘ h.selected ∘ hswap s, h.initialized⟩

/-- An issuer may go to any place that is not inside `SerialInit`. -/
theorem place (s : State) {pos : MainPos} (hpos : insideInit pos = false) :
    TransportKept s { s with mainPos := pos } where
  selected hs
    | .inl hser => hs (.inl hser)
    | .inr (.inl hin) => nomatch hpos.symm.trans hin
    | .inr (.inr hin) => hs (.inr (.inr hin))
  initialized := id

/-- Inside `SerialInit` a port is selected already. -/
theorem of_insideInit {s t : State} (hs : insideInit s.mainPos = true) (hport : t.port = s.port)
    (hser : s.serState ≠ .uninitialized → t.serState ≠ .uninitialized) : TransportKept s t :=
  ⟨fun h _ => by rw [hport]; exact h (.inr (.inl hs)), hser⟩

end TransportKept

/-! ### The shared operations -/

@[simp] theorem setIo_transport (s : State) (p : Port) (r : PortRegs) : (s.setIo p r).transport = s.transport := by
  cases p <;> rfl

@[simp] theorem returns_transport (s : State) (r : Result) : (s.returns r).transport = s.transport := rfl

@[simp] theorem raise_transport (s : State) (f : Raised) : (s.raise f).transport = s.transport := rfl

@[simp] theorem drawn_transport (s : State) : s.drawn.transport = s.transport := rfl

@[simp] theorem writeArbctl_transport (d : Word) (s : State) : (writeArbctl d s).transport = s.transport := by
  obtain ⟨-, h⟩ | ⟨-, -, h⟩ | ⟨-, -, h⟩ := writeArbctl_cases d s <;> rw [h] <;> rfl

@[simp] theorem memWrite_transport (a : Nat) (v : Byte) (s : State) : (memWrite a v s).transport = s.transport := by
  obtain ⟨-, h⟩ | ⟨-, -, h⟩ | ⟨-, -, h⟩ := memWrite_cases a v s <;> rw [h] <;> rfl

@[simp] theorem memRead_transport (a : Nat) (s : State) : (memRead a s).2.transport = s.transport := by
  obtain ⟨-, h⟩ | ⟨-, -, h⟩ | ⟨-, -, h⟩ := memRead_cases a s <;> rw [h] <;> rfl

@[simp] theorem badTxn_transport (w : TxnWord) (s : State) : (badTxn w s).transport = s.transport := by
  obtain ⟨-, h⟩ | ⟨-, h⟩ := badTxn_cases w s <;> rw [h] <;> rfl

@[simp] theorem writeCtrl_transport (p : Port) (d : Word) (s : State) : (writeCtrl p d s).transport = s.transport :=
  setIo_transport s p _

@[simp] theorem writeSctrl_transport (p : Port) (d : Word) (s : State) : (writeSctrl p d s).transport = s.transport :=
  setIo_transport s p _

@[simp] theorem pushTx_transport (p : Port) (b : Byte) (s : State) : (pushTx p b s).transport = s.transport := by
  obtain ⟨-, h⟩ | ⟨-, h⟩ := pushTx_cases p b s <;> simp [h]

@[simp] theorem popRx_transport (p : Port) (s : State) : (popRx p s).2.transport = s.transport := by
  obtain ⟨_, _, -, h⟩ | ⟨-, h⟩ := popRx_cases p s <;> simp [h]

@[simp] theorem ringWrite_transport (b : Byte) (s : State) : (ringWrite b s).transport = s.transport := by
  obtain ⟨-, h⟩ | ⟨-, -, h⟩ | ⟨-, -, h⟩ := ringWrite_cases b s <;> rw [h] <;> rfl

@[simp] theorem ringRead_transport (s : State) : (ringRead s).2.transport = s.transport := by
  obtain ⟨-, h⟩ | ⟨-, h⟩ := ringRead_cases s <;> rw [h] <;> rfl

@[simp] theorem ringReset_transport (d : Word) (s : State) : (ringReset d s).transport = s.transport := by
  obtain ⟨-, h⟩ | ⟨-, h⟩ := ringReset_cases d s <;> simp [h, State.transport]

@[simp] theorem drainStep_transport (p : Port) (pos : DrainPos) (s : State) :
    (drainStep p pos s).2.transport = s.transport := by
  obtain ⟨-, _, -, h⟩ | ⟨-, h⟩ | ⟨b, -, h⟩ := drainStep_cases p pos s <;> simp [h]

@[simp] theorem rxArrive_transport (p : Port) (b : Byte) (s : State) : (rxArrive p b s).transport = s.transport := by
  obtain ⟨-, h⟩ | ⟨-, h⟩ := rxArrive_cases p b s <;> simp [h]

@[simp] theorem txShift_transport (p : Port) (s : State) : (txShift p s).transport = s.transport := by
  obtain ⟨_, _, -, h⟩ | ⟨-, h⟩ := txShift_cases p s <;> simp [h]

/-! ### The transactions -/

namespace TransportKept

/-- An operation that leaves the transport alone, and then a place that is not inside `SerialInit`. -/
theorem of_eq_place {s u : State} (h : u.transport = s.transport) {pos : MainPos} (hpos : insideInit pos = false) :
    TransportKept s { u with mainPos := pos } :=
  (of_eq h).trans (place u hpos)

theorem of_eq_finish {s u : State} (h : u.transport = s.transport) (r : Result) : TransportKept s (u.finish r) :=
  (of_eq_place h (pos := .idle) rfl).trans (of_eq rfl)

/-- A first use makes only a transport that is initialized `Active` (R156). -/
theorem firstUse (s : State) : TransportKept s (firstUse s) := by
  rw [firstUse_eq]
  have hiff : (if s.serState = .uninitialized then SerState.uninitialized else .active) ≠ .uninitialized ↔
      s.serState ≠ .uninitialized := by
    split <;> simp_all
  exact ⟨fun hs hor => hs (hor.imp_left hiff.1), hiff.2⟩

theorem serialOp {f : Port → State → State} (s : State) (hf : ∀ p u, TransportKept u (f p u)) :
    TransportKept s (serialOp f s) := by
  obtain ⟨-, h⟩ | ⟨p, -, h⟩ := serialOp_cases f s <;> rw [h]
  · exact of_eq rfl
  · exact (firstUse s).trans (hf p _)

theorem mainDrainStep (p : Port) (pos : DrainPos) (s : State) : TransportKept s (mainDrainStep p pos s) := by
  unfold Machine.mainDrainStep
  split
  · exact of_eq_place (drainStep_transport p pos s) rfl
  · exact of_eq_finish (drainStep_transport p pos s) .void

theorem fifoCheckStep (p : Port) (s : State) : TransportKept s (fifoCheckStep p none s) := by
  refine place s ?_
  split <;> rfl

/-- `SerialInit` selects its port in the step that begins it (R148). -/
theorem execSerialInit {p : Port} {rxInt : Bool} {s t : State} (h : execSerialInit p rxInt s = .next t) :
    TransportKept s t := by
  cases h
  have hview := writeCtrl_transport p (zext16 s.cfg.ctrlInit) { s with port := some p }
  have hport := congrArg Transport.port hview
  have hser := congrArg Transport.serState hview
  exact ⟨fun _ _ => hport.trans_ne nofun, fun hs => hser.trans_ne hs⟩

theorem exec {i : Instr} {s t : State} (h : exec i s = .next t) : TransportKept s t := by
  cases i with
  | rdArbctl | rdArbstat | rdFlt | rdCtrl | rdSctrl | wrMode | rdMode | wrImask | rdImask | rdRbstat | rdRbavail
  | rdRbrd | rdRbwr | isBusTaken | isPresent | rbCanRead | rbAvailable => cases h; exact of_eq rfl
  | wrArbctl | wrCtrl | wrSctrl | wrTxdata | rdRxdata | wrRbdata | rdRbdata | wrRbctl | mrd | mwr | releaseBus | rbWrite
  | rbRead => cases h; exact of_eq (by simp)
  | requestBus => cases h; exact of_eq_place (writeArbctl_transport _ s) rfl
  | uploadProgram image length resetFirst =>
    cases h
    refine of_eq_place ((writeArbctl_transport _ _).trans ?_) rfl
    split <;> rfl
  | serialInit => exact execSerialInit h
  | writeReady | readReady | baudRate => cases h; exact serialOp s fun _ _ => of_eq rfl
  | serWrite | serRead => cases h; exact serialOp s fun _ _ => of_eq (by simp)
  | resetFifos => cases h; exact serialOp s fifoCheckStep
  | rxDrain => cases h; exact serialOp s fun p u => mainDrainStep p .atCheck u

/-- The drain loop of `ResetFifos`: by itself outside `SerialInit`, or inside it with the port selected (R148, R154). -/
theorem resetFifosLoop {s u : State} {init : Option Bool} {pos : MainPos} (hs : insideInit s.mainPos = init.isSome)
    (hpos : insideInit pos = init.isSome) (h : u.transport = s.transport) :
    TransportKept s { u with mainPos := pos } := by
  cases init with
  | none => exact of_eq_place h hpos
  | some rxInt =>
    exact of_insideInit hs (congrArg Transport.port h) (congrArg Transport.serState h).trans_ne

theorem continueOp (s : State) : TransportKept s (continueOp s.mainPos s) := by
  cases hm : s.mainPos with
  | idle => exact of_eq rfl
  | pollTaken n upload =>
    simp only [Machine.continueOp, pollTakenStep]
    split
    · cases upload with
      | none => exact of_eq_finish rfl .ok
      | some bytes => exact place s rfl
    · split <;> exact place s rfl
  | withdraw => exact of_eq_finish (writeArbctl_transport 0 s) _
  | copy a rest =>
    cases rest with
    | nil => exact of_eq_place (writeArbctl_transport 0 s) rfl
    | cons b bs => exact of_eq_place (memWrite_transport a b s) rfl
  | pollReady n =>
    simp only [Machine.continueOp, pollReadyStep]
    split
    · exact of_eq_finish rfl .ok
    · split
      · exact of_eq_finish rfl .busTimeout
      · exact place s rfl
  | initSctrl p rxInt =>
    exact resetFifosLoop (init := some rxInt) (by rw [hm]; rfl) rfl (writeSctrl_transport p _ s)
  | fifoCheck p init =>
    refine resetFifosLoop (u := s) (init := init) (by rw [hm]; rfl) ?_ rfl
    split <;> rfl
  | fifoPop p init => exact resetFifosLoop (init := init) (by rw [hm]; rfl) rfl (popRx_transport p s)
  | ringClear init =>
    have hport := congrArg Transport.port (ringReset_transport 1 s)
    match init with
    | none => exact of_eq_finish (ringReset_transport 1 s) .void
    | some false => exact of_insideInit (by rw [hm]; rfl) hport fun _ => nofun
    | some true => exact resetFifosLoop (init := some true) (by rw [hm]; rfl) rfl (ringReset_transport 1 s)
  | initImask => exact of_insideInit (by rw [hm]; rfl) rfl id
  | initModeRead => exact of_insideInit (by rw [hm]; rfl) rfl id
  | initModeWrite m => exact of_insideInit (by rw [hm]; rfl) rfl fun _ => nofun
  | drain p pos => exact mainDrainStep p pos s

theorem issueCmd {c : Cmd} {s t : State} (h : issueCmd c s = .next t) : TransportKept s t := by
  cases c with
  | txn w =>
    simp only [Machine.issueCmd, issueTxn] at h
    split at h
    · exact exec h
    · cases h; exact of_eq (badTxn_transport w s)
  | op i => exact exec h
  | jump k => cases h; exact of_eq rfl
  | jumpIf c k =>
    cases h
    split <;> exact of_eq rfl

theorem issueNext {s t : State} (h : issueNext s = .next t) : TransportKept s t := by
  obtain ⟨-, hi⟩ | ⟨-, c, -, hi⟩ | ⟨-, -, hi⟩ := issueNext_cases s
  · cases hi.symm.trans h
    exact continueOp s
  · have hadvance : TransportKept s s.advance := of_eq rfl
    exact hadvance.trans (issueCmd (hi.symm.trans h))
  · cases hi.symm.trans h
    exact of_eq rfl

/-! ### The agents -/

/-- Entering the interrupt context begins with `INT` in no operation, and is a first use on a selected port (R201). -/
theorem intEnter (s : State) : TransportKept s (intEnter s) := by
  have hidle : TransportKept s { s with inIrq := true, intPos := some .atCheck, intIdx := 0, intOp := .idle } :=
    (place s.swapIssuer (pos := .idle) rfl).swap.trans (of_eq rfl)
  cases hp : s.port with
  | none => simpa only [Machine.intEnter, hp] using hidle
  | some p => simpa only [Machine.intEnter, hp] using hidle.trans (firstUse _)

theorem keptByParts : KeptByParts TransportKept where
  refl _ := of_eq rfl
  trans := trans
  choice _ := of_eq rfl
  issue := issueNext
  swap := swap
  enter := intEnter
  drain p pos s := of_eq (drainStep_transport p pos s)
  place _ _ _ := of_eq rfl
  grant s := of_eq (by obtain ⟨-, -, h⟩ | ⟨-, h⟩ := grant_cases s <;> simp [h, State.transport])
  resume s := of_eq (by obtain ⟨-, -, h⟩ | ⟨-, h⟩ := resume_cases s <;> simp [h, State.transport])
  cpStep c stores ready s := of_eq (by
    obtain ⟨-, h⟩ | ⟨-, h⟩ := cpStep_cases c stores ready s <;> simp [h, State.transport])
  rxArrive p b s := of_eq (rxArrive_transport p b s)
  txShift p s := of_eq (txShift_transport p s)

end TransportKept

/-- Settles O39: every part of every agent's step keeps the transport. -/
theorem transportStaysInitialized : Obligations.TransportStaysInitialized := by
  intro s t hs h
  obtain ⟨hselected, hinit⟩ := TransportKept.keptByParts.step h
  exact ⟨hselected hs, hinit⟩

end Sys2Proof.Machine
end

