-- ==== Sys2Proof/Proofs/CoprocessorStores.lean ====
section
/-! PROOF. What the stores of one `CP_STEP` leave in coprocessor memory, and that they can leave any content (O15). -/

namespace Sys2Proof.Machine

/-! ### Bytes as memory lists them -/

theorem cpByte_congr_find {s t : State} {a : Nat} (h : Memory.find t.cpmem a = Memory.find s.cpmem a) :
    cpByte t a = cpByte s a := by
  rw [cpByte, cpByte, h]

theorem cpByte_of_find {s : State} {a : Nat} {v : Byte} (h : Memory.find s.cpmem a = some v) : cpByte s a = v := by
  rw [cpByte, h, Option.getD_some]

/-! ### The stores -/

theorem cpStores_find_of_not_mem (size : Nat) {stores : List Host.Cell} {a : Nat} (h : ∀ x ∈ stores, x.1 ≠ a)
    (m : Memory) : Memory.find (cpStores size m stores) a = Memory.find m a := by
  induction stores generalizing m with
  | nil => rfl
  | cons c cs ih =>
    obtain ⟨hc, hcs⟩ := List.forall_mem_cons.1 h
    rw [cpStores, ih hcs]
    split
    · exact Memory.find_put_other m c.2 hc.symm
    · rfl

theorem cpStores_find_of_size_le {size a : Nat} (h : size ≤ a) (stores : List Host.Cell) (m : Memory) :
    Memory.find (cpStores size m stores) a = Memory.find m a := by
  induction stores generalizing m with
  | nil => rfl
  | cons c cs ih =>
    rw [cpStores, ih]
    split
    · next hc => exact Memory.find_put_other m c.2 (hc.trans_le h).ne'
    · rfl

/-- An address in range that is stored to, with one value alone, holds that value. -/
theorem cpStores_find_of_mem {size a : Nat} (ha : a < size) {v : Byte} {stores : List Host.Cell}
    (hmem : (a, v) ∈ stores) (hval : ∀ x ∈ stores, x.1 = a → x.2 = v) (m : Memory) :
    Memory.find (cpStores size m stores) a = some v := by
  induction stores generalizing m with
  | nil => cases hmem
  | cons c cs ih =>
    obtain ⟨hc, hcs⟩ := List.forall_mem_cons.1 hval
    by_cases hlater : (a, v) ∈ cs
    · exact ih hlater hcs _
    · obtain rfl : (a, v) = c := (List.mem_cons.1 hmem).resolve_right hlater
      have hother : ∀ x ∈ cs, x.1 ≠ a := fun x hx hxa =>
        hlater ((Prod.ext hxa (hcs x hx hxa) : x = (a, v)) ▸ hx)
      rw [cpStores, if_pos ha, cpStores_find_of_not_mem size hother, Memory.find_put_same]

/-- The firmware step's stores that write a whole memory: each address the byte a function gives it. -/
def contentStores (f : Nat → Byte) (size : Nat) : List Host.Cell := (List.range size).map fun a => (a, f a)

theorem cpStores_contentStores_find (f : Nat → Byte) {size a : Nat} (ha : a < size) (m : Memory) :
    Memory.find (cpStores size m (contentStores f size)) a = some (f a) := by
  refine cpStores_find_of_mem ha (List.mem_map.2 ⟨a, List.mem_range.2 ha, rfl⟩) (fun x hx hxa => ?_) m
  obtain ⟨b, -, rfl⟩ := List.mem_map.1 hx
  exact congrArg f hxa

/-! ### The step -/

theorem cpStep_of_not_taken {s : State} (h : s.taken = false) (c : CpState) (stores : List Host.Cell) (ready : Bool) :
    cpStep c stores ready s =
      { s with cpState := c, cpmem := cpStores s.cfg.cpmemSize s.cpmem stores, cpReady := ready } := by
  simp [cpStep, cpStepEnabled, h]

theorem cpStep_of_taken {s : State} (h : s.taken = true) (c : CpState) (stores : List Host.Cell) (ready : Bool) :
    cpStep c stores ready s = s := by
  simp [cpStep, cpStepEnabled, h]

theorem step_cpStep {s : State} {c : CpState} {stores : List Host.Cell} {ready : Bool}
    (h : nextMove s = .cpStep c stores ready) : step s = .next (cpStep c stores ready (afterChoice s)) := by
  rw [step_eq, h, runMove]

/-- Settles O15: the enabled and the disabled step, and the stores that write a whole memory. -/
theorem cpStepIsAnyFirmwareStep : Obligations.CpStepIsAnyFirmwareStep := by
  refine ⟨?_, ?_, fun f size => ⟨contentStores f size, ?_⟩⟩
  · intro s c stores ready hmove htaken
    refine ⟨_, step_cpStep hmove, ?_⟩
    rw [cpStep_of_not_taken (s := afterChoice s) htaken]
    refine ⟨rfl, fun a ha => ?_, fun a ha => ?_⟩
    · exact cpByte_congr_find (cpStores_find_of_not_mem s.cfg.cpmemSize ha s.cpmem)
    · exact cpByte_congr_find (cpStores_find_of_size_le ha stores s.cpmem)
  · intro s c stores ready hmove htaken
    rw [step_cpStep hmove, cpStep_of_taken (s := afterChoice s) htaken]
  · intro s c ready t hsize htaken hmove hstep a ha
    rw [step_cpStep hmove, cpStep_of_not_taken (s := afterChoice s) htaken, Host.Outcome.next.injEq] at hstep
    subst hstep hsize
    exact cpByte_of_find (cpStores_contentStores_find f ha s.cpmem)

end Sys2Proof.Machine
end

