-- ==== Sys2Proof/Proofs/OwnedAccesses.lean ====
section
/-! PROOF. The bus in its owner's hands: the other agents leave it and the coprocessor alone (O18), and in-range
accesses raise no fault (O19). -/

namespace Sys2Proof.Machine

theorem primaryOwns_iff (s : State) : primaryOwns s = true ↔ s.req = true ∧ s.taken = true := by
  rw [primaryOwns, Bool.and_eq_true]

/-- Ownership is read from the handshake alone. -/
theorem primaryOwns_congr {s t : State} (h : t.bus = s.bus) : primaryOwns t = primaryOwns s :=
  congrArg (fun b : Bus => b.req && b.taken) h

/-- Ownership is the primary controller's, whichever of its contexts issues. -/
@[simp] theorem swapIssuer_primaryOwns (s : State) : primaryOwns s.swapIssuer = primaryOwns s := rfl

/-! ### The other agents -/

/-- Every agent's move answers a next state. -/
theorem runMove_next (m : Move) (s : State) : ∃ t, runMove m s = .next t := by
  have hissue (u : State) : ∃ t, issueNext u = .next t := (issueNext_effects u).imp fun _ => And.left
  cases m with
  | main =>
    obtain ⟨-, h⟩ | ⟨-, h⟩ := mainStep_cases s
    · exact ⟨s, h⟩
    · exact (hissue s).imp fun _ => h.trans
  | int =>
    obtain ⟨-, -, h⟩ | ⟨-, -, h⟩ | ⟨-, _, _, -, -, h⟩ | ⟨-, -, -, h⟩ | ⟨-, -, -, h⟩ := intStep_cases s
    · exact ⟨_, h⟩
    · exact ⟨_, h⟩
    · exact ⟨_, h⟩
    · exact ⟨_, h⟩
    · obtain ⟨u, hu⟩ := hissue { s with intPos := none }.swapIssuer
      exact ⟨_, h.trans (handlerStep_eq_next.2 ⟨u, hu, rfl⟩)⟩
  | grant | resume | cpStep | rxArrive | txShift => exact ⟨_, rfl⟩

/-- Settles O18: while the bus is taken only `RESUME` moves anything, and the owner's request stands against it. -/
theorem ownershipSurvivesTheOtherAgents : Obligations.OwnershipSurvivesTheOtherAgents := by
  intro s howns hrights hmove
  obtain ⟨hreq, htaken⟩ := (primaryOwns_iff s).1 howns
  obtain ⟨t, ht⟩ := runMove_next (nextMove s) (afterChoice s)
  have ho := OtherStep.runMove (s := afterChoice s) hrights (fun hm => absurd hm hmove) ht
  have hbus : t.bus = s.bus := ho.bus.eq_of_taken htaken fun _ => hreq
  exact ⟨t, (step_eq s).trans ht, (primaryOwns_congr hbus).trans howns, congrArg Bus.cpState hbus,
    congrArg Bus.cpReady hbus, cpByte_congr (congrArg Bus.cpmem hbus), ho.mainPos_eq⟩

/-! ### The owner's accesses -/

theorem memRead_owned {s : State} {a : Nat} (ha : a < s.cfg.cpmemSize) (ho : primaryOwns s = true) :
    memRead a s = (zext16 (cpByte s a), s) := by
  rw [memRead, if_neg (Nat.not_le.2 ha), if_neg (by simp [ho])]

/-- An `MRD` or `MWR` of an address that coprocessor memory has (R60, R124). -/
def AccessInRange (size : Nat) (i : Instr) : Prop :=
  (∃ a, i = .mrd a ∧ a.toNat < size) ∨ ∃ a b, i = .mwr a b ∧ a.toNat < size

/-- The owner's access in range: no fault, and the bus still owned. -/
theorem exec_accessInRange {i : Instr} {s : State} (hi : AccessInRange s.cfg.cpmemSize i) (ho : primaryOwns s = true) :
    ∃ t, exec i s = .next t ∧ t.flt = s.flt ∧ t.raised = s.raised ∧ t.cfg = s.cfg ∧ primaryOwns t = true := by
  obtain ⟨a, rfl, ha⟩ | ⟨a, b, rfl, ha⟩ := hi
  · refine ⟨_, rfl, ?_⟩
    rw [memRead_owned ha ho]
    exact ⟨rfl, rfl, rfl, ho⟩
  · refine ⟨_, rfl, ?_⟩
    rw [memWrite_owned ha ho]
    exact ⟨rfl, rfl, rfl, ho⟩

/-- Settles O19, by induction on the accesses: each leaves the next one its premises. -/
theorem ownedAccessesRaiseNoFault : Obligations.OwnedAccessesRaiseNoFault := by
  intro accesses
  induction accesses with
  | nil => exact fun s ho _ => ⟨s, [], rfl, rfl, rfl, ho⟩
  | cons i is ih =>
    intro s ho hall
    obtain ⟨hi, his⟩ := List.forall_mem_cons.1 hall
    obtain ⟨t, ht, hflt, hraised, hcfg, hot⟩ := exec_accessInRange hi ho
    obtain ⟨u, rs, hu, hflt', hraised', hou⟩ := ih t hot (by rwa [hcfg])
    exact ⟨u, t.result :: rs, by simp only [execAll, ht, hu], hflt'.trans hflt, hraised'.trans hraised, hou⟩

end Sys2Proof.Machine
end

