-- ==== Sys2Proof/Proofs/MutualExclusion.lean ====
section
/-! PROOF. Who changes coprocessor memory (O20): no transaction issued while the primary controller does not own
the bus, and of the other agents none but the coprocessor, while the bus is not taken. -/

namespace Sys2Proof.Machine

/-! ### The transactions -/

@[simp] theorem writeArbctl_cpmem (d : Word) (s : State) : (writeArbctl d s).cpmem = s.cpmem := by
  obtain ⟨-, h⟩ | ⟨-, -, h⟩ | ⟨-, -, h⟩ := writeArbctl_cases d s <;> rw [h]

/-- A write of coprocessor memory that is not the owner's stores nothing (R66). -/
theorem memWrite_cpmem_of_not_owns {s : State} (ho : primaryOwns s = false) (a : Nat) (v : Byte) :
    (memWrite a v s).cpmem = s.cpmem := by
  obtain ⟨-, h⟩ | ⟨-, -, h⟩ | ⟨-, hown, -⟩ := memWrite_cases a v s
  · rw [h, State.raise_cpmem]
  · rw [h, State.raise_cpmem]
  · simp [ho] at hown

/-- Of the instructions that write the bus `MWR` alone writes memory with its first transaction. -/
theorem exec_cpmem_of_not_owns {i : Instr} {s t : State} (ho : primaryOwns s = false) (h : exec i s = .next t) :
    t.cpmem = s.cpmem := by
  cases hw : writesBus i with
  | false =>
    obtain ⟨u, hu, he⟩ := exec_effects i s
    cases hu.symm.trans h
    rw [hw] at he
    exact congrArg Bus.cpmem he.bus_eq
  | true =>
    cases i with
    | mwr a b => cases h; exact memWrite_cpmem_of_not_owns ho a.toNat b
    | wrArbctl | requestBus | releaseBus => cases h; exact writeArbctl_cpmem _ s
    | uploadProgram =>
      cases h
      refine (writeArbctl_cpmem _ _).trans ?_
      split <;> rfl
    | _ => cases hw

/-- Of an operation's later transactions the copy of `UploadProgram` alone writes memory. -/
theorem continueOp_cpmem_of_not_owns {s : State} (ho : primaryOwns s = false) (pos : MainPos) :
    (continueOp pos s).cpmem = s.cpmem := by
  cases pos with
  | idle | fifoCheck | initImask | initModeRead | initModeWrite => rfl
  | pollTaken n upload =>
    simp only [continueOp, pollTakenStep]
    split
    · cases upload <;> rfl
    · split <;> rfl
  | withdraw => exact writeArbctl_cpmem 0 s
  | copy a rest =>
    cases rest with
    | nil => exact writeArbctl_cpmem 0 s
    | cons b bs => exact memWrite_cpmem_of_not_owns ho a b
  | pollReady n =>
    simp only [continueOp, pollReadyStep]
    split
    · rfl
    · split <;> rfl
  | initSctrl p rxInt => exact s.setIo_cpmem p _
  | fifoPop p init =>
    have he : Effects false s (popRx p s).2 := .single (.popRx p s)
    exact congrArg Bus.cpmem he.bus_eq
  | ringClear init => exact congrArg Bus.cpmem (ringClearStep_effects init s).bus_eq
  | drain p pos => exact congrArg Bus.cpmem (mainDrainStep_effects p pos s).bus_eq

theorem issueCmd_cpmem_of_not_owns {c : Cmd} {s t : State} (ho : primaryOwns s = false) (h : issueCmd c s = .next t) :
    t.cpmem = s.cpmem := by
  cases c with
  | txn w =>
    simp only [issueCmd, issueTxn] at h
    split at h
    · exact exec_cpmem_of_not_owns ho h
    · cases h
      have he : Effects false s (badTxn w s) := .single (.badTxn w s)
      exact congrArg Bus.cpmem he.bus_eq
  | op i => exact exec_cpmem_of_not_owns ho h
  | jump k => cases h; rfl
  | jumpIf c k => cases h; split <;> rfl

/-- No transaction of either issuer writes coprocessor memory unless the primary controller owns the bus (R75). -/
theorem issueNext_cpmem_of_not_owns {s t : State} (ho : primaryOwns s = false) (h : issueNext s = .next t) :
    t.cpmem = s.cpmem := by
  obtain ⟨-, hi⟩ | ⟨-, c, -, hi⟩ | ⟨-, -, hi⟩ := issueNext_cases s
  · cases hi.symm.trans h
    exact continueOp_cpmem_of_not_owns ho s.mainPos
  · exact issueCmd_cpmem_of_not_owns (s := s.advance) ho (hi.symm.trans h)
  · cases hi.symm.trans h
    rfl

/-! ### The agents -/

@[simp] theorem grant_cpmem (s : State) : (grant s).cpmem = s.cpmem := by
  obtain ⟨-, -, h⟩ | ⟨-, h⟩ := grant_cases s <;> rw [h]

@[simp] theorem resume_cpmem (s : State) : (resume s).cpmem = s.cpmem := by
  obtain ⟨-, -, h⟩ | ⟨-, h⟩ := resume_cases s <;> rw [h]

@[simp] theorem rxArrive_cpmem (p : Port) (b : Byte) (s : State) : (rxArrive p b s).cpmem = s.cpmem := by
  obtain ⟨-, h⟩ | ⟨-, h⟩ := rxArrive_cases p b s <;> simp [h]

@[simp] theorem txShift_cpmem (p : Port) (s : State) : (txShift p s).cpmem = s.cpmem := by
  obtain ⟨_, _, -, h⟩ | ⟨-, h⟩ := txShift_cases p s <;> simp [h]

/-- A step of `MAIN` that changes coprocessor memory is the owner's, outside the interrupt context. -/
theorem owns_of_mainStep_cpmem_ne {s t : State} (h : mainStep s = .next t) (hne : t.cpmem ≠ s.cpmem) :
    primaryOwns s = true ∧ s.inIrq = false := by
  obtain ⟨-, hs⟩ | ⟨hin, hs⟩ := mainStep_cases s
  · cases hs.symm.trans h
    exact absurd rfl hne
  · refine ⟨?_, hin⟩
    by_contra ho
    exact hne (issueNext_cpmem_of_not_owns (by simpa using ho) (hs.symm.trans h))

/-- A step of `INT` that changes coprocessor memory is a transaction of its handler. -/
theorem handlerStep_of_intStep_cpmem_ne {s t : State} (h : intStep s = .next t) (hne : t.cpmem ≠ s.cpmem) :
    s.inIrq = true ∧ handlerStep { s with intPos := none } = .next t := by
  obtain ⟨-, -, hs⟩ | ⟨-, -, hs⟩ | ⟨-, pos, p, -, -, hs⟩ | ⟨-, -, -, hs⟩ | ⟨hin, -, -, hs⟩ := intStep_cases s
  · cases hs.symm.trans h
    obtain ⟨_, hv, -⟩ := intEnter_eq s
    exact absurd (by rw [hv]) hne
  · cases hs.symm.trans h
    exact absurd rfl hne
  · cases hs.symm.trans h
    obtain ⟨-, -, hbus⟩ := drainStep_frame p pos s
    exact absurd (congrArg Bus.cpmem hbus) hne
  · cases hs.symm.trans h
    exact absurd rfl hne
  · exact ⟨hin, hs.symm.trans h⟩

/-- A transaction of the handler that changes coprocessor memory is issued by the owner, out of `INT`'s rights. -/
theorem owns_of_handlerStep_cpmem_ne {s t : State} (h : handlerStep s = .next t) (hne : t.cpmem ≠ s.cpmem) :
    primaryOwns s = true ∧ intWithinRights s = false := by
  obtain ⟨u, hu, rfl⟩ := handlerStep_eq_next.1 h
  constructor
  · by_contra ho
    exact hne (issueNext_cpmem_of_not_owns (s := s.swapIssuer) (t := u) (by simpa using ho) hu)
  · by_contra hr
    obtain ⟨hprog, hplace⟩ := (intWithinRights_iff s).1 (by simpa using hr)
    obtain ⟨he, -⟩ := issueNext_within (s := s.swapIssuer) hprog hplace hu
    exact hne (congrArg Bus.cpmem he.bus_eq)

/-- Settles O20: agent by agent, what a changed byte of coprocessor memory says of the step. -/
theorem onlyTheOwnerChangesCoprocessorMemory : Obligations.OnlyTheOwnerChangesCoprocessorMemory := by
  intro s t a h hbyte
  have hne : t.cpmem ≠ (afterChoice s).cpmem := fun he => hbyte (cpByte_congr (s := s) he a)
  rw [step_eq] at h
  cases hmove : nextMove s with
  | main =>
    rw [hmove] at h
    obtain ⟨howns, hin⟩ := owns_of_mainStep_cpmem_ne h hne
    exact .inr ⟨howns, .inl ⟨hmove, hin⟩⟩
  | int =>
    rw [hmove] at h
    obtain ⟨hin, hhandler⟩ := handlerStep_of_intStep_cpmem_ne h hne
    obtain ⟨howns, hrights⟩ := owns_of_handlerStep_cpmem_ne hhandler hne
    exact .inr ⟨howns, .inr ⟨rfl, hin, hrights⟩⟩
  | cpStep c stores ready =>
    refine .inl ⟨?_, c, stores, ready, rfl⟩
    by_contra htaken
    rw [hmove, runMove, cpStep_of_taken (s := afterChoice s) (by simpa using htaken)] at h
    cases h
    exact hne rfl
  | grant | resume | rxArrive | txShift =>
    rw [hmove] at h
    cases h
    exact absurd (by simp) hne

end Sys2Proof.Machine
end

