-- ==== Sys2Proof/Proofs/TransactionWord.lean ====
section
/-! PROOF. The transaction word: the decoder by the two formats, that decoder and encoder are each other's inverse (O1,
O2), that the decoder accepts what the opcode map lists (O3), and the example words (O4). -/

namespace Sys2Proof

/-! ### The bits and the fields of a packed word -/

section Fields

variable (w : Bool) (reg : BitVec 8) (d a : Word) (b : Byte)

/-- The bits of a format R word: `DATA`, `REG`, and `W` alone above them (R91). -/
theorem getLsbD_packR (k : Nat) : (packR w reg d).getLsbD k =
    if k < 16 then d.getLsbD k else if k < 24 then reg.getLsbD (k - 16) else decide (k = 31) && w := by
  simp only [packR, BitVec.getLsbD_or, BitVec.getLsbD_shiftLeft, BitVec.getLsbD_setWidth, BitVec.getLsbD_ofBool]
  have hd (h : 16 ≤ k) : d.getLsbD k = false := BitVec.getLsbD_of_ge d k h
  have hreg (h : 24 ≤ k) : reg.getLsbD (k - 16) = false := BitVec.getLsbD_of_ge reg _ (by omega)
  split_ifs with h16 h24
  · simp [h16, show k < 31 by omega, show k < 32 by omega]
  · simp [h16, hd (by omega), show k < 31 by omega, show k < 32 by omega, show k - 16 < 32 by omega]
  · simp only [hd (by omega), hreg (by omega)]
    by_cases hk : k = 31
    · simp [hk]
    · simp only [hk, decide_false, Bool.false_and]
      simp; omega

/-- The bits of a format M word: `BYTE`, `ADDR`, and `S` and `W` above them (R92). -/
theorem getLsbD_packM (k : Nat) : (packM w a b).getLsbD k =
    if k < 8 then b.getLsbD k else if k < 24 then a.getLsbD (k - 8) else decide (k = 30) || decide (k = 31) && w := by
  have hs : (0x40000000#32).getLsbD k = decide (k = 30) := by
    rw [show 0x40000000#32 = BitVec.twoPow 32 30 by rfl, BitVec.getLsbD_twoPow]
    simp [eq_comm]
  simp only [packM, BitVec.getLsbD_or, BitVec.getLsbD_shiftLeft, BitVec.getLsbD_setWidth, BitVec.getLsbD_ofBool, hs]
  have hb (h : 8 ≤ k) : b.getLsbD k = false := BitVec.getLsbD_of_ge b k h
  have ha (h : 24 ≤ k) : a.getLsbD (k - 8) = false := BitVec.getLsbD_of_ge a _ (by omega)
  split_ifs with h8 h24
  · simp [h8, show k < 31 by omega, show k < 32 by omega, show k ≠ 30 by omega]
  · have hlt : k < 31 := by omega
    simp [h8, hb (by omega), hlt, show k < 32 by omega, show k - 8 < 32 by omega, show k ≠ 30 by omega]
  · simp only [hb (by omega), ha (by omega)]
    by_cases hk : k = 31
    · simp [hk]
    · simp only [hk, decide_false, Bool.false_and]
      simp; omega

@[simp] theorem fieldW_packR : fieldW (packR w reg d) = w := by
  rw [fieldW, getLsbD_packR]; rfl

@[simp] theorem fieldS_packR : fieldS (packR w reg d) = false := by
  rw [fieldS, getLsbD_packR]; rfl

@[simp] theorem fieldReserved_packR : fieldReserved (packR w reg d) = 0 := by
  ext k hk
  simp [fieldReserved, getLsbD_packR, show ¬24 + k < 16 by omega, show 24 + k ≠ 31 by omega]

@[simp] theorem fieldReg_packR : fieldReg (packR w reg d) = reg := by
  ext k hk
  simp [fieldReg, getLsbD_packR, hk, show 16 + k < 24 by omega]

@[simp] theorem fieldData_packR : fieldData (packR w reg d) = d := by
  ext k hk
  simp [fieldData, getLsbD_packR, hk]

@[simp] theorem fieldW_packM : fieldW (packM w a b) = w := by
  rw [fieldW, getLsbD_packM]; rfl

@[simp] theorem fieldS_packM : fieldS (packM w a b) = true := by
  rw [fieldS, getLsbD_packM]; rfl

@[simp] theorem fieldReserved_packM : fieldReserved (packM w a b) = 0 := by
  ext k hk
  have hne : 24 + k ≠ 30 ∧ 24 + k ≠ 31 := by omega
  simp [fieldReserved, getLsbD_packM, show ¬24 + k < 8 by omega, hne]

@[simp] theorem fieldAddr_packM : fieldAddr (packM w a b) = a := by
  ext k hk
  simp [fieldAddr, getLsbD_packM, hk, show 8 + k < 24 by omega]

@[simp] theorem fieldByte_packM : fieldByte (packM w a b) = b := by
  ext k hk
  simp [fieldByte, getLsbD_packM, hk]

end Fields

/-- A word is of format R by its bits 31:24 (R91). -/
theorem eq_packR_of_top {t : TxnWord} {w : Bool} (h : ∀ k < 32, 24 ≤ k → t.getLsbD k = (decide (k = 31) && w)) :
    t = packR w (fieldReg t) (fieldData t) := by
  refine BitVec.eq_of_getLsbD_eq fun k hk => ?_
  rw [getLsbD_packR]
  split_ifs with h16 h24
  · simp [fieldData, h16]
  · simp [fieldReg, show k - 16 < 8 by omega, show 16 + (k - 16) = k by omega]
  · exact h k hk (by omega)

/-- A word is of format M by its bits 31:24 (R92). -/
theorem eq_packM_of_top {t : TxnWord} {w : Bool}
    (h : ∀ k < 32, 24 ≤ k → t.getLsbD k = (decide (k = 30) || decide (k = 31) && w)) :
    t = packM w (fieldAddr t) (fieldByte t) := by
  refine BitVec.eq_of_getLsbD_eq fun k hk => ?_
  rw [getLsbD_packM]
  split_ifs with h8 h24
  · simp [fieldByte, h8]
  · simp [fieldAddr, show k - 8 < 16 by omega, show 8 + (k - 8) = k by omega]
  · exact h k hk (by omega)

/-- Bits 31:24 of a word with no reserved bit are `W` and `S` (R90). -/
theorem getLsbD_top {t : TxnWord} (hr : fieldReserved t = 0#6) {k : Nat} (hk : k < 32) (h : 24 ≤ k) :
    t.getLsbD k = (decide (k = 30) && fieldS t || decide (k = 31) && fieldW t) := by
  obtain hlt | rfl | rfl : k < 30 ∨ k = 30 ∨ k = 31 := by omega
  · have hbit := congrArg (BitVec.getLsbD · (k - 24)) hr
    simpa [fieldReserved, h, show k - 24 < 6 by omega, show k ≠ 30 by omega, show k ≠ 31 by omega] using hbit
  · simp [fieldS]
  · simp [fieldW]

theorem eq_packR {t : TxnWord} (hr : fieldReserved t = 0#6) (hs : fieldS t = false) :
    t = packR (fieldW t) (fieldReg t) (fieldData t) :=
  eq_packR_of_top fun k hk h => by simp [getLsbD_top hr hk h, hs]

theorem eq_packM {t : TxnWord} (hr : fieldReserved t = 0#6) (hs : fieldS t = true) :
    t = packM (fieldW t) (fieldAddr t) (fieldByte t) :=
  eq_packM_of_top fun k hk h => by simp [getLsbD_top hr hk h, hs]

/-! ### The decoder and the encoder -/

theorem decode_packR_write (reg : BitVec 8) (d : Word) : decode (packR true reg d) = decodeWrite reg d := by
  simp [decode]

theorem decode_packR_read (reg : BitVec 8) : decode (packR false reg 0) = decodeRead reg := by
  simp only [decode, fieldReserved_packR, fieldS_packR, fieldW_packR, fieldReg_packR, fieldData_packR]
  cases decodeRead reg <;> simp

theorem decode_packM_write (a : Word) (b : Byte) : decode (packM true a b) = .ok (.mwr a b) := by
  simp [decode]

theorem decode_packM_read (a : Word) : decode (packM false a 0) = .ok (.mrd a) := by
  simp [decode]

/-- A word that decodes is a packed one: of format M, or of format R with a register that the direction admits; a
read's data field is 0 (R91, R92, R97). -/
theorem decode_ok_cases {t : TxnWord} {i : Instr} (h : decode t = .ok i) :
    (∃ a b, t = packM true a b ∧ i = .mwr a b) ∨ (∃ a, t = packM false a 0 ∧ i = .mrd a) ∨
    (∃ reg d, t = packR true reg d ∧ decodeWrite reg d = .ok i) ∨
    (∃ reg, t = packR false reg 0 ∧ decodeRead reg = .ok i) := by
  have hr : fieldReserved t = 0#6 := by
    by_contra hr
    simp [decode, hr] at h
  cases hs : fieldS t with
  | true =>
    have ht := eq_packM hr hs
    cases hw : fieldW t with
    | true =>
      rw [hw] at ht
      rw [ht, decode_packM_write] at h
      cases h
      exact .inl ⟨_, _, ht, rfl⟩
    | false =>
      have hb : fieldByte t = 0 := by
        by_contra hb
        simp [decode, hr, hs, hw, show fieldByte t ≠ 0#8 from hb] at h
      rw [hw, hb] at ht
      rw [ht, decode_packM_read] at h
      cases h
      exact .inr (.inl ⟨_, ht, rfl⟩)
  | false =>
    have ht := eq_packR hr hs
    cases hw : fieldW t with
    | true =>
      rw [hw] at ht
      rw [ht, decode_packR_write] at h
      exact .inr (.inr (.inl ⟨_, _, ht, h⟩))
    | false =>
      have hd : fieldData t = 0 := by
        by_contra hd
        cases hi : decodeRead (fieldReg t) <;> simp [decode, hr, hs, hw, hi, show fieldData t ≠ 0#16 from hd] at h
      rw [hw, hd] at ht
      rw [ht, decode_packR_read] at h
      exact .inr (.inr (.inr ⟨_, ht, h⟩))

/-- The register number by the number the register map lists it under. -/
theorem reg_eq_of_toNat {reg : BitVec 8} {n : Nat} (h : reg.toNat = n) : reg = BitVec.ofNat 8 n := by
  rw [← h, BitVec.ofNat_toNat, BitVec.setWidth_eq]

theorem encode_of_decodeWrite {reg : BitVec 8} {d : Word} {i : Instr} (h : decodeWrite reg d = .ok i) :
    encode i = some (packR true reg d) := by
  unfold decodeWrite at h
  split at h
  all_goals cases h
  all_goals
    next hreg =>
      rw [reg_eq_of_toNat hreg]
      rfl

theorem encode_of_decodeRead {reg : BitVec 8} {i : Instr} (h : decodeRead reg = .ok i) :
    encode i = some (packR false reg 0) := by
  unfold decodeRead at h
  split at h
  all_goals cases h
  all_goals
    next hreg =>
      rw [reg_eq_of_toNat hreg]
      rfl

/-- The encoder packs the one word that decodes to the instruction. -/
theorem encode_of_decode {t : TxnWord} {i : Instr} (h : decode t = .ok i) : encode i = some t := by
  obtain ⟨a, b, rfl, rfl⟩ | ⟨a, rfl, rfl⟩ | ⟨reg, d, rfl, hi⟩ | ⟨reg, rfl, hi⟩ := decode_ok_cases h
  · rfl
  · rfl
  · exact encode_of_decodeWrite hi
  · exact encode_of_decodeRead hi

/-- The decoder reads every operand back from its field; a level-1 operation has no word (R91 to R93, R102). -/
theorem decode_of_encode {i : Instr} {t : TxnWord} (h : encode i = some t) : decode t = .ok i := by
  cases i with
  | mwr a b =>
    cases h
    exact decode_packM_write a b
  | mrd a =>
    cases h
    exact decode_packM_read a
  | wrArbctl | wrMode | wrImask | wrRbdata | wrRbctl =>
    cases h
    exact decode_packR_write _ _
  | wrCtrl p | wrSctrl p | wrTxdata p =>
    cases h
    cases p <;> exact decode_packR_write _ _
  | rdCtrl p | rdSctrl p | rdRxdata p =>
    cases h
    cases p <;> exact decode_packR_read _
  | rdArbctl | rdArbstat | rdFlt | rdMode | rdImask | rdRbdata | rdRbstat | rdRbavail | rdRbrd | rdRbwr =>
    cases h
    exact decode_packR_read _
  | _ => cases h

theorem exists_encode_of_level0 {i : Instr} (h : i.level0 = true) : ∃ t, encode i = some t := by
  cases i with
  | requestBus | releaseBus | isBusTaken | uploadProgram | serialInit | isPresent | writeReady | serWrite | readReady
  | serRead | resetFifos | baudRate | rbWrite | rbRead | rbCanRead | rbAvailable | rxDrain => cases h
  | _ => exact ⟨_, rfl⟩

/-! ### The rows of the opcode map -/

/-- The bits a row fixes, for every instruction (R94). -/
theorem opcodeRowFixed : ∀ i : Instr, Laws.OpcodeRowFixed.Statement i
  | .wrArbctl d => Laws.OpcodeRowFixed.wrArbctl d
  | .rdArbctl => Laws.OpcodeRowFixed.rdArbctl
  | .rdArbstat => Laws.OpcodeRowFixed.rdArbstat
  | .rdFlt => Laws.OpcodeRowFixed.rdFlt
  | .wrCtrl p d => Laws.OpcodeRowFixed.wrCtrl p d
  | .rdCtrl p => Laws.OpcodeRowFixed.rdCtrl p
  | .wrSctrl p d => Laws.OpcodeRowFixed.wrSctrl p d
  | .rdSctrl p => Laws.OpcodeRowFixed.rdSctrl p
  | .wrTxdata p d => Laws.OpcodeRowFixed.wrTxdata p d
  | .rdRxdata p => Laws.OpcodeRowFixed.rdRxdata p
  | .wrMode d => Laws.OpcodeRowFixed.wrMode d
  | .rdMode => Laws.OpcodeRowFixed.rdMode
  | .wrImask d => Laws.OpcodeRowFixed.wrImask d
  | .rdImask => Laws.OpcodeRowFixed.rdImask
  | .wrRbdata d => Laws.OpcodeRowFixed.wrRbdata d
  | .rdRbdata => Laws.OpcodeRowFixed.rdRbdata
  | .rdRbstat => Laws.OpcodeRowFixed.rdRbstat
  | .rdRbavail => Laws.OpcodeRowFixed.rdRbavail
  | .rdRbrd => Laws.OpcodeRowFixed.rdRbrd
  | .rdRbwr => Laws.OpcodeRowFixed.rdRbwr
  | .wrRbctl d => Laws.OpcodeRowFixed.wrRbctl d
  | .mrd a => Laws.OpcodeRowFixed.mrd a
  | .mwr a b => Laws.OpcodeRowFixed.mwr a b
  | .requestBus _ | .releaseBus | .isBusTaken | .uploadProgram _ _ _ | .serialInit _ _ | .isPresent | .writeReady
  | .serWrite _ | .readReady | .serRead | .resetFifos | .baudRate | .rbWrite _ | .rbRead | .rbCanRead
  | .rbAvailable | .rxDrain => rfl

theorem rowOf_mem_opcodeRows {i : Instr} {value mask : TxnWord} (h : Laws.rowOf i = some (value, mask)) :
    ∃ r ∈ opcodeRows, r.value = value ∧ r.mask = mask := by
  cases i with
  | requestBus | releaseBus | isBusTaken | uploadProgram | serialInit | isPresent | writeReady | serWrite | readReady
  | serRead | resetFifos | baudRate | rbWrite | rbRead | rbCanRead | rbAvailable | rxDrain => cases h
  | _ =>
    cases h
    decide

/-- The word of an instruction matches a row of the opcode map. -/
theorem matches_of_encode {i : Instr} {t : TxnWord} (h : encode i = some t) :
    ∃ r ∈ opcodeRows, r.matches t = true := by
  have hfix := opcodeRowFixed i
  unfold Laws.OpcodeRowFixed.Statement at hfix
  split at hfix
  next value mask hrow =>
    obtain ⟨r, hr, rfl, rfl⟩ := rowOf_mem_opcodeRows hrow
    exact ⟨r, hr, decide_eq_true (hfix.2 t h)⟩
  · cases hfix.symm.trans h

/-! ### A word that matches a row -/

section Masks

variable {t m v : TxnWord}

theorem getLsbD_of_and (h : t &&& m = v) {k : Nat} (hm : m.getLsbD k = true) : t.getLsbD k = v.getLsbD k := by
  rw [← h, BitVec.getLsbD_and, hm, Bool.and_true]

/-- A field that the mask covers is the match value's. -/
theorem extractLsb'_of_and (h : t &&& m = v) {start len : Nat} (hm : m.extractLsb' start len = BitVec.allOnes len) :
    t.extractLsb' start len = v.extractLsb' start len := by
  rw [← h, BitVec.extractLsb'_and, hm, BitVec.and_allOnes]

theorem eq_packR_of_and {w : Bool} {reg : BitVec 8} {d : Word} (h : t &&& m = packR w reg d)
    (hm : ∀ k < 32, 24 ≤ k → m.getLsbD k = true) : t = packR w (fieldReg t) (fieldData t) :=
  eq_packR_of_top fun k hk h24 => by
    rw [getLsbD_of_and h (hm k hk h24), getLsbD_packR, if_neg (by omega), if_neg (by omega)]

theorem eq_packM_of_and {w : Bool} {a : Word} {b : Byte} (h : t &&& m = packM w a b)
    (hm : ∀ k < 32, 24 ≤ k → m.getLsbD k = true) : t = packM w (fieldAddr t) (fieldByte t) :=
  eq_packM_of_top fun k hk h24 => by
    rw [getLsbD_of_and h (hm k hk h24), getLsbD_packM, if_neg (by omega), if_neg (by omega)]

/-- A row's mask leaves bit 2 of a port's register number free, and that bit is the port (R96). -/
theorem portReg_of_and {reg rr : BitVec 8} (h : reg &&& 0xFB#8 = portReg .ext rr) : ∃ p, reg = portReg p rr := by
  have hsplit : reg = (reg &&& 0xFB#8) ||| (reg &&& BitVec.twoPow 8 2) := by
    rw [← BitVec.and_or_distrib_left]
    exact BitVec.and_allOnes.symm
  rw [BitVec.and_twoPow, h] at hsplit
  split at hsplit
  · refine ⟨.ctrl2, hsplit.trans ?_⟩
    rw [portReg, portReg, BitVec.or_assoc, BitVec.or_comm rr, ← BitVec.or_assoc]
    rfl
  · exact ⟨.ext, hsplit.trans BitVec.or_zero⟩

theorem portReg_of_fieldReg_and {w : Bool} {rr : BitVec 8} {d : Word} (h : t &&& m = packR w (portReg .ext rr) d)
    (hm : fieldReg m = 0xFB#8) : ∃ p, fieldReg t = portReg p rr := by
  refine portReg_of_and ?_
  rw [← hm, fieldReg, fieldReg, ← BitVec.extractLsb'_and, h]
  exact fieldReg_packR ..

theorem decodes_of_writeRow (reg : BitVec 8) (hreg : ∀ d, ∃ i, decodeWrite reg d = .ok i)
    (h : t &&& 0xFFFF0000#32 = packR true reg 0) : ∃ i, decode t = .ok i := by
  have hf : fieldReg t = reg := (extractLsb'_of_and h rfl).trans (fieldReg_packR ..)
  rw [eq_packR_of_and h (by decide), decode_packR_write, hf]
  exact hreg _

theorem decodes_of_readRow (reg : BitVec 8) (hreg : ∃ i, decodeRead reg = .ok i)
    (h : t &&& 0xFFFFFFFF#32 = packR false reg 0) : ∃ i, decode t = .ok i := by
  obtain rfl : t = packR false reg 0 := BitVec.and_allOnes.symm.trans h
  rwa [decode_packR_read]

theorem decodes_of_portWriteRow (rr : BitVec 8) (hreg : ∀ p d, ∃ i, decodeWrite (portReg p rr) d = .ok i)
    (h : t &&& 0xFFFB0000#32 = packR true (portReg .ext rr) 0) : ∃ i, decode t = .ok i := by
  obtain ⟨p, hp⟩ := portReg_of_fieldReg_and h rfl
  rw [eq_packR_of_and h (by decide), decode_packR_write, hp]
  exact hreg p _

theorem decodes_of_portReadRow (rr : BitVec 8) (hreg : ∀ p, ∃ i, decodeRead (portReg p rr) = .ok i)
    (h : t &&& 0xFFFBFFFF#32 = packR false (portReg .ext rr) 0) : ∃ i, decode t = .ok i := by
  obtain ⟨p, hp⟩ := portReg_of_fieldReg_and h rfl
  have hd : fieldData t = 0 := (extractLsb'_of_and h rfl).trans (fieldData_packR ..)
  rw [eq_packR_of_and h (by decide), hd, decode_packR_read, hp]
  exact hreg p

theorem decodes_of_mwrRow (h : t &&& 0xFF000000#32 = packM true 0 0) : ∃ i, decode t = .ok i := by
  rw [eq_packM_of_and h (by decide)]
  exact ⟨_, decode_packM_write _ _⟩

theorem decodes_of_mrdRow (h : t &&& 0xFF0000FF#32 = packM false 0 0) : ∃ i, decode t = .ok i := by
  have hb : fieldByte t = 0 := (extractLsb'_of_and h rfl).trans (fieldByte_packM ..)
  rw [eq_packM_of_and h (by decide), hb]
  exact ⟨_, decode_packM_read _⟩

/-- A word that matches a row decodes, row by row. -/
theorem decodes_of_matches : ∀ r ∈ opcodeRows, t &&& r.mask = r.value → ∃ i, decode t = .ok i := by
  simp only [opcodeRows, opcodeRowsArbiter, opcodeRowsSerial, List.cons_append, List.nil_append, List.forall_mem_cons]
  exact
    ⟨decodes_of_writeRow 0x00 fun _ => ⟨_, rfl⟩,
     decodes_of_readRow 0x00 ⟨_, rfl⟩,
     decodes_of_readRow 0x01 ⟨_, rfl⟩,
     decodes_of_readRow 0x02 ⟨_, rfl⟩,
     decodes_of_writeRow 0x20 fun _ => ⟨_, rfl⟩,
     decodes_of_readRow 0x20 ⟨_, rfl⟩,
     decodes_of_writeRow 0x21 fun _ => ⟨_, rfl⟩,
     decodes_of_readRow 0x21 ⟨_, rfl⟩,
     decodes_of_mrdRow,
     decodes_of_mwrRow,
     decodes_of_portWriteRow 0 fun p _ => by cases p <;> exact ⟨_, rfl⟩,
     decodes_of_portReadRow 0 fun p => by cases p <;> exact ⟨_, rfl⟩,
     decodes_of_portWriteRow 1 fun p _ => by cases p <;> exact ⟨_, rfl⟩,
     decodes_of_portReadRow 1 fun p => by cases p <;> exact ⟨_, rfl⟩,
     decodes_of_portWriteRow 2 fun p _ => by cases p <;> exact ⟨_, rfl⟩,
     decodes_of_portReadRow 3 fun p => by cases p <;> exact ⟨_, rfl⟩,
     decodes_of_writeRow 0x30 fun _ => ⟨_, rfl⟩,
     decodes_of_readRow 0x30 ⟨_, rfl⟩,
     decodes_of_readRow 0x31 ⟨_, rfl⟩,
     decodes_of_readRow 0x32 ⟨_, rfl⟩,
     decodes_of_readRow 0x33 ⟨_, rfl⟩,
     decodes_of_readRow 0x34 ⟨_, rfl⟩,
     decodes_of_writeRow 0x35 fun _ => ⟨_, rfl⟩,
     nofun⟩

end Masks

/-! ### The obligations -/

/-- Settles O1: each transaction's word is packed from its operands, and the decoder reads them back. -/
theorem decodeOfEncodeIsTheInstruction : Obligations.DecodeOfEncodeIsTheInstruction := by
  intro i hi
  obtain ⟨t, ht⟩ := exists_encode_of_level0 hi
  exact ⟨t, ht, decode_of_encode ht⟩

/-- Settles O2: a word that decodes is one of the packed words, and the encoder packs the same one. -/
theorem encodeOfDecodeIsTheWord : Obligations.EncodeOfDecodeIsTheWord :=
  fun _ _ => encode_of_decode

/-- Settles O3: what decodes is the word of its instruction (O2), which has a row; and what matches a row decodes. -/
theorem decodeAcceptsExactlyTheOpcodeRows : Obligations.DecodeAcceptsExactlyTheOpcodeRows := by
  intro t
  constructor
  · rintro ⟨i, hi⟩
    exact matches_of_encode (encode_of_decode hi)
  · rintro ⟨r, hr, hmatch⟩
    exact decodes_of_matches r hr (of_decide_eq_true hmatch)

/-- Settles O4: the legal words are those of their transactions, and the illegal ones are evaluated. -/
theorem exampleWordsDecode : Obligations.ExampleWordsDecode := by
  refine ⟨decode_of_encode rfl, decode_of_encode rfl, decode_of_encode rfl, decode_of_encode rfl,
    decode_of_encode rfl, decode_of_encode rfl, ?_⟩
  decide

end Sys2Proof
end

