-- ==== Sys2Proof/Proofs/BusOperations.lean ====
section
/-! PROOF. The operations of the bus, transaction by transaction: the request and the poll to its bound (O16), and the
upload's copy, release and second poll (O23). -/

namespace Sys2Proof.Machine

/-! ### The request -/

/-- The request of `RequestBus(reset)`: `REQ` set, and with `reset` the coprocessor reset and the bus taken at once
(R111, R112, R116). -/
theorem writeArbctl_requestData (reset : Bool) (s : State) :
    writeArbctl (requestData reset) s =
      { s with
        req := true, taken := s.taken || reset, cpReady := s.cpReady && !reset
        cpState := if reset then s.cfg.cpResetState else s.cpState } := by
  cases reset <;> simp [writeArbctl, coprocReset, requestData, dataReq, dataRst]

/-! ### The polls -/

theorem boundReached_of_lt {c : Params} {n b : Nat} (hb : c.pollBound = some b) (h : n < b) :
    boundReached c n = false := by
  rw [boundReached, hb]
  exact decide_eq_false (Nat.not_le.2 h)

theorem boundReached_of_le {c : Params} {n b : Nat} (hb : c.pollBound = some b) (h : b ≤ n) :
    boundReached c n = true := by
  rw [boundReached, hb]
  exact decide_eq_true h

theorem pollTakenStep_unsuccessful {s : State} (h : s.taken = false) (n : Nat) (upload : Option (List Byte)) :
    pollTakenStep n upload s =
      { s with mainPos := if boundReached s.cfg (n + 1) then .withdraw else .pollTaken (n + 1) upload } := by
  simp only [pollTakenStep, arbstatWord_taken, h]
  cases boundReached s.cfg (n + 1) <;> rfl

theorem pollReadyStep_unsuccessful {s : State} (h : s.cpReady = false) (n : Nat) :
    pollReadyStep n s =
      if boundReached s.cfg (n + 1) then s.finish .busTimeout else { s with mainPos := .pollReady (n + 1) } := by
  simp only [pollReadyStep, arbstatWord_ready, h, Bool.false_eq_true, if_false]

section

variable {s : State} (ht : MainTurn s)
include ht

/-- A step of `MAIN` in an operation, the place known. -/
theorem step_at {pos : MainPos} (hpos : s.mainPos = pos) (hne : pos ≠ .idle) :
    step s = .next (continueOp pos (afterChoice s)) := by
  rw [step_inside ht (hpos.trans_ne hne), hpos]

/-- The steps of a `TAKEN` poll that reads 0, for `RequestBus` and inside `UploadProgram` alike (R116, R119). -/
theorem step_pollTaken_unsuccessful {n : Nat} {upload : Option (List Byte)} (hpos : s.mainPos = .pollTaken n upload) :
    (s.taken = false → s.cfg.pollBound = none →
      step s = .next { afterChoice s with mainPos := .pollTaken (n + 1) upload }) ∧
    (∀ b, s.taken = false → s.cfg.pollBound = some b → n + 1 < b →
      step s = .next { afterChoice s with mainPos := .pollTaken (n + 1) upload }) ∧
    (∀ b, s.taken = false → s.cfg.pollBound = some b → b ≤ n + 1 →
      step s = .next { afterChoice s with mainPos := .withdraw }) := by
  have hstep (htaken : s.taken = false) : step s = .next { afterChoice s with
      mainPos := if boundReached s.cfg (n + 1) then .withdraw else .pollTaken (n + 1) upload } := by
    rw [step_at ht hpos nofun, continueOp, pollTakenStep_unsuccessful (s := afterChoice s) htaken]
    rfl
  refine ⟨fun htaken hb => ?_, fun b htaken hb hlt => ?_, fun b htaken hb hle => ?_⟩
  · rw [hstep htaken, boundReached_of_none hb]; rfl
  · rw [hstep htaken, boundReached_of_lt hb hlt]; rfl
  · rw [hstep htaken, boundReached_of_le hb hle]; rfl

/-- The steps of a `READY` poll that reads 0 (R119). -/
theorem step_pollReady_unsuccessful {n : Nat} (hpos : s.mainPos = .pollReady n) :
    (s.cpReady = false → s.cfg.pollBound = none →
      step s = .next { afterChoice s with mainPos := .pollReady (n + 1) }) ∧
    (∀ b, s.cpReady = false → s.cfg.pollBound = some b → n + 1 < b →
      step s = .next { afterChoice s with mainPos := .pollReady (n + 1) }) ∧
    (∀ b, s.cpReady = false → s.cfg.pollBound = some b → b ≤ n + 1 →
      step s = .next { afterChoice s with mainPos := .idle, result := .busTimeout }) := by
  have hstep (hready : s.cpReady = false) : step s = .next
      (if boundReached s.cfg (n + 1) then (afterChoice s).finish .busTimeout
      else { afterChoice s with mainPos := .pollReady (n + 1) }) := by
    rw [step_at ht hpos nofun, continueOp, pollReadyStep_unsuccessful (s := afterChoice s) hready]
    rfl
  refine ⟨fun hready hb => ?_, fun b hready hb hlt => ?_, fun b hready hb hle => ?_⟩
  · rw [hstep hready, boundReached_of_none hb]; rfl
  · rw [hstep hready, boundReached_of_lt hb hlt]; rfl
  · rw [hstep hready, boundReached_of_le hb hle]; rfl

theorem step_withdraw (hpos : s.mainPos = .withdraw) :
    step s = .next { afterChoice s with req := false, mainPos := .idle, result := .busTimeout } := by
  rw [step_at ht hpos nofun, continueOp, withdrawStep, writeArbctl_zero]
  rfl

end

/-- Settles O16: the request, the poll that reads 1, the poll that reads 0 by the bound, and the withdrawal. -/
theorem requestBusPollsUntilTaken : Obligations.RequestBusPollsUntilTaken := by
  refine ⟨fun reset s => ⟨_, rfl, ?_⟩,
    fun s n ht hpos => ⟨fun htaken => ?_, step_pollTaken_unsuccessful ht hpos⟩,
    fun s ht hpos => step_withdraw ht hpos, rfl⟩
  · rw [writeArbctl_requestData]
    exact ⟨rfl, rfl, rfl, rfl, ⟨fun _ => rfl, fun _ => rfl⟩, rfl⟩
  · rw [step_at ht hpos nofun, continueOp, pollTakenStep_ok (s := afterChoice s) htaken]
    rfl

/-! ### The copy -/

/-- One byte of the copy: stored where it is in range and the bus is owned, else flagged; nothing else is written
(R66, R119). -/
theorem memWrite_spec (a : Nat) (v : Byte) (s : State) :
    (∀ x, cpByte (memWrite a v s) x =
      if x = a ∧ a < s.cfg.cpmemSize ∧ primaryOwns s = true then v else cpByte s x) ∧
    (memWrite a v s).flt =
      (if s.cfg.cpmemSize ≤ a then s.flt ||| 2 else if primaryOwns s then s.flt else s.flt ||| 1) ∧
    memWrite a v s =
      { s with
        cpmem := (memWrite a v s).cpmem, flt := (memWrite a v s).flt, raised := (memWrite a v s).raised } := by
  obtain ⟨hrange, h⟩ | ⟨hrange, howns, h⟩ | ⟨hrange, howns, h⟩ := memWrite_cases a v s
  · rw [h]
    exact ⟨fun x => by rw [if_neg (by omega)]; rfl, (if_pos hrange).symm, rfl⟩
  · rw [h]
    exact ⟨fun x => by rw [if_neg (by simp [howns])]; rfl, by simp [howns, Nat.not_le.2 hrange, Raised.bit], rfl⟩
  · rw [h]
    exact ⟨fun x => by simp only [cpByte_put, hrange, howns, and_true], by simp [howns, Nat.not_le.2 hrange], rfl⟩

/-- The request of `UploadProgram`: that of `RequestBus`, with a draw where the image is too short (R119; log 17). -/
theorem exec_uploadProgram (image : List Byte) (length : Nat) (reset : Bool) (s : State) :
    exec (.uploadProgram image length reset) s = .next
      { s with
        req := true, taken := s.taken || reset, cpReady := s.cpReady && !reset
        cpState := if reset then s.cfg.cpResetState else s.cpState
        mainPos := .pollTaken 0 (some (uploadBytes image length s))
        draws := if image.length < length then s.draws + 1 else s.draws } := by
  change execUploadProgram image length reset s = _
  rw [execUploadProgram, writeArbctl_requestData]
  split <;> rfl

/-- Settles O23: the request with the bytes to copy, and then each transaction of the upload in its turn. -/
theorem uploadProgramCopiesReleasesAndPolls : Obligations.UploadProgramCopiesReleasesAndPolls := by
  refine ⟨fun image length reset s => ?_,
    fun s n bytes ht hpos => ⟨fun htaken => ?_, step_pollTaken_unsuccessful ht hpos⟩,
    fun s ht hpos => step_withdraw ht hpos, fun s a b bs ht hpos => ?_, fun s a ht hpos => ?_,
    fun s n ht hpos => ⟨fun hready => ?_, step_pollReady_unsuccessful ht hpos⟩⟩
  · refine ⟨_, uploadBytes image length s, exec_uploadProgram image length reset s, uploadBytes_length .., ?_,
      rfl, rfl, rfl, rfl, ⟨fun _ => rfl, fun _ => rfl⟩, fun hlong => if_neg (Nat.not_lt.2 hlong), rfl⟩
    intro k b hk hb
    rw [uploadBytes_getElem? image length s hk, hb, Option.getD_some]
  · rw [step_at ht hpos nofun, continueOp, pollTakenStep_copy (s := afterChoice s) htaken]
    rfl
  · obtain ⟨hbytes, hflt, hframe⟩ := memWrite_spec a b (afterChoice s)
    exact ⟨_, step_at ht hpos nofun, rfl, hbytes, hflt,
      congrArg (fun t : State => { t with mainPos := .copy (a + 1) bs }) hframe⟩
  · rw [step_at ht hpos nofun, continueOp, copyStep, writeArbctl_zero]
  · rw [step_at ht hpos nofun, continueOp, pollReadyStep_ok (s := afterChoice s) hready]
    rfl

end Sys2Proof.Machine
end

