-- ==== Sys2Proof/Proofs/MainAlone.lean ====
section
/-! PROOF. `MAIN` moving alone inside an operation, and the drain loop of `ResetFifos` run to its end so. -/

namespace Sys2Proof.Machine

/-! ### `MAIN` alone -/

theorem Steps.trans {j k : Nat} {s t u : State} (h : Steps j s t) (h' : Steps k t u) : Steps (j + k) s u := by
  induction j generalizing s with
  | zero =>
    obtain rfl : s = t := h
    rwa [Nat.zero_add]
  | succ j ih =>
    obtain ⟨v, hstep, hrest⟩ := h
    rw [Nat.add_right_comm]
    exact ⟨v, hstep, ih hrest⟩

/-- The state with `MAIN` at a place of an operation and the next moves chosen. -/
def State.placed (s : State) (pos : MainPos) (moves : List Move) : State := { s with mainPos := pos, script := moves }

@[simp] theorem State.placed_io (s : State) (pos : MainPos) (moves : List Move) (p : Port) :
    (s.placed pos moves).io p = s.io p := rfl

@[simp] theorem State.placed_setIo (s : State) (pos : MainPos) (moves : List Move) (p : Port) (r : PortRegs) :
    (s.placed pos moves).setIo p r = (s.setIo p r).placed pos moves := by
  cases p <;> rfl

@[simp] theorem State.setIo_setIo (s : State) (p : Port) (r r' : PortRegs) :
    (s.setIo p r).setIo p r' = s.setIo p r' := by
  cases p <;> rfl

/-- One more step of `MAIN` alone, inside an operation and outside the interrupt context: the operation's next
transaction (R102). -/
theorem Steps.main {k : Nat} {s t u : State} {pos : MainPos} {rest : List Move} (hirq : s.inIrq = false)
    (hne : pos ≠ .idle) (hnext : continueOp pos (s.placed pos rest) = t) (h : Steps k t u) :
    Steps (k + 1) (s.placed pos (.main :: rest)) u :=
  ⟨t, hnext ▸ step_inside (s := s.placed pos (.main :: rest)) ⟨rfl, hirq⟩ hne, h⟩

/-! ### The drain loop of `ResetFifos` -/

section DrainLoop

variable {p : Port} {s : State} (init : Option Bool) (pos : MainPos) (rest : List Move)

theorem fifoCheckStep_of_nil (h : (s.io p).rxFifo = []) :
    fifoCheckStep p init (s.placed pos rest) = s.placed (.ringClear init) rest := by
  rw [fifoCheckStep, sctrlWord_rrdy, rrdy, State.placed_io, h]
  rfl

theorem fifoCheckStep_of_cons {b : Byte} {bytes : List Byte} (h : (s.io p).rxFifo = b :: bytes) :
    fifoCheckStep p init (s.placed pos rest) = s.placed (.fifoPop p init) rest := by
  rw [fifoCheckStep, sctrlWord_rrdy, rrdy, State.placed_io, h]
  rfl

theorem popRx_of_cons {b : Byte} {bytes : List Byte} (h : (s.io p).rxFifo = b :: bytes) :
    popRx p s = (b, s.setIo p { s.io p with rxFifo := bytes }) := by
  rw [popRx, h]

/-- The read of the drain loop takes the head of the FIFO and drops it (R154). -/
theorem fifoPopStep_of_cons {b : Byte} {bytes : List Byte} (h : (s.io p).rxFifo = b :: bytes) :
    fifoPopStep p init (s.placed pos rest) =
      (s.setIo p { s.io p with rxFifo := bytes }).placed (.fifoCheck p init) rest := by
  rw [fifoPopStep, popRx_of_cons (s := s.placed pos rest) h, State.placed_setIo]
  rfl

/-- The drain loop, `MAIN` alone: two transactions a byte and the check that ends it; the FIFO is empty then, and
nothing else is changed (R154). -/
theorem steps_drainLoop {bytes : List Byte} (hirq : s.inIrq = false) (hfifo : (s.io p).rxFifo = bytes) :
    Steps (2 * bytes.length + 1)
      (s.placed (.fifoCheck p init) (List.replicate (2 * bytes.length + 1) .main ++ rest))
      ((s.setIo p { s.io p with rxFifo := [] }).placed (.ringClear init) rest) := by
  induction bytes generalizing s with
  | nil =>
    have hself : s.setIo p { s.io p with rxFifo := [] } = s := by rw [← hfifo, State.setIo_self]
    rw [hself]
    exact .main hirq nofun (fifoCheckStep_of_nil init _ _ hfifo) rfl
  | cons b bytes ih =>
    have hrest := ih (s := s.setIo p { s.io p with rxFifo := bytes }) (by simpa using hirq) (by simp)
    rw [State.setIo_setIo, State.setIo_io_same] at hrest
    exact .main hirq nofun (fifoCheckStep_of_cons init _ _ hfifo)
      (.main hirq nofun (fifoPopStep_of_cons init _ _ hfifo) hrest)

end DrainLoop

end Sys2Proof.Machine
end

