-- ==== Sys2Proof/Proofs/SerialInit.lean ====
section
/-! PROOF. `SerialInit` to its end with `MAIN` alone: the port selected (O37), its receive FIFO drained, the ring
cleared and the interrupt enabled if asked (O38). -/

namespace Sys2Proof.Machine

/-! ### The values written -/

/-- A byte written through `DATA` is the register's low byte again. -/
@[simp] theorem dataByte_zext16 (b : Byte) : dataByte (zext16 b) = b := by
  ext k hk
  simp [dataByte, zext16, hk, show k < 16 by omega]

@[simp] theorem dataImask_zext16 (v : BitVec 3) : dataImask (zext16 v) = v := by
  ext k hk
  simp [dataImask, zext16, hk, show k < 16 by omega]

/-- `MODE.IE` set, and the other bits as read (R148). -/
theorem dataByte_mode (m : Byte) : dataByte (zext16 m ||| 0x08) = m ||| 0x08 := by
  ext k hk
  have h8 : (0x08#16).getLsbD k = (0x08#8).getLsbD k := by interval_cases k <;> rfl
  simpa [dataByte, zext16, hk, show k < 16 by omega] using congrArg (m[k] || ·) h8

theorem dataBaud_initSctrlData (c : Params) (rxInt : Bool) : dataBaud (initSctrlData c rxInt) = c.baudInitCode := by
  ext k hk
  obtain rfl | rfl : k = 0 ∨ k = 1 := by omega
  all_goals simp [dataBaud, initSctrlData]

theorem dataSubfn_initSctrlData (c : Params) (rxInt : Bool) : dataSubfn (initSctrlData c rxInt) = c.subfnInit := by
  ext k hk
  obtain rfl | rfl : k = 0 ∨ k = 1 := by omega
  all_goals simp [dataSubfn, initSctrlData]

theorem dataRint_initSctrlData (c : Params) (rxInt : Bool) : dataRint (initSctrlData c rxInt) = rxInt := by
  simp [dataRint, initSctrlData]

/-! ### `SerialInit` -/

/-- Steps 1 and 2: the port selected, and `CTRL` written (R148). -/
theorem exec_serialInit (p : Port) (rxInt : Bool) {s : State} {moves : List Move} (hscript : s.script = moves) :
    exec (.serialInit p rxInt) s = .next
      (({ s with port := some p }.setIo p { s.io p with ctrl := s.cfg.ctrlInit }).placed (.initSctrl p rxInt)
        moves) := by
  subst hscript
  change execSerialInit p rxInt s = _
  rw [execSerialInit, writeCtrl, dataByte_zext16]
  cases p <;> rfl

/-- Settles O37: the port selected and one register of it written, the other port as it was. -/
theorem serialInitSelectsThePort : Obligations.SerialInitSelectsThePort := by
  intro p rxInt s
  refine ⟨_, exec_serialInit p rxInt rfl, ?_⟩
  cases p
  all_goals exact ⟨rfl, rfl, fun q hq => State.setIo_io_other _ _ hq, ⟨fun _ => rfl, fun _ => rfl⟩, rfl⟩

section

variable (s : State) (pos : MainPos) (rest : List Move)

/-- Step 3: `SCTRL` written, the fields of R148 each in its place; the drain loop is next. -/
theorem initSctrlStep_placed (p : Port) (rxInt : Bool) :
    initSctrlStep p rxInt (s.placed pos rest) =
      (s.setIo p { s.io p with baud := s.cfg.baudInitCode, subfn := s.cfg.subfnInit, rint := rxInt }).placed
        (.fifoCheck p (some rxInt)) rest := by
  rw [initSctrlStep, writeSctrl, dataBaud_initSctrlData, dataSubfn_initSctrlData, dataRint_initSctrlData,
    State.placed_setIo]
  rfl

theorem initImaskStep_placed :
    initImaskStep (s.placed pos rest) = { s with imask := s.cfg.imaskInit }.placed .initModeRead rest := by
  rw [initImaskStep, writeImask, dataImask_zext16]
  rfl

theorem initModeWriteStep_placed (m : Byte) :
    initModeWriteStep (zext16 m) (s.placed pos rest) =
      { s with
        modeReg := m ||| 0x08, serState := .configured, mainPos := .idle, result := .void, script := rest } := by
  rw [initModeWriteStep, writeMode, dataByte_mode]
  rfl

end

/-- The state at the end of `SerialInit`, from the one its drain loop leaves: the ring empty, the transport
`Configured`, and the interrupt enabled if asked (R148). -/
def initEnd (rxInt : Bool) (rest : List Move) (s : State) : State :=
  { s with
    readHead := 0, writeHead := 0, serState := .configured, mainPos := .idle, result := .void, script := rest
    imask := if rxInt then s.cfg.imaskInit else s.imask
    modeReg := if rxInt then s.modeReg ||| 0x08 else s.modeReg }

/-- From the clearing of the ring to the end, `MAIN` alone: one transaction, or with `rxInt` four (R148). -/
theorem steps_ringClear {s : State} (hirq : s.inIrq = false) (rxInt : Bool) (rest : List Move) :
    Steps (if rxInt then 4 else 1)
      (s.placed (.ringClear (some rxInt)) (List.replicate (if rxInt then 4 else 1) .main ++ rest))
      (initEnd rxInt rest s) := by
  cases rxInt with
  | false => exact .main hirq nofun rfl rfl
  | true =>
    exact .main hirq nofun rfl (.main (s := { s with readHead := 0, writeHead := 0 }) hirq nofun
      (initImaskStep_placed _ _ _) (.main hirq nofun rfl (.main hirq nofun (initModeWriteStep_placed _ _ _ _) rfl)))

/-- `SerialInit` from its second step to its end, `MAIN` alone: `SCTRL`, the drain loop, and what follows (R148). -/
theorem steps_initSctrl {s : State} (hirq : s.inIrq = false) (p : Port) (rxInt : Bool) (rest : List Move) {n : Nat}
    (hn : n = 2 * (s.io p).rxFifo.length + 1 + (if rxInt then 4 else 1) + 1) :
    Steps n (s.placed (.initSctrl p rxInt) (List.replicate n .main ++ rest))
      (initEnd rxInt rest (s.setIo p { s.io p with
        baud := s.cfg.baudInitCode, subfn := s.cfg.subfnInit, rint := rxInt, rxFifo := [] })) := by
  rw [hn, List.replicate_succ, List.cons_append, List.replicate_add, List.append_assoc]
  refine .main hirq nofun (initSctrlStep_placed _ _ _ p rxInt) ((steps_drainLoop _ _ ?_ ?_).trans ?_)
  · simpa using hirq
  · simp
  · rw [State.setIo_setIo, State.setIo_io_same]
    exact steps_ringClear (by simpa using hirq) rxInt rest

/-- Settles O38: the port selected, `SCTRL` written, the drain loop run to its end, and the ring and the enables. -/
theorem serialInitConfiguresThePort : Obligations.SerialInitConfiguresThePort := by
  intro s p rxInt n rest hirq hn hscript
  have hsteps := steps_initSctrl (s := { s with port := some p }.setIo p { s.io p with ctrl := s.cfg.ctrlInit })
    (by simpa using hirq) p rxInt rest (n := n) (by cases rxInt <;> simp [hn])
  rw [State.setIo_setIo] at hsteps
  refine ⟨_, _, exec_serialInit p rxInt hscript, hsteps, ?_⟩
  cases p
  all_goals exact ⟨rfl, rfl, rfl, fun q hq => State.setIo_io_other s _ hq, rfl, rfl, rfl, rfl,
    ⟨fun _ => rfl, fun _ => rfl⟩, rfl⟩

end Sys2Proof.Machine
end

