-- ==== Sys2Proof/Proofs/RingOperations.lean ====
section
/-! PROOF. The ring operations by their one transaction each (O45). -/

namespace Sys2Proof.Machine

/-- Bit 0 of `RBSTAT` is `CANREAD` (R174). -/
theorem bitWord_getLsbD_zero (b : Bool) : (bitWord b).getLsbD 0 = b := by
  simp

/-- Settles O45: each operation is its transaction's ring operation, its result put at its own type. -/
theorem ringOperationsAreTheirTransactions : Obligations.RingOperationsAreTheirTransactions := by
  intro s b
  refine ⟨⟨_, rfl, ?_⟩, ⟨_, rfl, rfl⟩, ?_, ⟨_, rfl, rfl⟩⟩
  · change execRbWrite b s = .next ((ringWrite (dataByte (zext16 b)) s).returns .void)
    rw [execRbWrite, dataByte_zext16]
  · change execRbCanRead s = _
    rw [execRbCanRead, bitWord_getLsbD_zero]
    rfl

end Sys2Proof.Machine
end

