-- ==== Sys2Proof/Proofs/ArbiterTransactions.lean ====
section
/-! PROOF. The arbiter's transactions: `WR.ARBCTL` (O10), the reads of its registers and the release (O11), `MRD` (O12)
and `MWR` (O13), and the arbiter's own steps (O14). -/

namespace Sys2Proof.Machine

/-! ### The encodings -/

/-- The row of the opcode map fixes the bits of the instruction's word, and the decoder reads that word back (R94). -/
theorem encodesAs_of_rowOf {i : Instr} {value mask : TxnWord} (h : Laws.rowOf i = some (value, mask)) :
    EncodesAs i value mask := by
  have hfix := opcodeRowFixed i
  simp only [Laws.OpcodeRowFixed.Statement, h] at hfix
  obtain ⟨hsome, hrow⟩ := hfix
  obtain ⟨w, hw⟩ := Option.isSome_iff_exists.1 hsome
  exact ⟨w, hw, hrow w hw, decode_of_encode hw⟩

/-! ### The write of `ARBCTL` -/

/-- Writing `ARBCTL`, field by field (R111, R112). -/
theorem writeArbctl_eq (d : Word) (s : State) :
    writeArbctl d s =
      { s with
        req := dataReq d, taken := s.taken || (dataRst d && dataReq d), cpReady := s.cpReady && !dataRst d
        cpState := if dataRst d then s.cfg.cpResetState else s.cpState } := by
  obtain ⟨hrst, h⟩ | ⟨hrst, hreq, h⟩ | ⟨hrst, hreq, h⟩ := writeArbctl_cases d s <;> rw [h] <;> simp [*]

/-- Settles O10: the four fields that the write stores, by `RST`. -/
theorem writeArbctlSetsRequestAndResets : Obligations.WriteArbctlSetsRequestAndResets := by
  intro d s
  refine ⟨encodesAs_of_rowOf rfl, (writeArbctl d s).returns .void, rfl, ?_⟩
  rw [writeArbctl_eq]
  refine ⟨rfl, rfl, fun (hrst : dataRst d = true) => ?_, fun (hrst : dataRst d = false) => ?_,
    ⟨fun _ => rfl, fun _ => rfl⟩, rfl⟩
  · simp [hrst]
  · simp [hrst]

/-! ### The reads of the registers, and the release -/

theorem getLsbD_bitWord (b : Bool) (k : Nat) : (bitWord b).getLsbD k = (decide (k = 0) && b) := by
  cases k <;> simp [bitWord, zext16]

/-- Bits 15:2 of `ARBSTAT` read 0 (R123). -/
theorem arbstatWord_high (s : State) {k : Nat} (hk : 2 ≤ k) : (arbstatWord s).getLsbD k = false := by
  simp [arbstatWord, getLsbD_bitWord, show k ≠ 0 by omega, show k - 1 ≠ 0 by omega]

/-- Settles O11: the bits of the two registers, and the write of 0 that releases. -/
theorem arbiterQueriesAndRelease : Obligations.ArbiterQueriesAndRelease := by
  refine ⟨encodesAs_of_rowOf rfl, encodesAs_of_rowOf rfl, fun s => ⟨⟨arbctlWord s, rfl, ?_, fun k hk => ?_⟩,
    ⟨arbstatWord s, rfl, arbstatWord_taken s, arbstatWord_ready s, fun k => arbstatWord_high s⟩, ?_, ?_⟩⟩
  · simp [arbctlWord]
  · simp [arbctlWord, getLsbD_bitWord, show k ≠ 0 by omega]
  · change Host.Outcome.next ((writeArbctl 0 s).returns .void) = _
    rw [writeArbctl_zero]
    rfl
  · change Host.Outcome.next (s.returns (.bool ((arbstatWord s).getLsbD 0))) = _
    rw [arbstatWord_taken]
    rfl

/-! ### Coprocessor memory -/

theorem memRead_out_of_range {s : State} {a : Nat} (ha : s.cfg.cpmemSize ≤ a) :
    memRead a s = (Config.freeWord s.draws, s.drawn.raise (.cpmemRange a)) := by
  rw [memRead, if_pos ha]

theorem memRead_not_owned {s : State} {a : Nat} (ha : a < s.cfg.cpmemSize) (ho : primaryOwns s = false) :
    memRead a s = (Config.freeWord s.draws, s.drawn.raise (.busNotOwned a)) := by
  rw [memRead, if_neg (Nat.not_le.2 ha), if_pos (by simp [ho])]

theorem memWrite_out_of_range {s : State} {a : Nat} (ha : s.cfg.cpmemSize ≤ a) (v : Byte) :
    memWrite a v s = s.raise (.cpmemRange a) := by
  rw [memWrite, if_pos ha]

theorem memWrite_not_owned {s : State} {a : Nat} (ha : a < s.cfg.cpmemSize) (ho : primaryOwns s = false) (v : Byte) :
    memWrite a v s = s.raise (.busNotOwned a) := by
  rw [memWrite, if_neg (Nat.not_le.2 ha), if_pos (by simp [ho])]

theorem exec_mrd (a : Word) (s : State) :
    exec (.mrd a) s = .next ((memRead a.toNat s).2.returns (.value (memRead a.toNat s).1)) := rfl

theorem exec_mwr (a : Word) (b : Byte) (s : State) :
    exec (.mwr a b) s = .next ((memWrite a.toNat b s).returns .void) := rfl

/-- Settles O12: the owner's read, the read out of range, and the read in range without the bus. -/
theorem readCoprocessorByte : Obligations.ReadCoprocessorByte := by
  refine fun a s => ⟨encodesAs_of_rowOf rfl, fun ha hreq htaken => ?_, fun ha => ?_, fun ha ho => ?_⟩
  · rw [exec_mrd, memRead_owned ha ((primaryOwns_iff s).2 ⟨hreq, htaken⟩)]
    rfl
  · rw [exec_mrd, memRead_out_of_range ha]
    exact ⟨_, _, rfl, rfl, fun _ => rfl, fun _ => rfl⟩
  · rw [exec_mrd, memRead_not_owned ha ho]
    exact ⟨_, _, rfl, rfl, fun _ => rfl, fun _ => rfl⟩

/-- Settles O13: the owner's write, the write out of range, and the write in range without the bus. -/
theorem writeCoprocessorByte : Obligations.WriteCoprocessorByte := by
  refine fun a b s => ⟨encodesAs_of_rowOf rfl, fun ha hreq htaken => ?_, fun ha => ?_, fun ha ho => ?_⟩
  · rw [exec_mwr, memWrite_owned ha ((primaryOwns_iff s).2 ⟨hreq, htaken⟩)]
    refine ⟨_, rfl, ?_, fun x hx => ?_, fun _ => rfl, rfl⟩
    · exact (cpByte_put s a.toNat a.toNat b).trans (if_pos rfl)
    · exact (cpByte_put s a.toNat x b).trans (if_neg hx)
  · rw [exec_mwr, memWrite_out_of_range ha]
    rfl
  · rw [exec_mwr, memWrite_not_owned ha ho]
    rfl

/-! ### The arbiter's steps -/

/-- `GRANT` takes the bus where it is requested, and changes nothing where it is not enabled (R113). -/
theorem grant_eq (s : State) : grant s = { s with taken := s.taken || s.req } := by
  obtain ⟨hreq, htaken, h⟩ | ⟨hoff, h⟩ := grant_cases s
  · rw [h, htaken, hreq]
    rfl
  · have hsame : (s.taken || s.req) = s.taken := by
      cases htaken : s.taken <;> simp_all [grantEnabled]
    rw [h, hsame]

/-- `RESUME` gives the bus back where it is not requested, and changes nothing where it is not enabled (R114). -/
theorem resume_eq (s : State) : resume s = { s with taken := s.taken && s.req } := by
  obtain ⟨hreq, htaken, h⟩ | ⟨hoff, h⟩ := resume_cases s
  · rw [h, htaken, hreq]
    rfl
  · have hsame : (s.taken && s.req) = s.taken := by
      cases htaken : s.taken <;> simp_all [resumeEnabled]
    rw [h, hsame]

/-- Settles O14: the two steps on the state with the choice used up. -/
theorem grantAndResume : Obligations.GrantAndResume := by
  refine fun s => ⟨fun hmove => ?_, fun hmove => ?_⟩
  · rw [step_eq, hmove, runMove, grant_eq]
    rfl
  · rw [step_eq, hmove, runMove, resume_eq]
    rfl

end Sys2Proof.Machine
end

