-- ==== Sys2Proof/Proofs/HandshakeMoves.lean ====
section
/-! PROOF. The moves of the handshake: every transaction leaves it as its write of `ARBCTL` says, or as it was, and
beside these only `GRANT` and `RESUME` move it (O21). -/

namespace Sys2Proof.Machine

/-! ### The write of a transaction -/

/-- The handshake after a transaction that writes this word to `ARBCTL`, or writes none: `REQ` is stored, and with `RST`
and `REQ` the bus is taken (R111, R112). -/
def HandshakeWritten (write : Option Word) (s t : State) : Prop :=
  t.req = write.elim s.req dataReq ∧ t.taken = (s.taken || write.any fun d => dataRst d && dataReq d)

theorem HandshakeWritten.of_bus_eq {s t : State} (h : t.bus = s.bus) : HandshakeWritten none s t :=
  ⟨congrArg Bus.req h, (congrArg Bus.taken h).trans (Bool.or_false _).symm⟩

theorem HandshakeWritten.writeArbctl (d : Word) (s : State) : HandshakeWritten (some d) s (writeArbctl d s) := by
  rw [writeArbctl_eq]
  exact ⟨rfl, rfl⟩

theorem HandshakeWritten.memWrite (a : Nat) (v : Byte) (s : State) : HandshakeWritten none s (memWrite a v s) := by
  obtain ⟨-, -, h⟩ := memWrite_spec a v s
  rw [h]
  exact ⟨rfl, (Bool.or_false _).symm⟩

theorem arbctlOf_of_not_writesBus {i : Instr} (h : writesBus i = false) : arbctlOf i = none := by
  cases i with
  | wrArbctl | requestBus | releaseBus | uploadProgram => cases h
  | _ => rfl

/-- An instruction moves the handshake by its first transaction. -/
theorem HandshakeWritten.exec {i : Instr} {s t : State} (h : exec i s = .next t) :
    HandshakeWritten (arbctlOf i) s t := by
  cases hw : writesBus i with
  | false =>
    obtain ⟨u, hu, he⟩ := exec_effects i s
    cases hu.symm.trans h
    rw [hw] at he
    rw [arbctlOf_of_not_writesBus hw]
    exact .of_bus_eq he.bus_eq
  | true =>
    cases i with
    | mwr a b => cases h; exact .memWrite a.toNat b s
    | wrArbctl | requestBus | releaseBus => cases h; exact .writeArbctl _ s
    | uploadProgram image length reset =>
      cases h
      split
      · exact .writeArbctl (requestData reset) s.drawn
      · exact .writeArbctl (requestData reset) s
    | _ => cases hw

/-! ### The later transactions of an operation -/

/-- The write of `ARBCTL` that the next transaction of an operation is: at the poll bound, and after the last byte of a
copy (R116, R119). -/
def placeArbctl : MainPos → Option Word
  | .withdraw | .copy _ [] => some 0
  | _ => none

theorem issuerArbctl_of_inside {s : State} (h : s.mainPos ≠ .idle) : issuerArbctl s = placeArbctl s.mainPos := by
  unfold issuerArbctl placeArbctl
  cases hm : s.mainPos with
  | idle => exact absurd hm h
  | copy a rest => cases rest <;> rfl
  | _ => rfl

/-- The poll reads `ARBSTAT`, and its issuer goes on to another place. -/
theorem pollTakenStep_bus (n : Nat) (upload : Option (List Byte)) (s : State) :
    (pollTakenStep n upload s).bus = s.bus := by
  cases htaken : s.taken with
  | false => rw [pollTakenStep_unsuccessful htaken]; rfl
  | true =>
    cases upload with
    | none => rw [pollTakenStep_ok htaken]; rfl
    | some bytes => rw [pollTakenStep_copy htaken]; rfl

theorem pollReadyStep_bus (n : Nat) (s : State) : (pollReadyStep n s).bus = s.bus := by
  cases hready : s.cpReady with
  | true => rw [pollReadyStep_ok hready]; rfl
  | false =>
    rw [pollReadyStep_unsuccessful hready]
    split <;> rfl

/-- An operation moves the handshake by its withdrawal and its release alone. -/
theorem HandshakeWritten.continueOp (pos : MainPos) (s : State) :
    HandshakeWritten (placeArbctl pos) s (continueOp pos s) := by
  cases pos with
  | withdraw => exact .writeArbctl 0 s
  | copy a rest =>
    cases rest with
    | nil => exact .writeArbctl 0 s
    | cons b bs => exact .memWrite a b s
  | pollTaken n upload => exact .of_bus_eq (pollTakenStep_bus n upload s)
  | pollReady n => exact .of_bus_eq (pollReadyStep_bus n s)
  | initSctrl p rxInt => exact .of_bus_eq (s.setIo_bus p _)
  | fifoPop p init =>
    have he : Effects false s (popRx p s).2 := .single (.popRx p s)
    exact .of_bus_eq he.bus_eq
  | ringClear init => exact .of_bus_eq (ringClearStep_effects init s).bus_eq
  | drain p pos => exact .of_bus_eq (mainDrainStep_effects p pos s).bus_eq
  | idle | fifoCheck | initImask | initModeRead | initModeWrite => exact .of_bus_eq rfl

/-! ### The issuers -/

/-- The write of `ARBCTL` that a command is, or issues first. -/
def Cmd.arbctl : Cmd → Option Word
  | .txn t =>
    match decode t with
    | .ok i => arbctlOf i
    | .error _ => none
  | .op i => arbctlOf i
  | .jump _ | .jumpIf _ _ => none

theorem issuerArbctl_of_fetch {s : State} {c : Cmd} (h : s.mainPos = .idle) (hf : fetch s = some c) :
    issuerArbctl s = c.arbctl := by
  unfold issuerArbctl
  rw [h, hf]
  cases c <;> rfl

theorem issuerArbctl_of_end {s : State} (h : s.mainPos = .idle) (hf : fetch s = none) : issuerArbctl s = none := by
  unfold issuerArbctl
  rw [h, hf]

theorem HandshakeWritten.issueCmd {c : Cmd} {s t : State} (h : issueCmd c s = .next t) :
    HandshakeWritten c.arbctl s t := by
  cases c with
  | txn w =>
    simp only [Machine.issueCmd, issueTxn] at h
    rw [Cmd.arbctl]
    cases hd : decode w with
    | ok i => rw [hd] at h; exact .exec h
    | error e =>
      rw [hd] at h
      cases h
      have he : Effects false s (badTxn w s) := .single (.badTxn w s)
      exact .of_bus_eq he.bus_eq
  | op i => exact .exec h
  | jump k => cases h; exact .of_bus_eq rfl
  | jumpIf c k =>
    cases h
    split <;> exact .of_bus_eq rfl

/-- An issuer's next transaction moves the handshake by its write of `ARBCTL`. -/
theorem HandshakeWritten.issueNext {s t : State} (h : issueNext s = .next t) :
    HandshakeWritten (issuerArbctl s) s t := by
  obtain ⟨hne, hi⟩ | ⟨hidle, c, hf, hi⟩ | ⟨hidle, hf, hi⟩ := issueNext_cases s
  · cases hi.symm.trans h
    rw [issuerArbctl_of_inside hne]
    exact .continueOp s.mainPos s
  · rw [issuerArbctl_of_fetch hidle hf]
    exact HandshakeWritten.issueCmd (s := s.advance) (hi.symm.trans h)
  · cases hi.symm.trans h
    rw [issuerArbctl_of_end hidle hf]
    exact .of_bus_eq rfl

theorem HandshakeWritten.handlerStep {s t : State} (h : handlerStep s = .next t) :
    HandshakeWritten (issuerArbctl s.swapIssuer) s t := by
  obtain ⟨u, hu, rfl⟩ := handlerStep_eq_next.1 h
  exact HandshakeWritten.issueNext (s := s.swapIssuer) (t := u) hu

/-- With its list exhausted the handler issues nothing. -/
theorem issuerArbctl_of_handlerDone {s : State} (h : handlerDone s = true) : issuerArbctl s.swapIssuer = none := by
  obtain ⟨hop, hend⟩ := (handlerDone_iff s).1 h
  exact issuerArbctl_of_end hop hend

theorem drainOver_iff (s : State) : drainOver s = true ↔ s.intPos = none ∨ s.port = none := by
  simp [drainOver]

/-- A step of `INT` moves the handshake by its handler's write of `ARBCTL`. -/
theorem HandshakeWritten.intStep {s t : State} (h : intStep s = .next t) :
    HandshakeWritten (if s.inIrq && drainOver s then issuerArbctl s.swapIssuer else none) s t := by
  obtain ⟨hin, -, hs⟩ | ⟨hin, -, hs⟩ | ⟨-, pos, p, hpos, hport, hs⟩ | ⟨-, -, hdone, hs⟩ | ⟨hin, hover, -, hs⟩ :=
    intStep_cases s
  · cases hs.symm.trans h
    obtain ⟨_, hv, -⟩ := intEnter_eq s
    rw [hin, hv]
    exact .of_bus_eq rfl
  · cases hs.symm.trans h
    rw [hin]
    exact .of_bus_eq rfl
  · cases hs.symm.trans h
    rw [show drainOver s = false by simp [drainOver, hpos, hport], Bool.and_false]
    exact .of_bus_eq (drainStep_effects p pos s).bus_eq
  · cases hs.symm.trans h
    rw [issuerArbctl_of_handlerDone hdone, ite_self]
    exact .of_bus_eq rfl
  · rw [hin, (drainOver_iff s).2 hover]
    exact HandshakeWritten.handlerStep (s := { s with intPos := none }) (hs.symm.trans h)

/-! ### The step -/

/-- The moves of the arbiter, the coprocessor and the line: no issuer's (R11). -/
def autonomous : Move → Bool
  | .main | .int => false
  | .grant | .resume | .cpStep _ _ _ | .rxArrive _ _ | .txShift _ => true

theorem stepArbctl_of_autonomous {s : State} (h : autonomous (nextMove s) = true) : stepArbctl s = none := by
  unfold stepArbctl
  cases hm : nextMove s with
  | main | int => rw [hm] at h; cases h
  | grant | resume | cpStep | rxArrive | txShift => rfl

/-- An autonomous step writes nothing of `MAIN`'s, and moves the bus as its agent may, whatever the handler is. -/
theorem runMove_autonomous {m : Move} {s t : State} (hm : autonomous m = true) (h : runMove m s = .next t) :
    t.mainView = s.mainView ∧ BusMove m s.bus t.bus := by
  cases m with
  | main | int => cases hm
  | grant =>
    cases h
    obtain ⟨hreq, -, hg⟩ | ⟨-, hg⟩ := grant_cases s <;> rw [hg]
    · exact ⟨rfl, .grant rfl hreq rfl⟩
    · exact ⟨rfl, .same rfl⟩
  | resume =>
    cases h
    obtain ⟨hreq, -, hg⟩ | ⟨-, hg⟩ := resume_cases s <;> rw [hg]
    · exact ⟨rfl, .resume rfl hreq rfl⟩
    · exact ⟨rfl, .same rfl⟩
  | cpStep c stores ready =>
    cases h
    obtain ⟨htaken, hg⟩ | ⟨-, hg⟩ := cpStep_cases c stores ready s <;> rw [hg]
    · exact ⟨rfl, .coprocessor htaken rfl htaken⟩
    · exact ⟨rfl, .same rfl⟩
  | rxArrive p b =>
    cases h
    obtain ⟨-, hg⟩ | ⟨-, hg⟩ := rxArrive_cases p b s <;> rw [hg]
    · exact ⟨s.setIo_mainView p _, .same (s.setIo_bus p _)⟩
    · exact ⟨State.setIo_mainView _ p _, .same (State.setIo_bus _ p _)⟩
  | txShift p =>
    cases h
    obtain ⟨_, _, -, hg⟩ | ⟨-, hg⟩ := txShift_cases p s <;> rw [hg]
    · exact ⟨s.setIo_mainView p _, .same (s.setIo_bus p _)⟩
    · exact ⟨rfl, .same rfl⟩

/-- What moves the handshake in a step: the write of `ARBCTL` that the step is, if it is one; `GRANT`; `RESUME` (R110). -/
inductive HandshakeStep (s t : State) : Prop where
  | written (h : HandshakeWritten (stepArbctl s) s t)
  | granted (hmove : nextMove s = .grant) (hreq : s.req = true) (hreq' : t.req = true) (htaken' : t.taken = true)
  | resumed (hmove : nextMove s = .resume) (hreq : s.req = false) (hreq' : t.req = false) (htaken' : t.taken = false)

theorem HandshakeStep.of_autonomous {s t : State} (hm : autonomous (nextMove s) = true)
    (h : BusMove (nextMove s) s.bus t.bus) : HandshakeStep s t := by
  have hnone := stepArbctl_of_autonomous hm
  cases h with
  | same h => exact .written (hnone ▸ .of_bus_eq h)
  | grant hmove hreq h => exact .granted hmove hreq ((congrArg Bus.req h).trans hreq) (congrArg Bus.taken h)
  | resume hmove hreq h => exact .resumed hmove hreq ((congrArg Bus.req h).trans hreq) (congrArg Bus.taken h)
  | coprocessor htaken hreq' htaken' =>
    have htaken : s.taken = false := htaken
    exact .written (hnone ▸ ⟨hreq', htaken'.trans (by rw [htaken]; rfl)⟩)

theorem HandshakeStep.of_step {s t : State} (h : step s = .next t) : HandshakeStep s t := by
  rw [step_eq] at h
  cases hmove : nextMove s with
  | main =>
    rw [hmove] at h
    refine .written ?_
    rw [stepArbctl, hmove]
    obtain ⟨hin, hs⟩ | ⟨hin, hs⟩ := mainStep_cases (afterChoice s) <;> rw [afterChoice_inIrq] at hin <;> rw [hin]
    · cases hs.symm.trans h
      exact .of_bus_eq rfl
    · exact HandshakeWritten.issueNext (s := afterChoice s) (hs.symm.trans h)
  | int =>
    rw [hmove] at h
    refine .written ?_
    rw [stepArbctl, hmove]
    exact HandshakeWritten.intStep (s := afterChoice s) h
  | grant | resume | cpStep | rxArrive | txShift =>
    have hm : autonomous (nextMove s) = true := by rw [hmove]; rfl
    exact .of_autonomous hm (runMove_autonomous (s := afterChoice s) hm h).2

/-! ### The states of the handshake -/

theorem handshake_eq_released_iff (s : State) : handshake s = .released ↔ s.req = false ∧ s.taken = false := by
  cases hreq : s.req <;> cases htaken : s.taken <;> simp [handshake, hreq, htaken]

theorem handshake_eq_reqPending_iff (s : State) : handshake s = .reqPending ↔ s.req = true ∧ s.taken = false := by
  cases hreq : s.req <;> cases htaken : s.taken <;> simp [handshake, hreq, htaken]

theorem handshake_eq_owned_iff (s : State) : handshake s = .owned ↔ s.req = true ∧ s.taken = true := by
  cases hreq : s.req <;> cases htaken : s.taken <;> simp [handshake, hreq, htaken]

theorem handshake_eq_relPending_iff (s : State) : handshake s = .relPending ↔ s.req = false ∧ s.taken = true := by
  cases hreq : s.req <;> cases htaken : s.taken <;> simp [handshake, hreq, htaken]

theorem HandshakeWritten.handshake_eq_of_none {s t : State} (h : HandshakeWritten none s t) :
    handshake t = handshake s := by
  obtain ⟨hreq, htaken⟩ := h
  simp [handshake, hreq, htaken]

/-- The handshake after a write of `ARBCTL`, from each of its states (R110, R111, R112). -/
theorem HandshakeWritten.handshake_eq {d : Word} {s t : State} (h : HandshakeWritten (some d) s t) :
    handshake t =
      if s.taken || (d.getLsbD 1 && d.getLsbD 0) then (if d.getLsbD 0 then .owned else .relPending)
      else if d.getLsbD 0 then .reqPending else .released := by
  obtain ⟨hreq, htaken⟩ := h
  change t.req = d.getLsbD 0 at hreq
  change t.taken = (s.taken || (d.getLsbD 1 && d.getLsbD 0)) at htaken
  rw [← hreq] at htaken ⊢
  rw [← htaken]
  cases hr : t.req <;> cases ht : t.taken <;> simp [handshake, hr, ht]

/-- While `INT` keeps to its rights it is `MAIN` that writes `ARBCTL` (R213). -/
theorem mainTurn_of_stepArbctl {s : State} {d : Word} (hr : intWithinRights s = true) (h : stepArbctl s = some d) :
    MainTurn s := by
  obtain ⟨hp, hplace⟩ := (intWithinRights_iff s).1 hr
  unfold stepArbctl at h
  cases hmove : nextMove s with
  | main =>
    rw [hmove] at h
    refine ⟨hmove, ?_⟩
    by_contra hin
    simp [hin] at h
  | int =>
    rw [hmove, issuerArbctl_of_within (s := s.swapIssuer) hp hplace] at h
    simp at h
  | grant | resume | cpStep | rxArrive | txShift => rw [hmove] at h; cases h

/-- The table of R110 at a write of `ARBCTL`. -/
theorem HandshakeWritten.table {d : Word} {s t : State} (h : HandshakeWritten (some d) s t) :
    (handshake s = .released → handshake t = .released ∨
      d.getLsbD 0 = true ∧ handshake t = if d.getLsbD 1 then .owned else .reqPending) ∧
    (handshake s = .reqPending → handshake t = .reqPending ∨
      (d.getLsbD 0 = false ∧ handshake t = .released) ∨
        (d.getLsbD 0 = true ∧ d.getLsbD 1 = true ∧ handshake t = .owned)) ∧
    (handshake s = .owned → handshake t = .owned ∨ d.getLsbD 0 = false ∧ handshake t = .relPending) ∧
    (handshake s = .relPending → handshake t = .relPending ∨ d.getLsbD 0 = true ∧ handshake t = .owned) := by
  rw [handshake_eq_released_iff s, handshake_eq_reqPending_iff s, handshake_eq_owned_iff s,
    handshake_eq_relPending_iff s, h.handshake_eq]
  refine ⟨fun ⟨_, ht⟩ => ?_, fun ⟨_, ht⟩ => ?_, fun ⟨_, ht⟩ => ?_, fun ⟨_, ht⟩ => ?_⟩ <;> rw [ht]
  · cases d.getLsbD 0 <;> cases d.getLsbD 1 <;> decide
  · cases d.getLsbD 0 <;> cases d.getLsbD 1 <;> decide
  · rw [Bool.true_or, if_pos rfl]
    cases d.getLsbD 0 <;> decide
  · rw [Bool.true_or, if_pos rfl]
    cases d.getLsbD 0 <;> decide

/-- Settles O21: the table at a write of `ARBCTL`, at no write, at `GRANT` and at `RESUME`. -/
theorem handshakeMovesOnlyAsTheTableSays : Obligations.HandshakeMovesOnlyAsTheTableSays := by
  intro s t h
  cases HandshakeStep.of_step h with
  | written hw =>
    cases hd : stepArbctl s with
    | none =>
      rw [hd] at hw
      have hsame := hw.handshake_eq_of_none
      rw [hsame]
      exact ⟨nofun, fun _ => hw.1, fun _ _ _ => hw.2.trans (Bool.or_false _), .inl, .inl, .inl, .inl⟩
    | some d =>
      rw [hd] at hw
      obtain ⟨hreleased, hpending, howned, hrel⟩ := hw.table
      refine ⟨?_, nofun, nofun, fun hs => ?_, fun hs => ?_, fun hs => ?_, fun hs => ?_⟩
      · rintro _ ⟨⟩
        refine ⟨hw.1, ?_, fun hr => mainTurn_of_stepArbctl hr hd⟩
        rw [Bool.and_comm]
        exact hw.2
      · exact (hreleased hs).imp_right fun h => ⟨d, rfl, h⟩
      · exact (hpending hs).imp_right fun h => .inr ⟨d, rfl, h⟩
      · exact (howned hs).imp_right fun h => ⟨d, rfl, h⟩
      · exact (hrel hs).imp_right fun h => .inr ⟨d, rfl, h⟩
  | granted hmove hreq hreq' htaken' =>
    have hnone : stepArbctl s = none := stepArbctl_of_autonomous (by rw [hmove]; rfl)
    have howned : handshake t = .owned := (handshake_eq_owned_iff t).2 ⟨hreq', htaken'⟩
    rw [hnone, howned]
    refine ⟨nofun, fun _ => hreq'.trans hreq.symm, fun _ hne => absurd hmove hne, fun hs => ?_,
      fun _ => .inr (.inl ⟨hmove, rfl⟩), fun _ => .inl rfl, fun hs => ?_⟩
    · simp [((handshake_eq_released_iff s).1 hs).1] at hreq
    · simp [((handshake_eq_relPending_iff s).1 hs).1] at hreq
  | resumed hmove hreq hreq' htaken' =>
    have hnone : stepArbctl s = none := stepArbctl_of_autonomous (by rw [hmove]; rfl)
    have hreleased : handshake t = .released := (handshake_eq_released_iff t).2 ⟨hreq', htaken'⟩
    rw [hnone, hreleased]
    refine ⟨nofun, fun _ => hreq'.trans hreq.symm, fun _ _ hne => absurd hmove hne, fun _ => .inl rfl, fun hs => ?_,
      fun hs => ?_, fun _ => .inr (.inl ⟨hmove, rfl⟩)⟩
    · simp [((handshake_eq_reqPending_iff s).1 hs).1] at hreq
    · simp [((handshake_eq_owned_iff s).1 hs).1] at hreq

end Sys2Proof.Machine
end

