-- ==== Sys2Proof/Proofs/HandlerAfterDrain.lean ====
section
/-! PROOF. What a handler issues after its drain (O9): executed as `MAIN`'s commands are, its release of the bus, and the
poll of `MAIN` that it leaves hanging. -/

namespace Sys2Proof.Machine

/-! ### The handler's transaction -/

/-- A step of `INT` past its drain, with something left to issue, is the handler's next transaction (R243). -/
theorem step_handler {s : State} (hmove : nextMove s = .int) (hin : s.inIrq = true) (hover : drainOver s = true)
    (hdone : handlerDone s = false) : step s = handlerStep { afterChoice s with intPos := none } := by
  rw [step_eq, hmove, runMove]
  obtain ⟨hf, -⟩ | ⟨hf, -⟩ | ⟨-, pos, p, hpos, hport, -⟩ | ⟨-, -, hd, -⟩ | ⟨-, -, -, h⟩ := intStep_cases (afterChoice s)
  · simp [hin] at hf
  · simp [hin] at hf
  · simp_all [drainOver]
  · simp [hdone] at hd
  · exact h

/-- The handler's transaction writes nothing of `MAIN`'s. -/
theorem handlerStep_mainPos {s t : State} (h : handlerStep s = .next t) : t.mainPos = s.mainPos := by
  obtain ⟨u, hu, rfl⟩ := handlerStep_eq_next.1 h
  obtain ⟨v, hv, he⟩ := issueNext_effects s.swapIssuer
  cases hv.symm.trans hu
  exact congrArg Outside.intOp he.outside_eq

theorem intStep_mainPos {s t : State} (h : intStep s = .next t) : t.mainPos = s.mainPos := by
  obtain ⟨-, -, hs⟩ | ⟨-, -, hs⟩ | ⟨-, pos, p, -, -, hs⟩ | ⟨-, -, -, hs⟩ | ⟨-, -, -, hs⟩ := intStep_cases s
  · cases hs.symm.trans h
    obtain ⟨_, hv, -⟩ := intEnter_eq s
    rw [hv]
  · cases hs.symm.trans h
    rfl
  · cases hs.symm.trans h
    exact congrArg MainView.mainPos (drainStep_frame p pos s).1
  · cases hs.symm.trans h
    rfl
  · exact handlerStep_mainPos (s := { s with intPos := none }) (hs.symm.trans h)

/-- Only a transaction of `MAIN` moves it inside its operation, whatever the handler issues. -/
theorem step_mainPos {s t : State} (hturn : ¬ MainTurn s) (h : step s = .next t) : t.mainPos = s.mainPos := by
  rw [step_eq] at h
  cases hmove : nextMove s with
  | main =>
    rw [hmove] at h
    obtain ⟨-, hs⟩ | ⟨hin, -⟩ := mainStep_cases (afterChoice s)
    · cases hs.symm.trans h
      rfl
    · exact absurd ⟨hmove, hin⟩ hturn
  | int =>
    rw [hmove] at h
    exact intStep_mainPos (s := afterChoice s) h
  | grant | resume | cpStep | rxArrive | txShift =>
    have hm : autonomous (nextMove s) = true := by rw [hmove]; rfl
    exact congrArg MainView.mainPos (runMove_autonomous (s := afterChoice s) hm h).1

/-! ### The cases of R243 -/

/-- A command of the handler is executed with the issuers changed over (R170, R243). -/
theorem handlerStep_exec {s : State} {i : Instr} (hop : s.intOp = .idle)
    (hi : (∃ w, s.handler[s.intIdx]? = some (.txn w) ∧ decode w = .ok i) ∨ s.handler[s.intIdx]? = some (.op i)) :
    handlerStep s = onNext State.swapIssuer (exec i { s.swapIssuer with idx := s.intIdx + 1 }) := by
  have hissue : issueNext s.swapIssuer = exec i s.swapIssuer.advance := by
    obtain ⟨w, hf, hd⟩ | hf := hi
    · rw [← issueTxn_of_decode hd]
      simp [issueNext, fetch, hop, hf, issueCmd]
    · simp [issueNext, fetch, hop, hf, issueCmd]
  rw [handlerStep, hissue]
  rfl

/-- Without a request and with the bus not taken, a step that writes no `ARBCTL` leaves it so: `GRANT` needs a request
(R113). -/
theorem released_of_step {s t : State} (hreq : s.req = false) (htaken : s.taken = false) (hnone : stepArbctl s = none)
    (h : step s = .next t) : t.req = false ∧ t.taken = false := by
  cases HandshakeStep.of_step h with
  | written hw =>
    rw [hnone] at hw
    exact ⟨hw.1.trans hreq, hw.2.trans (by rw [htaken]; rfl)⟩
  | granted _ hreq' => simp [hreq] at hreq'
  | resumed _ _ hreq' htaken' => exact ⟨hreq', htaken'⟩

/-- A `TAKEN` poll without a bound polls on while the bus is not taken, whoever moves. -/
theorem pollTaken_of_step {s t : State} {n : Nat} {upload : Option (List Byte)} (htaken : s.taken = false)
    (hpos : s.mainPos = .pollTaken n upload) (hbound : s.cfg.pollBound = none) (h : step s = .next t) :
    ∃ m, t.mainPos = .pollTaken m upload := by
  by_cases hturn : MainTurn s
  · obtain ⟨hagain, -, -⟩ := step_pollTaken_unsuccessful hturn hpos
    cases (hagain htaken hbound).symm.trans h
    exact ⟨n + 1, rfl⟩
  · exact ⟨n, (step_mainPos hturn h).trans hpos⟩

/-- Settles O9: the handler's command and its later transactions, its release of the bus, and the poll that hangs. -/
theorem theHandlerIssuesAfterTheDrain : Obligations.TheHandlerIssuesAfterTheDrain := by
  refine ⟨?_, ?_, ?_, ?_⟩
  · intro s i hmove hin hover hop hi
    have hdone : handlerDone s = false := by
      obtain ⟨w, hf, -⟩ | hf := hi <;> simp [handlerDone, hf]
    rw [step_handler hmove hin hover hdone, handlerStep_exec (s := { afterChoice s with intPos := none }) hop hi]
    rfl
  · intro s hmove hin hover hop
    have hdone : handlerDone s = false := by simp [handlerDone, hop]
    rw [step_handler hmove hin hover hdone, handlerStep]
    obtain ⟨-, h⟩ | ⟨hidle, -⟩ | ⟨hidle, -⟩ := issueNext_cases { afterChoice s with intPos := none }.swapIssuer
    · rw [h]
      rfl
    · exact absurd hidle hop
    · exact absurd hidle hop
  · intro s hin hd
    obtain ⟨t, ht⟩ := runMove_next (nextMove s) (afterChoice s)
    have hstep : step s = .next t := (step_eq s).trans ht
    obtain ⟨hwrite, -⟩ := handshakeMovesOnlyAsTheTableSays s t hstep
    obtain ⟨hreq, htaken, -⟩ := hwrite 0 hd
    have hreq : t.req = false := hreq
    have htaken : t.taken = s.taken := htaken.trans (Bool.or_false _)
    exact ⟨t, hstep, hreq, htaken, step_mainPos (by simp [MainTurn, hin]) hstep, by simp [primaryOwns, hreq],
      by simp [grantEnabled, hreq]⟩
  · intro s t n upload hreq htaken hpos hbound hnone h
    obtain ⟨hreq', htaken'⟩ := released_of_step hreq htaken hnone h
    have hcfg := (Preserves.step h).cfg
    exact ⟨hreq', htaken', hcfg ▸ hbound, pollTaken_of_step htaken hpos hbound h⟩

end Sys2Proof.Machine
end

