-- ==== Sys2Proof/Proofs/RequestWithReset.lean ====
section
/-! PROOF. The request with reset takes the bus at once (R112): `RequestBus(true)` returns at its first poll (O17), and
`UploadProgram` with reset, `MAIN` moving alone, stores its image (O24). -/

namespace Sys2Proof.Machine

/-! ### `RequestBus(true)` -/

theorem exec_requestBus (reset : Bool) (s : State) :
    exec (.requestBus reset) s = .next { writeArbctl (requestData reset) s with mainPos := .pollTaken 0 none } := rfl

/-- `RequestBus` stands before its first poll with the bus owned, `INT` keeping to its rights. -/
structure RequestGranted (s : State) : Prop where
  poll : s.mainPos = .pollTaken 0 none
  owns : primaryOwns s = true
  rights : intWithinRights s = true

/-- Until `MAIN` polls, the other agents leave the granted request as it is (O18). -/
theorem RequestGranted.step {s t : State} (h : RequestGranted s) (hs : step s = .next t) (hm : nextMove s ≠ .main) :
    RequestGranted t := by
  obtain ⟨u, hu, howns, -, -, -, hpos⟩ := ownershipSurvivesTheOtherAgents s h.owns h.rights hm
  cases hu.symm.trans hs
  obtain ⟨-, -, -, hrights⟩ := stepKeepsTheStateLegal s t hs
  exact ⟨hpos.trans h.poll, howns, hrights h.rights⟩

/-- Settles O17: the request with reset is granted at once, and stays so until the first poll. -/
theorem requestBusWithResetNeedsNoFairness : Obligations.RequestBusWithResetNeedsNoFairness := by
  intro s hrights
  refine ⟨_, exec_requestBus true s, fun r k hr hothers hturn => ?_⟩
  rw [writeArbctl_requestData] at hr
  have hstart : RequestGranted (r 0) := by
    rw [hr]
    exact ⟨rfl, by simp [primaryOwns], hrights⟩
  have hkept : ∀ j ≤ k, RequestGranted (r j) := by
    intro j hj
    induction j with
    | zero => exact hstart
    | succ j ih =>
      obtain ⟨hstep, hm⟩ := hothers j hj
      exact (ih (Nat.le_of_succ_le hj)).step hstep hm
  obtain ⟨hpoll, howns, -⟩ := hkept k le_rfl
  obtain ⟨-, htaken⟩ := (primaryOwns_iff _).1 howns
  refine ⟨_, step_at hturn hpoll nofun, ?_⟩
  rw [continueOp, pollTakenStep_ok (s := afterChoice (r k)) htaken]
  exact ⟨rfl, rfl, howns⟩

/-! ### A list of bytes stored from an address on -/

/-- The bytes stored one after another, ascending (R119). -/
def Memory.putAll (m : Memory) (a : Nat) : List Byte → Memory
  | [] => m
  | b :: bs => Memory.putAll (m.put a b) (a + 1) bs

theorem Memory.find_putAll_of_lt {m : Memory} {a x : Nat} (h : x < a) (bytes : List Byte) :
    (m.putAll a bytes).find x = m.find x := by
  induction bytes generalizing m a with
  | nil => rfl
  | cons b bs ih => rw [Memory.putAll, ih (Nat.lt_succ_of_lt h), Memory.find_put_other m b h.ne]

theorem Memory.find_putAll_of_le {m : Memory} {a x : Nat} {bytes : List Byte} (h : a + bytes.length ≤ x) :
    (m.putAll a bytes).find x = m.find x := by
  induction bytes generalizing m a with
  | nil => rfl
  | cons b bs ih =>
    rw [List.length_cons] at h
    rw [Memory.putAll, ih (by omega), Memory.find_put_other m b (by omega)]

theorem Memory.find_putAll_of_getElem? {m : Memory} {a k : Nat} {bytes : List Byte} {b : Byte}
    (h : bytes[k]? = some b) : (m.putAll a bytes).find (a + k) = some b := by
  induction bytes generalizing m a k with
  | nil => simp at h
  | cons c bs ih =>
    rw [Memory.putAll]
    cases k with
    | zero =>
      obtain rfl : c = b := by simpa using h
      exact (Memory.find_putAll_of_lt (Nat.lt_add_one a) bs).trans (Memory.find_put_same m a c)
    | succ k =>
      rw [Nat.add_comm k 1, ← Nat.add_assoc]
      exact ih (by simpa using h)

/-! ### `UploadProgram` with reset -/

section

variable {s : State} (pos : MainPos) (moves : List Move)

theorem pollTakenStep_placed (h : s.taken = true) (n : Nat) (bytes : List Byte) :
    pollTakenStep n (some bytes) (s.placed pos moves) = s.placed (.copy s.cfg.uploadBase bytes) moves := by
  rw [pollTakenStep_copy (s := s.placed pos moves) h]
  rfl

theorem copyStep_placed_cons {a : Nat} (ha : a < s.cfg.cpmemSize) (ho : primaryOwns s = true) (b : Byte)
    (bs : List Byte) :
    copyStep a (b :: bs) (s.placed pos moves) =
      { s with cpmem := s.cpmem.put a b }.placed (.copy (a + 1) bs) moves := by
  rw [copyStep, memWrite_owned (s := s.placed pos moves) ha ho]
  rfl

theorem copyStep_placed_nil (a : Nat) :
    copyStep a [] (s.placed pos moves) = { s with req := false }.placed (.pollReady 0) moves := by
  rw [copyStep, writeArbctl_zero]
  rfl

end

/-- The copy, `MAIN` alone, the bus owned and the bytes in range: a transaction a byte, each byte stored, and nothing
else is changed (R119). -/
theorem steps_copy {s : State} {a : Nat} {bytes : List Byte} (rest : List Move) (hirq : s.inIrq = false)
    (howns : primaryOwns s = true) (hfits : a + bytes.length ≤ s.cfg.cpmemSize) :
    Steps bytes.length (s.placed (.copy a bytes) (List.replicate bytes.length .main ++ rest))
      ({ s with cpmem := s.cpmem.putAll a bytes }.placed (.copy (a + bytes.length) []) rest) := by
  induction bytes generalizing s a with
  | nil => rfl
  | cons b bs ih =>
    rw [List.length_cons] at hfits ⊢
    rw [show a + (bs.length + 1) = a + 1 + bs.length by omega]
    have hrest : a + 1 + bs.length ≤ s.cfg.cpmemSize := by omega
    exact .main hirq nofun (copyStep_placed_cons _ _ (by omega) howns b bs)
      (ih (s := { s with cpmem := s.cpmem.put a b }) hirq howns hrest)

/-- From its `TAKEN` poll to its `READY` poll, the bus owned and `MAIN` alone: the bytes stored and the bus released
(R119). -/
theorem steps_upload {s : State} {bytes : List Byte} (n : Nat) (rest : List Move) (hirq : s.inIrq = false)
    (howns : primaryOwns s = true) (hfits : s.cfg.uploadBase + bytes.length ≤ s.cfg.cpmemSize) :
    Steps (bytes.length + 2)
      (s.placed (.pollTaken n (some bytes)) (List.replicate (bytes.length + 2) .main ++ rest))
      ({ s with cpmem := s.cpmem.putAll s.cfg.uploadBase bytes, req := false }.placed (.pollReady 0) rest) := by
  obtain ⟨-, htaken⟩ := (primaryOwns_iff s).1 howns
  rw [List.replicate_succ, List.cons_append, List.replicate_add, List.append_assoc]
  have hcopy := steps_copy (.main :: rest) hirq howns hfits
  have hrelease := copyStep_placed_nil (s := { s with cpmem := s.cpmem.putAll s.cfg.uploadBase bytes })
    (.copy (s.cfg.uploadBase + bytes.length) []) rest (s.cfg.uploadBase + bytes.length)
  exact .main hirq nofun (pollTakenStep_placed _ _ htaken n bytes) (hcopy.trans (.main hirq nofun hrelease rfl))

/-- The state after the request of `UploadProgram` with reset: the bus owned, the coprocessor reset (R112), and a draw
where the image is too short (log 17). -/
def uploadRequested (image : List Byte) (length : Nat) (s : State) : State :=
  { s with
    req := true, taken := true, cpReady := false, cpState := s.cfg.cpResetState
    draws := if image.length < length then s.draws + 1 else s.draws }

theorem exec_uploadProgram_reset (image : List Byte) (length : Nat) (s : State) :
    exec (.uploadProgram image length true) s = .next
      ((uploadRequested image length s).placed (.pollTaken 0 (some (uploadBytes image length s))) s.script) := by
  rw [exec_uploadProgram, Bool.or_true, Bool.not_true, Bool.and_false]
  rfl

/-- Settles O24: the request that takes the bus, and the copy and the release; then each byte by what the copy stored. -/
theorem uploadProgramStoresTheImage : Obligations.UploadProgramStoresTheImage := by
  intro image length s rest hirq hfits hscript
  have hlength : (uploadBytes image length s).length = length := uploadBytes_length image length s
  have hsteps := steps_upload (s := uploadRequested image length s) (bytes := uploadBytes image length s) 0 rest hirq
    rfl (hlength.symm ▸ hfits)
  rw [hlength, ← hscript] at hsteps
  refine ⟨_, _, exec_uploadProgram_reset image length s, hsteps, fun k b hk hb => ?_, fun a ha => ?_,
    rfl, rfl, rfl, rfl, rfl, rfl, rfl⟩
  · refine cpByte_of_find (Memory.find_putAll_of_getElem? ?_)
    rw [uploadBytes_getElem? image length s hk, hb, Option.getD_some]
  · refine cpByte_congr_find ?_
    obtain hlt | hle := ha
    · exact Memory.find_putAll_of_lt hlt _
    · exact Memory.find_putAll_of_le (hlength.symm ▸ hle)

end Sys2Proof.Machine
end

