-- ==== Sys2Proof/Proofs/SerialTransactions.lean ====
section
/-! PROOF. The transactions on the port registers (O26 to O30) and the operations of one transaction (O32, O34), and the
steps of the serial line (O31). -/

namespace Sys2Proof.Machine

/-! ### The encodings -/

/-- The word of a format R transaction with a port register holds the port in bit 18 (R93, R96). -/
theorem encodesAsPort_of_rowOf {i : Instr} {p : Port} {value mask : TxnWord} {w : Bool} {rr : BitVec 8} {d : Word}
    (henc : encode i = some (packR w (portReg p rr) d)) (hrr : rr[2] = false)
    (hrow : Laws.rowOf i = some (value, mask)) : EncodesAsPort i p value mask := by
  obtain ⟨t, ht, hmatch, hdec⟩ := encodesAs_of_rowOf hrow
  obtain rfl : packR w (portReg p rr) d = t := Option.some.inj (henc.symm.trans ht)
  refine ⟨_, ht, hmatch, ?_, hdec⟩
  rw [getLsbD_packR]
  cases p <;> simp [portReg, hrr]

/-! ### One port written -/

/-- Writing the registers of a port writes nothing else. -/
theorem State.setIo_frame (s : State) (p : Port) (r : PortRegs) :
    (s.setIo p r).io p = r ∧ (∀ q, q ≠ p → (s.setIo p r).io q = s.io q) ∧ SameBytes s (s.setIo p r) ∧
      s.setIo p r = { s with ext := (s.setIo p r).ext, ctrl2 := (s.setIo p r).ctrl2 } := by
  refine ⟨s.setIo_io_same p r, fun q => s.setIo_io_other r, ⟨cpByte_congr (s.setIo_cpmem p r),
    ringByte_congr (s.setIo_buf p r)⟩, ?_⟩
  cases p <;> rfl

theorem State.setIo_returns (s : State) (p : Port) (r : PortRegs) (x : Result) :
    (s.setIo p r).returns x = (s.returns x).setIo p r := by
  cases p <;> rfl

/-- A fault that leaves a port with other content: the flag, the record and a draw besides the port (R9, R191). -/
theorem State.setIo_raise_frame (s : State) (f : Raised) (p : Port) (r : PortRegs) :
    ∃ t, (s.drawn.raise f).setIo p r = t ∧ t.io p = r ∧ (∀ q, q ≠ p → t.io q = s.io q) ∧ SameBytes s t ∧
      t = { s with
        ext := t.ext, ctrl2 := t.ctrl2, flt := s.flt ||| (1#8 <<< f.bit), raised := s.raised ++ [f]
        draws := t.draws } := by
  obtain ⟨hio, hother, hbytes, hframe⟩ := State.setIo_frame (s.drawn.raise f) p r
  refine ⟨_, rfl, hio, hother, hbytes, ?_⟩
  rw [State.setIo_draws]
  exact hframe

/-- Settles O26: one field of one port written, and the same field read. -/
theorem controlRegisterStoresItsByte : Obligations.ControlRegisterStoresItsByte := by
  refine fun p d s => ⟨encodesAsPort_of_rowOf rfl rfl rfl, encodesAsPort_of_rowOf rfl rfl rfl,
    ⟨(writeCtrl p d s).returns .void, rfl, ?_⟩, rfl⟩
  rw [writeCtrl, State.setIo_returns, dataByte_eq_setWidth]
  exact State.setIo_frame (s.returns .void) p _

/-- Settles O27: three fields of one port written, each with its bits of `DATA`. -/
theorem writeSerialControl : Obligations.WriteSerialControl := by
  refine fun p d s => ⟨encodesAsPort_of_rowOf rfl rfl rfl, (writeSctrl p d s).returns .void, rfl, ?_⟩
  rw [writeSctrl, State.setIo_returns]
  obtain ⟨hio, hother, hbytes, hframe⟩ := State.setIo_frame (s.returns .void) p
    { s.io p with baud := dataBaud d, subfn := dataSubfn d, rint := dataRint d }
  rw [hio]
  exact ⟨by simp [dataBaud], by simp [dataBaud], by simp [dataSubfn], by simp [dataSubfn], rfl, rfl,
    hother, hbytes, hframe⟩

/-- A field put above a word of lower weight: the sum of the two numbers. -/
theorem zext16_shiftLeft_or_toNat {n i : Nat} (v : BitVec n) {y : Word} (hy : y.toNat < 2 ^ i) (hfit : n + i ≤ 16) :
    (zext16 v <<< i ||| y).toNat = 2 ^ i * v.toNat + y.toNat := by
  have hfits : v.toNat * 2 ^ i < 2 ^ 16 :=
    calc v.toNat * 2 ^ i < 2 ^ n * 2 ^ i := Nat.mul_lt_mul_of_pos_right v.isLt (Nat.two_pow_pos i)
      _ = 2 ^ (n + i) := (Nat.pow_add 2 n i).symm
      _ ≤ 2 ^ 16 := Nat.pow_le_pow_right (by omega) hfit
  have hv : (zext16 v).toNat = v.toNat :=
    BitVec.toNat_setWidth_of_le (by omega)
  rw [BitVec.toNat_or, BitVec.toNat_shiftLeft, hv, Nat.shiftLeft_eq, Nat.mod_eq_of_lt hfits, ← Nat.shiftLeft_eq,
    ← Nat.shiftLeft_add_eq_or_of_lt hy, Nat.shiftLeft_eq, Nat.mul_comm]

theorem bitWord_toNat (b : Bool) : (bitWord b).toNat = b.toNat := by
  cases b <;> rfl

theorem bitWord_shiftLeft_or_toNat {i : Nat} (b : Bool) {y : Word} (hy : y.toNat < 2 ^ i) (hfit : 1 + i ≤ 16) :
    (bitWord b <<< i ||| y).toNat = 2 ^ i * b.toNat + y.toNat := by
  rw [bitWord, zext16_shiftLeft_or_toNat _ hy hfit, BitVec.toNat_ofBool]

/-- `SCTRL` as a number: each field above the ones of lower weight (R144). -/
theorem sctrlWord_toNat (p : Port) (s : State) : (sctrlWord p s).toNat =
    64 * (s.io p).baud.toNat + 16 * (s.io p).subfn.toNat + 8 * (s.io p).rint.toNat + 2 * (rrdy p s).toNat
      + (tfull p s).toNat := by
  have hsubfn := (s.io p).subfn.isLt
  have hrint := (s.io p).rint.toNat_lt
  have hrrdy := (rrdy p s).toNat_lt
  have htfull := (tfull p s).toNat_lt
  have h0 := bitWord_toNat (tfull p s)
  have h1 := bitWord_shiftLeft_or_toNat (i := 1) (rrdy p s) (h0.trans_lt (by omega)) (by omega)
  have h3 := bitWord_shiftLeft_or_toNat (i := 3) (s.io p).rint (h1.trans_lt (by omega)) (by omega)
  have h4 := zext16_shiftLeft_or_toNat (i := 4) (s.io p).subfn (h3.trans_lt (by omega)) (by omega)
  have h6 := zext16_shiftLeft_or_toNat (i := 6) (s.io p).baud (h4.trans_lt (by omega)) (by omega)
  rw [sctrlWord, BitVec.or_assoc, BitVec.or_assoc, BitVec.or_assoc]
  omega

/-- Settles O28: the word read, as a number. -/
theorem readSerialControl : Obligations.ReadSerialControl := by
  refine fun p s => ⟨encodesAsPort_of_rowOf rfl rfl rfl, sctrlWord p s, rfl, ?_⟩
  have hrrdy : (rrdy p s).toNat = if (s.io p).rxFifo = [] then 0 else 1 := by
    cases hfifo : (s.io p).rxFifo <;> simp [rrdy, hfifo]
  have htfull : (tfull p s).toNat = if (s.io p).txFifo.length = s.cfg.txDepth then 1 else 0 := by
    by_cases hfull : (s.io p).txFifo.length = s.cfg.txDepth <;> simp [tfull, hfull]
  rw [sctrlWord_toNat, hrrdy, htfull]

/-! ### The transmit FIFO -/

theorem pushTx_of_room {p : Port} {s : State} (h : (s.io p).txFifo.length < s.cfg.txDepth) (b : Byte) :
    pushTx p b s = s.setIo p { s.io p with txFifo := (s.io p).txFifo ++ [b] } := by
  rw [pushTx, if_pos h]

theorem pushTx_of_full {p : Port} {s : State} (h : s.cfg.txDepth ≤ (s.io p).txFifo.length) (b : Byte) :
    pushTx p b s =
      (s.drawn.raise (.txOverrun p)).setIo p { s.io p with txFifo := overrunContent s.cfg.txDepth s } := by
  rw [pushTx, if_neg (Nat.not_lt.2 h)]

section

variable {p : Port} {s : State} (b : Byte) (x : Result)

/-- With room the byte joins the transmit FIFO, and nothing else changes (R142). -/
theorem pushTx_returns_of_room (h : (s.io p).txFifo.length < s.cfg.txDepth) :
    ∃ t, (pushTx p b s).returns x = t ∧
      t.io p = { s.io p with txFifo := (s.io p).txFifo ++ [b] } ∧ (∀ q, q ≠ p → t.io q = s.io q) ∧ SameBytes s t ∧
      t = { s with ext := t.ext, ctrl2 := t.ctrl2, result := x } := by
  rw [pushTx_of_room h, State.setIo_returns]
  exact ⟨_, rfl, State.setIo_frame (s.returns x) p _⟩

/-- On a full transmit FIFO the overrun is raised, and the FIFO holds 1 to `TXFIFO_DEPTH` bytes (R142). -/
theorem pushTx_returns_of_full (hdepth : 1 ≤ s.cfg.txDepth) (h : s.cfg.txDepth ≤ (s.io p).txFifo.length) :
    ∃ t, (pushTx p b s).returns x = t ∧
      t.io p = { s.io p with txFifo := (t.io p).txFifo } ∧ 1 ≤ (t.io p).txFifo.length ∧
      (t.io p).txFifo.length ≤ s.cfg.txDepth ∧ (∀ q, q ≠ p → t.io q = s.io q) ∧ SameBytes s t ∧
      t = { s with
        ext := t.ext, ctrl2 := t.ctrl2, flt := s.flt ||| 16, raised := s.raised ++ [.txOverrun p], result := x
        draws := t.draws } := by
  rw [pushTx_of_full h, State.setIo_returns]
  obtain ⟨hmost, hleast⟩ := overrunContent_length s.cfg.txDepth s
  obtain ⟨t, ht, hio, hframe⟩ := State.setIo_raise_frame (s.returns x) (.txOverrun p) p
    { s.io p with txFifo := overrunContent s.cfg.txDepth s }
  exact ⟨t, ht, by rw [hio], by rw [hio]; exact hleast hdepth, by rw [hio]; exact hmost, hframe⟩

end

/-- Settles O29: the push of the low byte, with room and without. -/
theorem writeTransmitData : Obligations.WriteTransmitData := by
  refine fun p d s => ⟨encodesAsPort_of_rowOf rfl rfl rfl, fun hroom => ?_, fun hdepth hfull => ?_⟩
  · obtain ⟨t, ht, hrest⟩ := pushTx_returns_of_room (dataByte d) .void hroom
    rw [← dataByte_eq_setWidth]
    exact ⟨t, congrArg Host.Outcome.next ht, hrest⟩
  · obtain ⟨t, ht, hrest⟩ := pushTx_returns_of_full (dataByte d) .void hdepth hfull
    exact ⟨t, congrArg Host.Outcome.next ht, hrest⟩

/-! ### The receive FIFO -/

theorem popRx_of_nil {p : Port} {s : State} (h : (s.io p).rxFifo = []) :
    popRx p s = (Config.freeByte s.draws, s.drawn.raise (.rxUnderflow p)) := by
  rw [popRx, h]

section

variable {p : Port} {s : State} (x : Result)

/-- The head leaves the receive FIFO, and nothing else changes (R143). -/
theorem popRx_returns_of_cons {b : Byte} {rest : List Byte} (h : (s.io p).rxFifo = b :: rest) :
    ∃ t, (popRx p s).2.returns x = t ∧
      t.io p = { s.io p with rxFifo := rest } ∧ (∀ q, q ≠ p → t.io q = s.io q) ∧ SameBytes s t ∧
      t = { s with ext := t.ext, ctrl2 := t.ctrl2, result := x } := by
  rw [popRx_of_cons h, State.setIo_returns]
  exact ⟨_, rfl, State.setIo_frame (s.returns x) p _⟩

/-- On an empty receive FIFO the underflow is raised, and nothing else changes (R143). -/
theorem popRx_returns_of_nil (h : (s.io p).rxFifo = []) :
    ∃ t, (popRx p s).2.returns x = t ∧ SameBytes s t ∧
      t = { s with flt := s.flt ||| 8, raised := s.raised ++ [.rxUnderflow p], result := x, draws := t.draws } := by
  rw [popRx_of_nil h]
  exact ⟨_, rfl, ⟨fun _ => rfl, fun _ => rfl⟩, rfl⟩

end

/-- Settles O30: the pop, with a byte received and without. -/
theorem readReceiveData : Obligations.ReadReceiveData := by
  refine fun p s => ⟨encodesAsPort_of_rowOf rfl rfl rfl, fun b rest hfifo => ?_, fun hfifo => ?_⟩
  · obtain ⟨t, ht, hrest⟩ := popRx_returns_of_cons (.value (zext16 (popRx p s).1)) hfifo
    rw [popRx_of_cons hfifo] at hrest
    exact ⟨t, congrArg Host.Outcome.next ht, hrest⟩
  · obtain ⟨t, ht, hrest⟩ := popRx_returns_of_nil (.value (zext16 (popRx p s).1)) hfifo
    exact ⟨t, (popRx p s).1, congrArg Host.Outcome.next ht, hrest⟩

/-! ### The serial operations -/

/-- Settles O32: each of the seven is a serial operation, which needs a port. -/
theorem serialOperationsNeedAPort : Obligations.SerialOperationsNeedAPort := by
  refine ⟨fun b s i hport hi => ?_, rfl⟩
  have hnone (f : Port → State → State) : serialOp f s = s.returns .serialNotInit := by
    rw [serialOp, hport]
  simp only [List.mem_cons, List.not_mem_nil, or_false] at hi
  obtain rfl | rfl | rfl | rfl | rfl | rfl | rfl := hi
  all_goals exact congrArg Host.Outcome.next (hnone _)

/-- The transport's state after a serial operation that a transport in this state begins (R156; log 15). -/
def SerState.used : SerState → SerState
  | .uninitialized => .uninitialized
  | .configured | .active => .active

theorem SerState.used_eq_active {v : SerState} (h : v ≠ .uninitialized) : v.used = .active := by
  cases v with
  | uninitialized => exact absurd rfl h
  | configured | active => rfl

theorem firstUse_eq_used (s : State) : firstUse s = { s with serState := s.serState.used } := by
  rw [firstUse]
  split
  · next h => rw [h, SerState.used, ← h]
  · next h => rw [h, SerState.used]
  · next h => rw [h, SerState.used]

/-- A serial operation on the selected port, the transport in use. -/
theorem serialOp_used (f : Port → State → State) {s : State} {p : Port} (h : s.port = some p) :
    serialOp f s = f p { s with serState := s.serState.used } := by
  rw [serialOp_of_port h, firstUse_eq_used]

/-- Settles O34: the transaction of each on the selected port, the transport in use. -/
theorem serialTransfersMoveOneByte : Obligations.SerialTransfersMoveOneByte := by
  intro s p b hport
  have hwrite : exec (.serWrite b) s = .next ((pushTx p b { s with serState := s.serState.used }).returns .void) :=
    congrArg Host.Outcome.next (serialOp_used _ hport)
  have hread : exec .serRead s = .next ((popRx p { s with serState := s.serState.used }).2.returns
      (.byte (popRx p { s with serState := s.serState.used }).1)) :=
    congrArg Host.Outcome.next (serialOp_used _ hport)
  rw [hwrite, hread]
  refine ⟨s.serState.used, SerState.used_eq_active, fun hroom => ?_, fun hdepth hfull => ?_, fun x rest hfifo => ?_,
    fun hfifo => ?_⟩
  · obtain ⟨t, ht, hrest⟩ := pushTx_returns_of_room (s := { s with serState := s.serState.used }) b .void hroom
    exact ⟨t, congrArg Host.Outcome.next ht, hrest⟩
  · obtain ⟨t, ht, hrest⟩ := pushTx_returns_of_full (s := { s with serState := s.serState.used }) b .void hdepth hfull
    exact ⟨t, congrArg Host.Outcome.next ht, hrest⟩
  · rw [popRx_of_cons (s := { s with serState := s.serState.used }) hfifo]
    exact ⟨_, congrArg _ (State.setIo_returns ..), State.setIo_frame _ p _⟩
  · rw [popRx_of_nil (s := { s with serState := s.serState.used }) hfifo]
    exact ⟨_, _, rfl, ⟨fun _ => rfl, fun _ => rfl⟩, rfl⟩

/-! ### The serial line -/

theorem rxArrive_of_room {p : Port} {s : State} (h : (s.io p).rxFifo.length < s.cfg.rxDepth) (b : Byte) :
    rxArrive p b s = s.setIo p { s.io p with rxFifo := (s.io p).rxFifo ++ [b] } := by
  rw [rxArrive, if_pos h]

theorem rxArrive_of_full {p : Port} {s : State} (h : s.cfg.rxDepth ≤ (s.io p).rxFifo.length) (b : Byte) :
    rxArrive p b s =
      (s.drawn.raise (.rxfifoOverrun p)).setIo p { s.io p with rxFifo := overrunContent s.cfg.rxDepth s } := by
  rw [rxArrive, if_neg (Nat.not_lt.2 h)]

theorem txShift_of_cons {p : Port} {s : State} {b : Byte} {rest : List Byte} (h : (s.io p).txFifo = b :: rest) :
    txShift p s = s.setIo p { s.io p with txFifo := rest, txLine := (s.io p).txLine ++ [b] } := by
  rw [txShift, h]

theorem txShift_of_nil {p : Port} {s : State} (h : (s.io p).txFifo = []) : txShift p s = s := by
  rw [txShift, h]

/-- Settles O31: the two steps of the line on the state with the choice used up. -/
theorem serialLineMovesBytes : Obligations.SerialLineMovesBytes := by
  refine fun p s => ⟨fun b hmove => ?_, fun hmove => ?_⟩
  all_goals rw [step_eq, hmove, runMove, ← afterChoice_io]
  · refine ⟨fun hroom => ?_, fun hdepth hfull => ?_⟩
    · rw [rxArrive_of_room (s := afterChoice s) hroom]
      exact ⟨_, rfl, State.setIo_frame (afterChoice s) p _⟩
    · rw [rxArrive_of_full (s := afterChoice s) hfull]
      obtain ⟨hmost, hleast⟩ := overrunContent_length s.cfg.rxDepth (afterChoice s)
      obtain ⟨t, ht, hio, hframe⟩ := State.setIo_raise_frame (afterChoice s) (.rxfifoOverrun p) p
        { (afterChoice s).io p with rxFifo := overrunContent s.cfg.rxDepth (afterChoice s) }
      exact ⟨t, congrArg Host.Outcome.next ht, by rw [hio], by rw [hio]; exact hleast hdepth,
        by rw [hio]; exact hmost, hframe⟩
  · refine ⟨fun b rest hfifo => ?_, fun hfifo => ?_⟩
    · rw [txShift_of_cons hfifo]
      exact ⟨_, rfl, State.setIo_frame (afterChoice s) p _⟩
    · rw [txShift_of_nil hfifo]

end Sys2Proof.Machine
end

