-- ==== Sys2Proof/Proofs/DrainLoops.lean ====
section
/-! PROOF. The drain loops: how many transactions of the issuer are left while the line is quiet (O35), and `ResetFifos` to its
end with `MAIN` alone (O36). -/

namespace Sys2Proof.Machine

/-! ### What fills the receive FIFO -/

/-- No more bytes are queued to receive on the port than before. -/
def NoneArrived (p : Port) (s t : State) : Prop := (t.io p).rxFifo.length ≤ (s.io p).rxFifo.length

theorem NoneArrived.refl (p : Port) (s : State) : NoneArrived p s s := Nat.le_refl _

theorem NoneArrived.trans {p : Port} {s t u : State} (h : NoneArrived p s t) (h' : NoneArrived p t u) :
    NoneArrived p s u :=
  Nat.le_trans h' h

theorem NoneArrived.setIo {p q : Port} {s : State} {r : PortRegs}
    (h : q = p → r.rxFifo.length ≤ (s.io p).rxFifo.length) : NoneArrived p s (s.setIo q r) := by
  rw [NoneArrived, State.setIo_io]
  split
  · next hq => exact h hq.symm
  · exact Nat.le_refl _

/-- No transaction queues a byte to receive. -/
theorem Effect.noneArrived {bus : Bool} {s t : State} (p : Port) (h : Effect bus s t) : NoneArrived p s t := by
  cases h with
  | arbctl _ d => rw [writeArbctl_eq]; exact .refl p s
  | memWrite _ a v => obtain ⟨-, h⟩ | ⟨-, -, h⟩ | ⟨-, -, h⟩ := memWrite_cases a v s <;> rw [h] <;> exact .refl p s
  | memRead a => obtain ⟨-, h⟩ | ⟨-, -, h⟩ | ⟨-, -, h⟩ := memRead_cases a s <;> rw [h] <;> exact .refl p s
  | badTxn w => obtain ⟨-, h⟩ | ⟨-, h⟩ := badTxn_cases w s <;> rw [h] <;> exact .refl p s
  | writeCtrl q d => exact .setIo fun hq => hq ▸ Nat.le_refl _
  | writeSctrl q d => exact .setIo fun hq => hq ▸ Nat.le_refl _
  | pushTx q b =>
    obtain ⟨-, h⟩ | ⟨-, h⟩ := pushTx_cases q b s <;> rw [h]
    · exact .setIo fun hq => hq ▸ Nat.le_refl _
    · exact NoneArrived.setIo (s := s.drawn.raise (.txOverrun q)) fun hq => hq ▸ Nat.le_refl _
  | popRx q =>
    obtain ⟨b, rest, hfifo, h⟩ | ⟨-, h⟩ := popRx_cases q s <;> rw [h]
    · refine .setIo fun hq => ?_
      rw [← hq, hfifo]
      exact Nat.le_succ _
    · exact .refl p s
  | ringWrite b => obtain ⟨-, h⟩ | ⟨-, -, h⟩ | ⟨-, -, h⟩ := ringWrite_cases b s <;> rw [h] <;> exact .refl p s
  | ringRead => obtain ⟨-, h⟩ | ⟨-, h⟩ := ringRead_cases s <;> rw [h] <;> exact .refl p s
  | ringReset d => obtain ⟨-, h⟩ | ⟨-, h⟩ := ringReset_cases d s <;> rw [h] <;> exact .refl p s
  | drawn | writeMode | writeImask | note => exact .refl p s

theorem Effects.noneArrived {bus : Bool} {s t : State} (p : Port) (h : Effects bus s t) : NoneArrived p s t := by
  induction h with
  | refl => exact .refl p s
  | tail _ h ih => exact ih.trans (h.noneArrived p)

theorem issueNext_noneArrived {s t : State} (p : Port) (h : issueNext s = .next t) : NoneArrived p s t := by
  obtain ⟨u, hu, he⟩ := issueNext_effects s
  cases hu.symm.trans h
  exact he.noneArrived p

theorem intStep_noneArrived {s t : State} (p : Port) (h : intStep s = .next t) : NoneArrived p s t := by
  obtain ⟨-, -, hs⟩ | ⟨-, -, hs⟩ | ⟨-, pos, q, -, -, hs⟩ | ⟨-, -, -, hs⟩ | ⟨-, -, -, hs⟩ := intStep_cases s
  · cases hs.symm.trans h
    obtain ⟨_, hv, -⟩ := intEnter_eq s
    rw [hv]
    exact .refl p s
  · cases hs.symm.trans h
    exact .refl p s
  · cases hs.symm.trans h
    exact (drainStep_effects (bus := false) q pos s).noneArrived p
  · cases hs.symm.trans h
    exact .refl p s
  · obtain ⟨u, hu, rfl⟩ := handlerStep_eq_next.1 (hs.symm.trans h)
    exact issueNext_noneArrived (s := { s with intPos := none }.swapIssuer) p hu

/-- Only the line queues a byte to receive (R146). -/
theorem runMove_noneArrived {m : Move} {s t : State} {p : Port} (hm : ∀ b, m ≠ .rxArrive p b)
    (h : runMove m s = .next t) : NoneArrived p s t := by
  cases m with
  | main =>
    obtain ⟨-, hs⟩ | ⟨-, hs⟩ := mainStep_cases s
    · cases hs.symm.trans h
      exact .refl p s
    · exact issueNext_noneArrived p (hs.symm.trans h)
  | int => exact intStep_noneArrived p h
  | grant => cases h; rw [grant_eq]; exact .refl p s
  | resume => cases h; rw [resume_eq]; exact .refl p s
  | cpStep c stores ready =>
    cases h
    obtain ⟨-, hs⟩ | ⟨-, hs⟩ := cpStep_cases c stores ready s <;> rw [hs] <;> exact .refl p s
  | rxArrive q b =>
    cases h
    have hq : q ≠ p := fun hq => hm b (hq ▸ rfl)
    obtain ⟨-, hs⟩ | ⟨-, hs⟩ := rxArrive_cases q b s <;> rw [hs]
    · exact .setIo fun h => absurd h hq
    · exact NoneArrived.setIo (s := s.drawn.raise (.rxfifoOverrun q)) fun h => absurd h hq
  | txShift q =>
    cases h
    obtain ⟨_, _, -, hs⟩ | ⟨-, hs⟩ := txShift_cases q s <;> rw [hs]
    · exact .setIo fun hq => hq ▸ Nat.le_refl _
    · exact .refl p s

/-- The pop takes a byte off, where there is one. -/
theorem popRx_rxFifo (p : Port) (s : State) : ((popRx p s).2.io p).rxFifo = (s.io p).rxFifo.tail := by
  obtain ⟨b, rest, hfifo, h⟩ | ⟨hfifo, h⟩ := popRx_cases p s
  · rw [h, hfifo, State.setIo_io_same]
    rfl
  · rw [h, State.raise_io]
    change (s.io p).rxFifo = _
    rw [hfifo]
    rfl

/-! ### Counting down -/

/-- What is left to the issuer, `left k m` bounding it by `m` transactions at step `k`, comes to its end where the
issuer takes that many steps: each brings the bound down and no other step raises it (R253). -/
theorem exists_done_of_countP {steps : Nat → Bool} {left : Nat → Nat → Prop} {done : Nat → Prop} {n d m : Nat}
    (hleft : left n m) (hcount : m ≤ (List.range' n d).countP steps) (hpos : ∀ k, ¬ left k 0)
    (hstep : ∀ k m, n ≤ k → k < n + d → left k m → done (k + 1) ∨ left (k + 1) (m - (steps k).toNat)) :
    ∃ k, n ≤ k ∧ done k := by
  induction d generalizing n m with
  | zero =>
    obtain rfl : m = 0 := Nat.le_zero.1 hcount
    exact absurd hleft (hpos n)
  | succ d ih =>
    obtain hdone | hnext := hstep n m (Nat.le_refl n) (by omega) hleft
    · exact ⟨n + 1, Nat.le_succ n, hdone⟩
    · rw [List.range'_succ, List.countP_cons] at hcount
      have hcount' : m - (steps n).toNat ≤ (List.range' (n + 1) d).countP steps := by
        rw [Bool.toNat, Bool.cond_eq_ite]
        omega
      obtain ⟨k, hk, hdone⟩ := ih hnext hcount' fun k m hk hlt => hstep k m (by omega) (by omega)
      exact ⟨k, by omega, hdone⟩

/-! ### The loop of `ResetFifos` on a quiet line -/

/-- `MAIN` stands in the drain loop of `ResetFifos` with at most so many transactions of it left on a quiet line: two a
queued byte and one check, the read under way counted once even if another context took its byte (R154). -/
inductive FifoLoop (p : Port) (init : Option Bool) (s : State) (m : Nat) : Prop where
  | check (hpos : s.mainPos = .fifoCheck p init) (hlen : 2 * (s.io p).rxFifo.length + 1 ≤ m)
  | pop (hpos : s.mainPos = .fifoPop p init) (hlen : 2 * (s.io p).rxFifo.length ≤ m) (hm : 2 ≤ m)

section

variable {p : Port} {init : Option Bool} {s t : State} {m : Nat}

theorem FifoLoop.pos (h : FifoLoop p init s m) : 0 < m := by
  cases h <;> omega

/-- The step of another agent leaves as much to do, or less. -/
theorem FifoLoop.other (h : FifoLoop p init s m) (hpos : t.mainPos = s.mainPos) (hfifo : NoneArrived p s t) :
    FifoLoop p init t m := by
  have hfifo : (t.io p).rxFifo.length ≤ (s.io p).rxFifo.length := hfifo
  cases h with
  | check hp hlen => exact .check (hpos.trans hp) (by omega)
  | pop hp hlen hm => exact .pop (hpos.trans hp) (by omega) hm

/-- `MAIN`'s own step ends the loop or leaves one transaction less. -/
theorem FifoLoop.main (h : FifoLoop p init s m) : (continueOp s.mainPos s).mainPos = .ringClear init ∨
    FifoLoop p init (continueOp s.mainPos s) (m - 1) := by
  cases h with
  | check hp hlen =>
    rw [hp]
    cases hfifo : (s.io p).rxFifo with
    | nil => exact .inl (congrArg State.mainPos (fifoCheckStep_of_nil init s.mainPos s.script hfifo))
    | cons b bytes =>
      rw [hfifo, List.length_cons] at hlen
      refine .inr (.pop (congrArg State.mainPos (fifoCheckStep_of_cons init s.mainPos s.script hfifo)) ?_ ?_)
      · change 2 * (s.io p).rxFifo.length ≤ _
        rw [hfifo, List.length_cons]
        omega
      · omega
  | pop hp hlen hm =>
    rw [hp]
    refine .inr (.check rfl ?_)
    change 2 * ((popRx p s).2.io p).rxFifo.length + 1 ≤ _
    rw [popRx_rxFifo, List.length_tail]
    omega

end

/-- One step of a run while `MAIN` is in the loop and the line is quiet. -/
theorem FifoLoop.step {moves : Nat → Move} {r : Nat → State} {p : Port} {init : Option Bool} {k m : Nat}
    (hrun : IsRun moves r) (hquiet : ∀ b, moves k ≠ .rxArrive p b) (h : FifoLoop p init (r k) m) :
    (r (k + 1)).mainPos = .ringClear init ∨ FifoLoop p init (r (k + 1)) (m - (mainSteps moves r k).toNat) := by
  by_cases hm : MainMoves moves r k
  · have hcount : mainSteps moves r k = true := by simp [mainSteps, hm.1, hm.2]
    have hnext : r (k + 1) = continueOp (r k).mainPos (r k).spent :=
      hrun.mainMove_eq hm rfl (by cases h <;> simp_all)
    rw [hcount, hnext]
    exact FifoLoop.main (s := (r k).spent) (h.other rfl (.refl p _))
  · have hcount : mainSteps moves r k = false := by
      simpa [mainSteps, MainMoves] using hm
    rw [hcount]
    exact .inr (h.other (step_mainPos (s := { r k with script := [moves k] }) hm (hrun k))
      (runMove_noneArrived (s := (r k).spent) hquiet (hrun.runMove_eq k)))

/-! ### The loop of the interrupt routine on a quiet line -/

/-- The check of the drain routine goes on where a byte is received, and is its exit else (R180). -/
theorem drainStep_atCheck (p : Port) (s : State) :
    drainStep p .atCheck s = (if (s.io p).rxFifo = [] then none else some .atRead, s) := by
  rw [drainStep, sctrlWord_rrdy, rrdy]
  cases (s.io p).rxFifo <;> rfl

@[simp] theorem ringWrite_io (b : Byte) (s : State) (p : Port) : (ringWrite b s).io p = s.io p := by
  obtain ⟨-, h⟩ | ⟨-, -, h⟩ | ⟨-, -, h⟩ := ringWrite_cases b s <;> rw [h] <;> cases p <;> rfl

/-- The interrupt context stands in its drain routine with at most so many transactions of it left on a quiet line:
three a queued byte and one check (R180). -/
inductive DrainLoop (p : Port) (s : State) (m : Nat) : Prop where
  | check (hpos : s.intPos = some .atCheck) (hlen : 3 * (s.io p).rxFifo.length + 1 ≤ m)
  | read (hpos : s.intPos = some .atRead) (hlen : 3 * (s.io p).rxFifo.length ≤ m) (hm : 3 ≤ m)
  | write (b : Byte) (hpos : s.intPos = some (.atWrite b)) (hlen : 3 * (s.io p).rxFifo.length + 2 ≤ m)

section

variable {p : Port} {s t : State} {m : Nat}

theorem DrainLoop.pos (h : DrainLoop p s m) : 0 < m := by
  cases h <;> omega

/-- The step of another agent leaves as much to do, or less. -/
theorem DrainLoop.other (h : DrainLoop p s m) (hpos : t.intPos = s.intPos) (hfifo : NoneArrived p s t) :
    DrainLoop p t m := by
  have hfifo : (t.io p).rxFifo.length ≤ (s.io p).rxFifo.length := hfifo
  cases h with
  | check hp hlen => exact .check (hpos.trans hp) (by omega)
  | read hp hlen hm => exact .read (hpos.trans hp) (by omega) hm
  | write b hp hlen => exact .write b (hpos.trans hp) (by omega)

/-- `INT`'s own step ends the loop or leaves one transaction less. -/
theorem DrainLoop.int {pos : DrainPos} (h : DrainLoop p s m) (hpos : s.intPos = some pos) :
    (drainStep p pos s).1 = none ∨
      DrainLoop p { (drainStep p pos s).2 with intPos := (drainStep p pos s).1 } (m - 1) := by
  cases h with
  | check hp hlen =>
    obtain rfl : .atCheck = pos := Option.some.inj (hp.symm.trans hpos)
    rw [drainStep_atCheck]
    split
    · exact .inl rfl
    · next hne =>
      have hlen' : 0 < (s.io p).rxFifo.length := List.length_pos_iff.2 hne
      exact .inr (.read rfl (Nat.le_sub_of_add_le hlen) (by omega))
  | read hp hlen hm =>
    obtain rfl : .atRead = pos := Option.some.inj (hp.symm.trans hpos)
    refine .inr (.write (popRx p s).1 rfl ?_)
    change 3 * ((popRx p s).2.io p).rxFifo.length + 2 ≤ m - 1
    rw [popRx_rxFifo, List.length_tail]
    omega
  | write b hp hlen =>
    obtain rfl : .atWrite b = pos := Option.some.inj (hp.symm.trans hpos)
    refine .inr (.check rfl ?_)
    change 3 * ((ringWrite b s).io p).rxFifo.length + 1 ≤ m - 1
    rw [ringWrite_io]
    omega

end

/-- Which port is selected and whether the interrupt context is active, and where it stands. -/
structure IntView where
  inIrq : Bool
  port : Option Port
  intPos : Option DrainPos

def State.intView (s : State) : IntView := { inIrq := s.inIrq, port := s.port, intPos := s.intPos }

@[simp] theorem State.setIo_intView (s : State) (p : Port) (r : PortRegs) : (s.setIo p r).intView = s.intView := by
  cases p <;> rfl

/-- Inside the interrupt context no move but `INT`'s touches what it stands at (R12). -/
theorem runMove_intView {m : Move} {s t : State} (hin : s.inIrq = true) (hm : m ≠ .int)
    (h : runMove m s = .next t) : t.intView = s.intView := by
  cases m with
  | int => exact absurd rfl hm
  | main =>
    obtain ⟨-, hs⟩ | ⟨hf, -⟩ := mainStep_cases s
    · cases hs.symm.trans h
      rfl
    · cases hin.symm.trans hf
  | grant => cases h; rw [grant_eq]; rfl
  | resume => cases h; rw [resume_eq]; rfl
  | cpStep c stores ready =>
    cases h
    obtain ⟨-, hs⟩ | ⟨-, hs⟩ := cpStep_cases c stores ready s <;> rw [hs]
    rfl
  | rxArrive p b =>
    cases h
    obtain ⟨-, hs⟩ | ⟨-, hs⟩ := rxArrive_cases p b s <;> rw [hs]
    · exact s.setIo_intView p _
    · exact State.setIo_intView (s.drawn.raise (.rxfifoOverrun p)) p _
  | txShift p =>
    cases h
    obtain ⟨_, _, -, hs⟩ | ⟨-, hs⟩ := txShift_cases p s
    · rw [hs]
      exact s.setIo_intView p _
    · rw [hs]

theorem drainStep_port (p : Port) (pos : DrainPos) (s : State) : (drainStep p pos s).2.port = s.port := by
  obtain ⟨-, _, -, h⟩ | ⟨-, h⟩ | ⟨b, -, h⟩ := drainStep_cases p pos s <;> rw [h]
  · obtain ⟨_, _, -, h⟩ | ⟨-, h⟩ := popRx_cases p s <;> simp [h]
  · obtain ⟨-, h⟩ | ⟨-, -, h⟩ | ⟨-, -, h⟩ := ringWrite_cases b s <;> simp [h]

/-- The interrupt context is active in its drain loop on the selected port. -/
structure InDrain (p : Port) (s : State) (m : Nat) : Prop where
  inIrq : s.inIrq = true
  port : s.port = some p
  loop : DrainLoop p s m

theorem InDrain.intStep {p : Port} {s t : State} {m : Nat} (h : InDrain p s m) (hs : Machine.intStep s = .next t) :
    (t.inIrq = true ∧ t.intPos = none) ∨ InDrain p t (m - 1) := by
  obtain ⟨pos, hpos⟩ : ∃ pos, s.intPos = some pos := by
    cases h.loop with
    | check hp | read hp | write _ hp => exact ⟨_, hp⟩
  have hnext : Machine.intStep s = .next { (drainStep p pos s).2 with intPos := (drainStep p pos s).1 } := by
    rw [Machine.intStep, if_pos h.inIrq, hpos, h.port]
  cases hnext.symm.trans hs
  have hin : (drainStep p pos s).2.inIrq = true :=
    (congrArg Outside.inIrq (drainStep_effects (bus := false) p pos s).outside_eq).trans h.inIrq
  obtain hdone | hloop := h.loop.int hpos
  · exact .inl ⟨hin, hdone⟩
  · exact .inr ⟨hin, (drainStep_port p pos s).trans h.port, hloop⟩

/-- One step of a run while the interrupt context is in its loop and the line is quiet. -/
theorem InDrain.step {moves : Nat → Move} {r : Nat → State} {p : Port} {k m : Nat} (hrun : IsRun moves r)
    (hquiet : ∀ b, moves k ≠ .rxArrive p b) (h : InDrain p (r k) m) :
    ((r (k + 1)).inIrq = true ∧ (r (k + 1)).intPos = none) ∨
      InDrain p (r (k + 1)) (m - (intSteps moves r k).toNat) := by
  have hmove := hrun.runMove_eq k
  by_cases hm : moves k = .int
  · have hcount : intSteps moves r k = true := by simp [intSteps, hm, h.inIrq]
    rw [hm] at hmove
    rw [hcount]
    exact InDrain.intStep (s := (r k).spent) ⟨h.inIrq, h.port, h.loop.other rfl (.refl p _)⟩ hmove
  · have hcount : intSteps moves r k = false := by simp [intSteps, hm]
    have hview : (r (k + 1)).intView = (r k).intView := runMove_intView (s := (r k).spent) h.inIrq hm hmove
    rw [hcount]
    exact .inr ⟨(congrArg IntView.inIrq hview).trans h.inIrq, (congrArg IntView.port hview).trans h.port,
      h.loop.other (congrArg IntView.intPos hview) (runMove_noneArrived (s := (r k).spent) hquiet hmove)⟩

/-- Settles O35: on a quiet line each step of the issuer brings its loop one transaction nearer to its end. -/
theorem drainLoopsEndOnAQuietLine : Obligations.DrainLoopsEndOnAQuietLine := by
  refine fun moves r n p hrun => ⟨fun init hpos hquiet => ?_, fun hin hport hpos hquiet => ?_⟩
  · obtain ⟨m, hm, hline, hcount⟩ := hquiet
    exact exists_done_of_countP (left := fun k => FifoLoop p init (r k)) (.check hpos (Nat.le_refl _)) hcount
      (fun k h => Nat.lt_irrefl 0 h.pos)
      fun k _ hk hlt h => h.step hrun fun b => hline k b hk (by omega)
  · obtain ⟨m, hm, hline, hcount⟩ := hquiet
    exact exists_done_of_countP (left := fun k => InDrain p (r k)) ⟨hin, hport, .check hpos (Nat.le_refl _)⟩ hcount
      (fun k h => Nat.lt_irrefl 0 h.loop.pos)
      fun k _ hk hlt h => h.step hrun fun b => hline k b hk (by omega)

/-! ### `ResetFifos` with `MAIN` alone -/

theorem exec_resetFifos {s : State} {p : Port} (h : s.port = some p) :
    exec .resetFifos s = .next (fifoCheckStep p none { s with serState := s.serState.used }) :=
  congrArg Host.Outcome.next (serialOp_used _ h)

/-- From the first check on to the end, `MAIN` alone: the loop, and the clearing of the ring (R154). -/
theorem steps_resetFifos {s : State} {p : Port} {rest : List Move} (hirq : s.inIrq = false)
    (hscript : s.script = List.replicate (2 * (s.io p).rxFifo.length + 1) .main ++ rest) :
    Steps (2 * (s.io p).rxFifo.length + 1) (fifoCheckStep p none s)
      (State.setIo { s with readHead := 0, writeHead := 0, mainPos := .idle, result := .void, script := rest } p
        { s.io p with rxFifo := [] }) := by
  have hmoves : s.script = List.replicate (2 * (s.io p).rxFifo.length) .main ++ .main :: rest := by
    rw [hscript, List.replicate_succ', List.append_assoc, List.singleton_append]
  obtain ⟨t, hcheck, hloop⟩ := steps_drainLoop (p := p) none (.main :: rest) hirq rfl
  have hfirst : t = fifoCheckStep p none s := by
    have hstep := step_inside (s := s.placed (.fifoCheck p none) (.main :: s.script)) ⟨rfl, hirq⟩ nofun
    rw [hmoves] at hstep
    rw [Host.Outcome.next.inj (hcheck.symm.trans hstep), ← hmoves]
    rfl
  rw [hfirst] at hloop
  exact hloop.trans (.main (by simpa using hirq) nofun (by cases p <;> rfl) rfl)

/-- Settles O36: the first check, the loop to its end, and the ring cleared. -/
theorem resetFifosDrainsAndClears : Obligations.ResetFifosDrainsAndClears := by
  intro s p rest hport hirq hscript
  have hsteps := steps_resetFifos (s := { s with serState := s.serState.used }) hirq hscript
  exact ⟨_, _, exec_resetFifos hport, rfl, SerState.used_eq_active, hsteps, State.setIo_frame _ p _⟩

end Sys2Proof.Machine
end

