-- ==== Sys2Proof/Proofs/RxDrain.lean ====
section
/-! PROOF. `RxDrain` in a command list, transaction by transaction (O50). -/

namespace Sys2Proof.Machine

/-! ### The transactions of `RxDrain` in a command list -/

section

variable {p : Port} {s : State}

theorem mainDrainStep_check_of_nil (h : (s.io p).rxFifo = []) : mainDrainStep p .atCheck s = s.finish .void := by
  rw [mainDrainStep, drainStep_atCheck, if_pos h]

theorem mainDrainStep_check_of_ne_nil (h : (s.io p).rxFifo ≠ []) :
    mainDrainStep p .atCheck s = { s with mainPos := .drain p .atRead } := by
  rw [mainDrainStep, drainStep_atCheck, if_neg h]

theorem mainDrainStep_read_of_cons {b : Byte} {rest : List Byte} (h : (s.io p).rxFifo = b :: rest) :
    mainDrainStep p .atRead s =
      { s with mainPos := .drain p (.atWrite b) }.setIo p { s.io p with rxFifo := rest } := by
  rw [mainDrainStep, drainStep, popRx_of_cons h]
  cases p <;> rfl

theorem mainDrainStep_read_of_nil (h : (s.io p).rxFifo = []) :
    mainDrainStep p .atRead s =
      { s with
        flt := s.flt ||| 8, raised := s.raised ++ [.rxUnderflow p], draws := s.draws + 1
        mainPos := .drain p (.atWrite (Config.freeByte s.draws)) } := by
  rw [mainDrainStep, drainStep, popRx_of_nil h]
  rfl

theorem mainDrainStep_write (b : Byte) :
    mainDrainStep p (.atWrite b) s = { ringWrite b s with mainPos := .drain p .atCheck } := rfl

end

/-- The ring write as the claims describe it, and that it writes nothing else (R172). -/
theorem ringWrite_frame (b : Byte) (s : State) : RingWritten b s (ringWrite b s) ∧
    ringWrite b s = { s with
      buf := (ringWrite b s).buf, writeHead := (ringWrite b s).writeHead, flt := (ringWrite b s).flt
      raised := (ringWrite b s).raised } := by
  have hsame := (ringByte_put s s.writeHead.toNat s.writeHead.toNat b).trans (if_pos rfl)
  have hother (k : Nat) (hk : k ≠ s.writeHead.toNat) := (ringByte_put s s.writeHead.toNat k b).trans (if_neg hk)
  obtain ⟨hfull, h⟩ | ⟨hfull, hstrict, h⟩ | ⟨hfull, hstrict, h⟩ := ringWrite_cases b s <;> rw [h]
  · exact ⟨⟨fun _ => ⟨rfl, hsame, hother⟩, by simp [hfull], by simp [hfull], by simp [hfull]⟩, rfl⟩
  · exact ⟨⟨by simp [hfull, hstrict], fun _ => ⟨rfl, fun _ => rfl⟩, by simp [hfull, Raised.bit], by simp [hfull]⟩, rfl⟩
  · exact ⟨⟨fun _ => ⟨rfl, hsame, hother⟩, by simp [hstrict], by simp [hfull, Raised.bit], by simp [hfull]⟩, rfl⟩

theorem exec_rxDrain {s : State} {p : Port} (h : s.port = some p) :
    exec .rxDrain s = .next (mainDrainStep p .atCheck { s with serState := s.serState.used }) :=
  congrArg Host.Outcome.next (serialOp_used _ h)

theorem step_drain {s : State} {p : Port} {pos : DrainPos} (hturn : MainTurn s) (h : s.mainPos = .drain p pos) :
    step s = .next (mainDrainStep p pos (afterChoice s)) := by
  rw [step_inside hturn (by simp [h]), h]
  rfl

/-- Settles O50: the first check as the instruction's own transaction, and each later one as a step of `MAIN`. -/
theorem rxDrainRunsItsLoop : Obligations.RxDrainRunsItsLoop := by
  refine ⟨fun s p hport => ⟨s.serState.used, SerState.used_eq_active, fun hfifo => ?_, fun hfifo => ?_⟩,
    fun s p hturn => ⟨fun b rest hpos hfifo => ?_, fun hpos hfifo => ?_, fun b hpos => ?_, fun hpos hfifo => ?_,
      fun hpos hfifo => ?_⟩⟩
  · rw [exec_rxDrain hport, mainDrainStep_check_of_nil (s := { s with serState := s.serState.used }) hfifo]
    rfl
  · rw [exec_rxDrain hport, mainDrainStep_check_of_ne_nil (s := { s with serState := s.serState.used }) hfifo]
  · rw [step_drain hturn hpos, mainDrainStep_read_of_cons (s := afterChoice s) hfifo, ← afterChoice_io]
    exact ⟨_, rfl, State.setIo_frame { afterChoice s with mainPos := .drain p (.atWrite b) } p _⟩
  · rw [step_drain hturn hpos, mainDrainStep_read_of_nil (s := afterChoice s) hfifo]
    exact ⟨_, _, rfl, ⟨fun _ => rfl, fun _ => rfl⟩, rfl⟩
  · obtain ⟨hring, hframe⟩ := ringWrite_frame b (afterChoice s)
    rw [step_drain hturn hpos, mainDrainStep_write]
    refine ⟨_, rfl, hring, ?_, congrArg (fun t : State => { t with mainPos := .drain p .atCheck }) hframe⟩
    rw [hframe]
    exact fun _ => rfl
  · rw [step_drain hturn hpos, mainDrainStep_check_of_nil (s := afterChoice s) hfifo]
    rfl
  · rw [step_drain hturn hpos, mainDrainStep_check_of_ne_nil (s := afterChoice s) hfifo]

end Sys2Proof.Machine
end

