-- ==== Sys2Proof/Proofs/InterruptEntry.lean ====
section
/-! PROOF. The steps that enter and leave the interrupt context (O55). -/

namespace Sys2Proof.Machine

theorem intEnter_of_none {s : State} (h : s.port = none) :
    intEnter s = { s with inIrq := true, intPos := some .atCheck, intIdx := 0, intOp := .idle } := by
  simp only [intEnter, h]

/-- On a selected port the routine's invocation is a use of the transport (R156, R201). -/
theorem intEnter_of_port {s : State} {p : Port} (h : s.port = some p) :
    intEnter s = { s with
      inIrq := true, intPos := some .atCheck, intIdx := 0, intOp := .idle, serState := s.serState.used } := by
  simp only [intEnter, h, firstUse_eq_used]

theorem intStep_enter {s : State} (hin : s.inIrq = false) (hirq : irq s = true) :
    intStep s = .next (intEnter s) := by
  rw [intStep, hin, hirq]
  rfl

theorem intStep_exit {s : State} (hin : s.inIrq = true) (hover : drainOver s = true) (hdone : handlerDone s = true) :
    intStep s = .next (intExit s) := by
  obtain ⟨hf, -⟩ | ⟨hf, -⟩ | ⟨-, pos, p, hpos, hport, -⟩ | ⟨-, -, -, h⟩ | ⟨-, -, hd, -⟩ := intStep_cases s
  · cases hin.symm.trans hf
  · cases hin.symm.trans hf
  · simp [drainOver, hpos, hport] at hover
  · exact h
  · cases hdone.symm.trans hd

/-- Settles O55: entry with and without a port selected, exit, and the handler of R201. -/
theorem interruptEntryAndExit : Obligations.InterruptEntryAndExit := by
  refine ⟨fun s hmove hin hirq => ?_, fun s hmove hin hover hdone => ?_, fun s => handlerDone_nil⟩
  · rw [step_eq, hmove, runMove, intStep_enter (s := afterChoice s) hin hirq]
    cases hport : s.port with
    | none =>
      rw [intEnter_of_none (s := afterChoice s) hport]
      exact ⟨_, rfl, rfl, rfl, rfl, rfl, rfl, fun _ => rfl, fun h => absurd rfl h⟩
    | some p =>
      rw [intEnter_of_port (s := afterChoice s) hport]
      exact ⟨_, rfl, rfl, rfl, rfl, rfl, rfl, nofun, fun _ => SerState.used_eq_active⟩
  · rw [step_eq, hmove, runMove, intStep_exit (s := afterChoice s) hin hover hdone]
    rfl

end Sys2Proof.Machine
end

