-- ==== Sys2Proof/Proofs/RingTransactions.lean ====
section
/-! PROOF. The transactions on the ring buffer: write (O40) and read (O41), the reads of its status and cursors with the
clearing (O42), and the available count (O43). -/

namespace Sys2Proof.Machine

/-! ### Write and read -/

/-- Settles O40: the ring write of the low byte. -/
theorem RingBuffer.ringWrite : Obligations.RingWrite := by
  refine fun d s => ⟨encodesAs_of_rowOf rfl, _, rfl, ?_⟩
  obtain ⟨hring, hframe⟩ := ringWrite_frame (dataByte d) s
  rw [← dataByte_eq_setWidth]
  refine ⟨hring, cpByte_congr ?_, congrArg (fun t : State => t.returns .void) hframe⟩
  rw [State.returns_cpmem, hframe]

/-- The ring read, field by field: the consumer cursor advances, and an empty buffer is flagged (R173). -/
theorem ringRead_eq (s : State) : ringRead s =
    (ringByte s s.readHead.toNat, { s with
      readHead := nextCursor s.cfg.bufLen s.readHead
      flt := if s.writeHead = s.readHead then s.flt ||| 128 else s.flt
      raised := if s.writeHead = s.readHead then s.raised ++ [.rbUnderflow] else s.raised }) := by
  obtain ⟨hempty, h⟩ | ⟨hempty, h⟩ := ringRead_cases s
  · have hne : s.writeHead ≠ s.readHead := of_decide_eq_false hempty
    rw [h, if_neg hne, if_neg hne]
  · have heq : s.writeHead = s.readHead := of_decide_eq_true hempty
    rw [h, if_pos heq, if_pos heq]
    rfl

/-- Settles O41: the ring read, whether or not the buffer is empty. -/
theorem RingBuffer.ringRead : Obligations.RingRead := by
  refine ⟨encodesAs_of_rowOf rfl, fun s => ⟨_, rfl, ?_⟩⟩
  rw [ringRead_eq]
  exact ⟨rfl, rfl, rfl, rfl, ⟨fun _ => rfl, fun _ => rfl⟩, rfl⟩

/-! ### Status and clearing -/

/-- `RBSTAT` as a number: 1 where the cursors differ (R174). -/
theorem bitWord_canRead (s : State) : bitWord (canRead s) = if s.writeHead ≠ s.readHead then 1 else 0 := by
  rw [canRead]
  split
  · next hne => rw [decide_eq_true hne]; rfl
  · next heq => rw [decide_eq_false heq]; rfl

theorem ringReset_of_clear {d : Word} (h : dataClr d = true) (s : State) :
    ringReset d s = { s with readHead := 0, writeHead := 0 } := by
  rw [ringReset, if_pos h]

theorem ringReset_of_not_clear {d : Word} (h : dataClr d = false) (s : State) : ringReset d s = s := by
  rw [ringReset, h]
  rfl

/-- Settles O42: the three reads, and the write of `RBCTL` by its bit `CLR`. -/
theorem ringStatusAndClear : Obligations.RingStatusAndClear := by
  refine ⟨encodesAs_of_rowOf rfl, encodesAs_of_rowOf rfl, encodesAs_of_rowOf rfl, fun s => ⟨?_, rfl, rfl⟩,
    fun d s => ⟨encodesAs_of_rowOf rfl, fun hclr => ?_, fun hclr => ?_⟩⟩
  · rw [← bitWord_canRead]
    rfl
  · change Host.Outcome.next ((ringReset d s).returns .void) = _
    rw [ringReset_of_clear hclr]
    rfl
  · change Host.Outcome.next ((ringReset d s).returns .void) = _
    rw [ringReset_of_not_clear hclr]
    rfl

/-! ### The available count -/

/-- With the cursors not wrapped the count and the bytes queued make up `AVAIL_CAP`, modulo 65536 (R175; log 26). -/
theorem ringAvail_toNat_of_le {s : State} (h : s.readHead.toNat ≤ s.writeHead.toNat) :
    ((ringAvail s).toNat + (s.writeHead.toNat - s.readHead.toNat)) % 65536 = s.cfg.availCap % 65536 := by
  have hw := s.writeHead.isLt
  rw [ringAvail, if_pos h, BitVec.toNat_sub, BitVec.toNat_sub_of_le (BitVec.le_def.2 h), BitVec.toNat_ofNat]
  omega

/-- With the cursors wrapped the count is their distance (R175). -/
theorem ringAvail_toNat_of_lt {s : State} (h : s.writeHead.toNat < s.readHead.toNat) :
    (ringAvail s).toNat = s.readHead.toNat - s.writeHead.toNat := by
  rw [ringAvail, if_neg (Nat.not_le.2 h), BitVec.toNat_sub_of_le (BitVec.le_def.2 h.le)]

theorem ringUsed_of_le {s : State} (h : s.readHead.toNat ≤ s.writeHead.toNat) :
    ringUsed s = s.writeHead.toNat - s.readHead.toNat := if_pos h

theorem ringUsed_of_lt {s : State} (h : s.writeHead.toNat < s.readHead.toNat) :
    ringUsed s = s.writeHead.toNat + s.cfg.bufLen - s.readHead.toNat := if_neg (Nat.not_le.2 h)

/-- Settles O43: the two branches of the formula, and each against the free space. -/
theorem availableIsTheLiteralFormula : Obligations.AvailableIsTheLiteralFormula := by
  refine ⟨encodesAs_of_rowOf rfl, fun s => ⟨ringAvail s, rfl, ringAvail_toNat_of_le, ringAvail_toNat_of_lt,
    fun hr hw hN hcap => ?_⟩⟩
  obtain hle | hlt := le_or_gt s.readHead.toNat s.writeHead.toNat
  · have hcount := ringAvail_toNat_of_le hle
    have hused := ringUsed_of_le hle
    have hbound := (ringAvail s).isLt
    have hfree : (ringAvail s).toNat = s.cfg.availCap - (s.writeHead.toNat - s.readHead.toNat) := by omega
    exact ⟨fun _ => ⟨hfree, by omega⟩, fun hlt => absurd hle (Nat.not_le.2 hlt), by omega⟩
  · have hcount := ringAvail_toNat_of_lt hlt
    have hused := ringUsed_of_lt hlt
    exact ⟨fun hle => absurd hlt (Nat.not_lt.2 hle), fun _ => by omega, by omega⟩

end Sys2Proof.Machine
end

