-- ==== Sys2Proof/Proofs/RingFifo.lean ====
section
/-! PROOF. FIFO order within capacity (O47), by the queue that the ring buffer is (O46). -/

namespace Sys2Proof.Machine

theorem Preserves.exec {i : Instr} {s t : State} (h : exec i s = .next t) : Preserves s t := by
  obtain ⟨u, hu, he⟩ := exec_effects i s
  cases hu.symm.trans h
  exact he.preserves

@[simp] theorem ringContents_length (s : State) : (ringContents s).length = ringUsed s := by
  simp [ringContents]

/-- A buffer with a byte more to queue below `N` is not full. -/
theorem Legal.ringFull_eq_false {s : State} (h : Legal s) (hroom : ringUsed s + 1 < s.cfg.bufLen) :
    ringFull s = false := by
  rw [← Bool.not_eq_true, h.ringFull_iff]
  exact hroom.ne

/-- Writes with room for all of them queue their bytes after the others, in order (R172, R184). -/
theorem Legal.execAll_writes (bytes : List Byte) {s : State} (h : Legal s)
    (hroom : (ringContents s ++ bytes).length < s.cfg.bufLen) :
    ∃ t rs, execAll (bytes.map fun b => .wrRbdata (b.setWidth 16)) s = some (t, rs) ∧ Legal t ∧
      ringContents t = ringContents s ++ bytes ∧ t.flt = s.flt := by
  induction bytes generalizing s with
  | nil => exact ⟨s, [], rfl, h, (List.append_nil _).symm, rfl⟩
  | cons b bytes ih =>
    have hone : ringUsed s + 1 < s.cfg.bufLen := by
      rw [List.length_append, ringContents_length, List.length_cons] at hroom
      omega
    obtain ⟨hwrite, -, -⟩ := ringRefinesAQueue s h
    obtain ⟨v, hv, hcontents, hflt⟩ := hwrite (b.setWidth 16) (h.ringFull_eq_false hone)
    have hpres := Preserves.exec hv
    have hqueued : ringContents v ++ bytes = ringContents s ++ b :: bytes := by
      rw [hcontents, BitVec.setWidth_setWidth_of_le b (by omega), BitVec.setWidth_eq, List.append_assoc,
        List.singleton_append]
    obtain ⟨t, rs, ht, hlegal, hcontents', hflt'⟩ := ih (hpres.legal h) (by rwa [hqueued, hpres.cfg])
    exact ⟨t, v.result :: rs, by simp only [List.map_cons, execAll, hv, ht], hlegal, hcontents'.trans hqueued,
      hflt'.trans hflt⟩

/-- As many reads as bytes are queued give these in order and leave the buffer empty (R173, R184). -/
theorem Legal.execAll_reads {bytes : List Byte} {s : State} (h : Legal s) (hcontents : ringContents s = bytes) :
    ∃ u, execAll (List.replicate bytes.length .rdRbdata) s =
        some (u, bytes.map fun b => .value (b.setWidth 16)) ∧
      u.flt = s.flt ∧ ringEmpty u = true := by
  induction bytes generalizing s with
  | nil => exact ⟨s, rfl, rfl, h.ringEmpty_iff_ringContents.2 hcontents⟩
  | cons b bytes ih =>
    obtain ⟨-, -, hread⟩ := ringRefinesAQueue s h
    obtain ⟨v, hv, hresult, hrest, hflt⟩ := hread b bytes hcontents
    obtain ⟨u, hu, hflt', hempty⟩ := ih ((Preserves.exec hv).legal h) hrest
    exact ⟨u, by simp only [List.length_cons, List.replicate_succ, List.map_cons, execAll, hv, hu, hresult],
      hflt'.trans hflt, hempty⟩

/-- Settles O47: the writes queue the bytes on nothing, and the reads take what is queued. -/
theorem ringKeepsFifoOrder : Obligations.RingKeepsFifoOrder := by
  intro s bytes h hempty hlen
  have hnil : ringContents s = [] := h.ringEmpty_iff_ringContents.1 hempty
  obtain ⟨hN, -⟩ := bufLen_bounds_of_wf h.params
  obtain ⟨t, rs, ht, hlegal, hcontents, hflt⟩ := h.execAll_writes bytes (by rw [hnil, List.nil_append]; omega)
  obtain ⟨u, hu, hflt', hempty'⟩ := hlegal.execAll_reads (hcontents.trans (by rw [hnil, List.nil_append]))
  exact ⟨t, u, rs, ht, hu, hflt'.trans hflt, hempty'⟩

end Sys2Proof.Machine
end

