-- ==== Sys2Proof/Proofs/RingRights.lean ====
section
/-! PROOF. Who moves the ring's cursors, the interrupt gate and `BUS_NOT_OWNED` where both contexts keep to the rights
table (O44). -/

namespace Sys2Proof.Machine

/-! ### What the rights table guards beside the bus -/

/-- The two cursors, the interrupt gate and the flag `BUS_NOT_OWNED` (R26, R170, R213). -/
structure Guarded where
  writeHead : Word
  readHead : Word
  imask : BitVec 3
  modeReg : Byte
  notOwned : Bool

def State.guarded (s : State) : Guarded :=
  { writeHead := s.writeHead, readHead := s.readHead, imask := s.imask, modeReg := s.modeReg
    notOwned := s.flt.getLsbD 0 }

/-- At most `readHead` moves (R170). -/
def ReadHeadMoves (g g' : Guarded) : Prop := g' = { g with readHead := g'.readHead }

/-- At most `writeHead` moves (R170). -/
def WriteHeadMoves (g g' : Guarded) : Prop := g' = { g with writeHead := g'.writeHead }

theorem ReadHeadMoves.of_eq {g g' : Guarded} (h : g' = g) : ReadHeadMoves g g' := by
  rw [h]
  rfl

theorem WriteHeadMoves.of_eq {g g' : Guarded} (h : g' = g) : WriteHeadMoves g g' := by
  rw [h]
  rfl

/-! ### The shared operations -/

@[simp] theorem State.setIo_guarded (s : State) (p : Port) (r : PortRegs) : (s.setIo p r).guarded = s.guarded := by
  cases p <;> rfl

/-- Every fault but `BUS_NOT_OWNED` has another bit (R26). -/
theorem State.raise_guarded (s : State) {f : Raised} (h : f.bit ≠ 0) : (s.raise f).guarded = s.guarded := by
  have hbit : (s.raise f).flt.getLsbD 0 = s.flt.getLsbD 0 := by
    rw [raise_bit s f (by omega), decide_eq_false h.symm, Bool.or_false]
  exact congrArg (fun n => { s.guarded with notOwned := n }) hbit

theorem firstUse_guarded (s : State) : (firstUse s).guarded = s.guarded := by
  rw [firstUse_eq]
  rfl

theorem badTxn_guarded (w : TxnWord) (s : State) : (badTxn w s).guarded = s.guarded := by
  obtain ⟨-, h⟩ | ⟨-, h⟩ := badTxn_cases w s <;> rw [h]
  · exact s.raise_guarded (f := .badTxn w) nofun
  · exact s.drawn.raise_guarded (f := .badTxn w) nofun

theorem writeArbctl_guarded (d : Word) (s : State) : (writeArbctl d s).guarded = s.guarded := by
  rw [writeArbctl_eq]
  rfl

/-- The owner's accesses raise no `BUS_NOT_OWNED` (R66). -/
theorem memRead_guarded {s : State} (ho : primaryOwns s = true) (a : Nat) : (memRead a s).2.guarded = s.guarded := by
  obtain ⟨-, h⟩ | ⟨-, hf, -⟩ | ⟨-, -, h⟩ := memRead_cases a s
  · rw [h]
    exact s.drawn.raise_guarded (f := .cpmemRange a) nofun
  · cases ho.symm.trans hf
  · rw [h]

theorem memWrite_guarded {s : State} (ho : primaryOwns s = true) (a : Nat) (v : Byte) :
    (memWrite a v s).guarded = s.guarded := by
  obtain ⟨-, h⟩ | ⟨-, hf, -⟩ | ⟨-, -, h⟩ := memWrite_cases a v s
  · rw [h]
    exact s.raise_guarded (f := .cpmemRange a) nofun
  · cases ho.symm.trans hf
  · rw [h]
    rfl

theorem pushTx_guarded (p : Port) (b : Byte) (s : State) : (pushTx p b s).guarded = s.guarded := by
  obtain ⟨-, h⟩ | ⟨-, h⟩ := pushTx_cases p b s <;> rw [h, State.setIo_guarded]
  exact s.drawn.raise_guarded (f := .txOverrun p) nofun

theorem popRx_guarded (p : Port) (s : State) : (popRx p s).2.guarded = s.guarded := by
  obtain ⟨_, _, -, h⟩ | ⟨-, h⟩ := popRx_cases p s <;> rw [h]
  · exact s.setIo_guarded p _
  · exact s.drawn.raise_guarded (f := .rxUnderflow p) nofun

theorem rxArrive_guarded (p : Port) (b : Byte) (s : State) : (rxArrive p b s).guarded = s.guarded := by
  obtain ⟨-, h⟩ | ⟨-, h⟩ := rxArrive_cases p b s <;> rw [h, State.setIo_guarded]
  exact s.drawn.raise_guarded (f := .rxfifoOverrun p) nofun

theorem txShift_guarded (p : Port) (s : State) : (txShift p s).guarded = s.guarded := by
  obtain ⟨_, _, -, h⟩ | ⟨-, h⟩ := txShift_cases p s <;> rw [h]
  exact s.setIo_guarded p _

theorem serialOp_guarded {f : Port → State → State} (s : State) (hf : ∀ p u, (f p u).guarded = u.guarded) :
    (serialOp f s).guarded = s.guarded := by
  obtain ⟨-, h⟩ | ⟨p, -, h⟩ := serialOp_cases f s <;> rw [h]
  · rfl
  · rw [hf, firstUse_guarded]

/-- The producer's operation moves `writeHead` alone (R172). -/
theorem WriteHeadMoves.ringWrite (b : Byte) (s : State) : WriteHeadMoves s.guarded (ringWrite b s).guarded := by
  have hraise := s.raise_guarded (f := .rbOverflow) nofun
  obtain ⟨-, h⟩ | ⟨-, -, h⟩ | ⟨-, -, h⟩ := ringWrite_cases b s <;> rw [h]
  · rfl
  · exact .of_eq hraise
  · exact congrArg (fun g : Guarded => { g with writeHead := nextCursor s.cfg.bufLen s.writeHead }) hraise

/-- The consumer's operation moves `readHead` alone (R173). -/
theorem ReadHeadMoves.ringRead (s : State) : ReadHeadMoves s.guarded (ringRead s).2.guarded := by
  have hraise := s.raise_guarded (f := .rbUnderflow) nofun
  obtain ⟨-, h⟩ | ⟨-, h⟩ := ringRead_cases s <;> rw [h]
  · rfl
  · exact congrArg (fun g : Guarded => { g with readHead := nextCursor s.cfg.bufLen s.readHead }) hraise

theorem WriteHeadMoves.drainStep (p : Port) (pos : DrainPos) (s : State) :
    WriteHeadMoves s.guarded (drainStep p pos s).2.guarded := by
  obtain ⟨-, _, -, h⟩ | ⟨-, h⟩ | ⟨b, -, h⟩ := drainStep_cases p pos s <;> rw [h]
  · exact .of_eq rfl
  · exact .of_eq (popRx_guarded p s)
  · exact .ringWrite b s

theorem mainDrainStep_guarded (p : Port) (pos : DrainPos) (s : State) :
    (mainDrainStep p pos s).guarded = (drainStep p pos s).2.guarded := by
  unfold mainDrainStep
  split <;> rfl

/-! ### The instructions -/

/-- The transactions that write something guarded, or can raise `BUS_NOT_OWNED`, and the operations that are one. -/
def touchesGuarded : Instr → Bool
  | .wrRbdata _ | .rbWrite _ | .rdRbdata | .rbRead | .wrRbctl _ | .wrMode _ | .wrImask _ | .mrd _ | .mwr _ _ => true
  | _ => false

theorem exec_guarded {i : Instr} {s t : State} (hi : touchesGuarded i = false) (h : exec i s = .next t) :
    t.guarded = s.guarded := by
  cases i with
  | wrRbdata | rbWrite | rdRbdata | rbRead | wrRbctl | wrMode | wrImask | mrd | mwr => cases hi
  | rdArbctl | rdArbstat | isBusTaken | rdFlt | rdCtrl | rdSctrl | rdMode | rdImask | rdRbstat | rbCanRead | rdRbavail
  | rbAvailable | rdRbrd | rdRbwr | isPresent => cases h; rfl
  | wrArbctl | requestBus | releaseBus => cases h; exact writeArbctl_guarded _ s
  | uploadProgram =>
    cases h
    refine (writeArbctl_guarded _ _).trans ?_
    split <;> rfl
  | wrCtrl p | wrSctrl p => cases h; exact s.setIo_guarded p _
  | serialInit p => cases h; exact State.setIo_guarded { s with port := some p } p _
  | wrTxdata p d => cases h; exact pushTx_guarded p _ s
  | rdRxdata p => cases h; exact popRx_guarded p s
  | serWrite b => cases h; exact serialOp_guarded s fun p u => pushTx_guarded p b u
  | serRead => cases h; exact serialOp_guarded s fun p u => popRx_guarded p u
  | writeReady | readReady | baudRate | resetFifos => cases h; exact serialOp_guarded s fun _ _ => rfl
  | rxDrain =>
    cases h
    refine serialOp_guarded s fun p u => ?_
    rw [mainDrainStep_guarded, drainStep_atCheck]

/-- Of what `MAIN` may issue itself only the ring read moves anything guarded (R213). -/
theorem ReadHeadMoves.exec {i : Instr} {s t : State} (hi : mainMay i s = true) (h : exec i s = .next t) :
    ReadHeadMoves s.guarded t.guarded := by
  cases htouch : touchesGuarded i with
  | false => exact .of_eq (exec_guarded htouch h)
  | true =>
    cases i with
    | rdRbdata | rbRead => cases h; exact .ringRead s
    | mrd a => cases h; exact .of_eq (memRead_guarded hi a.toNat)
    | mwr a b => cases h; exact .of_eq (memWrite_guarded hi a.toNat b)
    | wrRbdata | rbWrite | wrRbctl | wrMode | wrImask => cases hi
    | _ => cases htouch

/-- Of what `INT` may issue only the ring write moves anything guarded (R213). -/
theorem WriteHeadMoves.exec {i : Instr} {s t : State} (hi : intMay i = true) (h : exec i s = .next t) :
    WriteHeadMoves s.guarded t.guarded := by
  cases htouch : touchesGuarded i with
  | false => exact .of_eq (exec_guarded htouch h)
  | true =>
    cases i with
    | wrRbdata | rbWrite => cases h; exact .ringWrite _ s
    | rdRbdata | rbRead | wrRbctl | wrMode | wrImask | mrd | mwr => cases hi
    | _ => cases htouch

/-- A command issues an instruction that its issuer may issue, or touches nothing guarded (R101, R194). -/
theorem issueCmd_cases_of_within {may : Instr → Bool} {c : Cmd} {s t : State} (hc : c.within may = true)
    (h : issueCmd c s = .next t) : (∃ i, may i = true ∧ exec i s = .next t) ∨ t.guarded = s.guarded := by
  cases c with
  | txn w =>
    simp only [Cmd.within, issueCmd, issueTxn] at hc h
    cases hd : decode w with
    | ok i => rw [hd] at hc h; exact .inl ⟨i, hc, h⟩
    | error e => rw [hd] at h; cases h; exact .inr (badTxn_guarded w s)
  | op i => exact .inl ⟨i, hc, h⟩
  | jump k => cases h; exact .inr rfl
  | jumpIf c k =>
    cases h
    split
    · exact .inr rfl
    · exact .inr rfl

/-! ### The main context -/

/-- What a transaction of `MAIN` within its rights does to what is guarded, by the place it is issued at: `readHead` is
`MAIN`'s to move, `writeHead` only as the ring is cleared, the gate only inside `SerialInit` (R148, R154, R213). -/
structure MainDisciplined (pos : MainPos) (g g' : Guarded) : Prop where
  writeHead : g'.writeHead ≠ g.writeHead → ∃ init, pos = .ringClear init
  gate : g'.imask ≠ g.imask ∨ g'.modeReg ≠ g.modeReg → insideInit pos = true
  notOwned : g'.notOwned = g.notOwned

theorem MainDisciplined.of_readHead {pos : MainPos} {g g' : Guarded} (h : ReadHeadMoves g g') :
    MainDisciplined pos g g' := by
  rw [h]
  exact ⟨fun hne => absurd rfl hne, fun hne => hne.elim (absurd rfl) (absurd rfl), rfl⟩

theorem MainDisciplined.of_eq {pos : MainPos} {g g' : Guarded} (h : g' = g) : MainDisciplined pos g g' :=
  .of_readHead (.of_eq h)

theorem pollTakenStep_guarded (n : Nat) (upload : Option (List Byte)) (s : State) :
    (pollTakenStep n upload s).guarded = s.guarded := by
  cases htaken : s.taken with
  | false =>
    rw [pollTakenStep_unsuccessful htaken]
    rfl
  | true =>
    cases upload with
    | none => rw [pollTakenStep_ok htaken]; rfl
    | some bytes => rw [pollTakenStep_copy htaken]; rfl

theorem pollReadyStep_guarded (n : Nat) (s : State) : (pollReadyStep n s).guarded = s.guarded := by
  cases hready : s.cpReady with
  | true => rw [pollReadyStep_ok hready]; rfl
  | false =>
    rw [pollReadyStep_unsuccessful hready]
    split <;> rfl

/-- The clearing of the ring moves the two cursors to 0 (R154, R176). -/
theorem ringClearStep_guarded (init : Option Bool) (s : State) :
    (ringClearStep init s).guarded = { s.guarded with readHead := 0, writeHead := 0 } := by
  match init with
  | none | some false | some true => rfl

/-- A later transaction of an operation, `MAIN` within its rights at it. -/
theorem MainDisciplined.continueOp {s : State} (hne : s.mainPos ≠ .idle) (hr : mainWithinRights s = true) :
    MainDisciplined s.mainPos s.guarded (continueOp s.mainPos (afterChoice s)).guarded := by
  unfold mainWithinRights at hr
  cases hpos : s.mainPos with
  | idle => exact absurd hpos hne
  | pollTaken n upload => exact .of_eq (pollTakenStep_guarded n upload _)
  | withdraw => exact .of_eq (writeArbctl_guarded 0 _)
  | copy a rest =>
    rw [hpos] at hr
    cases rest with
    | nil => exact .of_eq (writeArbctl_guarded 0 _)
    | cons b bs => exact .of_eq (memWrite_guarded (s := afterChoice s) hr a b)
  | pollReady n => exact .of_eq (pollReadyStep_guarded n _)
  | initSctrl p rxInt => exact .of_eq (State.setIo_guarded _ p _)
  | fifoCheck | initModeRead => exact .of_eq rfl
  | fifoPop p init => exact .of_eq (popRx_guarded p _)
  | ringClear init =>
    rw [Machine.continueOp, ringClearStep_guarded]
    exact ⟨fun _ => ⟨init, rfl⟩, fun h => h.elim (absurd rfl) (absurd rfl), rfl⟩
  | initImask | initModeWrite => exact ⟨fun h => absurd rfl h, fun _ => rfl, rfl⟩
  | drain p pos =>
    rw [hpos] at hr
    refine .of_eq ((mainDrainStep_guarded p pos _).trans ?_)
    cases pos with
    | atCheck => rw [drainStep_atCheck]; rfl
    | atRead => exact popRx_guarded p _
    | atWrite b => cases hr

/-- The rights of `MAIN` to an instruction are read from the block, not from its place in the list or the script. -/
theorem mainMay_advance_afterChoice (i : Instr) (s : State) : mainMay i (afterChoice s).advance = mainMay i s := by
  cases i with
  | serialInit p => cases p <;> rfl
  | _ => rfl

/-- The next transaction of `MAIN` within its rights. -/
theorem MainDisciplined.step {s t : State} (hturn : MainTurn s) (hr : mainWithinRights s = true)
    (h : step s = .next t) : MainDisciplined s.mainPos s.guarded t.guarded := by
  by_cases hidle : s.mainPos = .idle
  · cases hf : fetch s with
    | none =>
      cases (step_end hturn hidle hf).symm.trans h
      exact .of_eq rfl
    | some c =>
      have hc : c.within (fun i => mainMay i s) = true := by
        simpa [mainWithinRights, hidle, hf, mayIssue] using hr
      obtain ⟨i, hmay, hexec⟩ | heq := issueCmd_cases_of_within hc ((step_idle hturn hidle hf).symm.trans h)
      · exact .of_readHead (.exec (s := (afterChoice s).advance) ((mainMay_advance_afterChoice i s).trans hmay) hexec)
      · exact .of_eq heq
  · cases (step_inside hturn hidle).symm.trans h
    exact .continueOp hidle hr

/-! ### The other agents -/

/-- An issuer that keeps to `INT`'s rights moves `writeHead` alone. -/
theorem WriteHeadMoves.issueNext {s t : State} (hp : ∀ c ∈ s.prog, c.within intMay = true)
    (hs : intPlace s.mainPos = true) (h : issueNext s = .next t) : WriteHeadMoves s.guarded t.guarded := by
  obtain ⟨hne, hi⟩ | ⟨-, c, hf, hi⟩ | ⟨-, -, hi⟩ := issueNext_cases s
  · cases hi.symm.trans h
    cases hm : s.mainPos with
    | idle => exact absurd hm hne
    | drain p pos =>
      rw [continueOp, mainDrainStep_guarded]
      exact .drainStep p pos s
    | _ => rw [hm] at hs; cases hs
  · obtain ⟨i, hmay, hexec⟩ | heq := issueCmd_cases_of_within (hp c (List.mem_of_getElem? hf)) (hi.symm.trans h)
    · exact .exec (s := s.advance) hmay hexec
    · exact .of_eq heq
  · cases hi.symm.trans h
    exact .of_eq rfl

/-- What a step that is no transaction of `MAIN` does to what is guarded: at most `writeHead` moves, and that by `INT`
inside the interrupt context (R170, R213). -/
structure OtherDisciplined (m : Move) (s t : State) : Prop where
  moves : WriteHeadMoves s.guarded t.guarded
  writer : t.writeHead ≠ s.writeHead → m = .int ∧ s.inIrq = true

theorem OtherDisciplined.of_eq {m : Move} {s t : State} (h : t.guarded = s.guarded) : OtherDisciplined m s t :=
  ⟨.of_eq h, absurd (congrArg Guarded.writeHead h)⟩

theorem OtherDisciplined.intStep {s t : State} (hr : intWithinRights s = true) (h : intStep s = .next t) :
    OtherDisciplined .int s t := by
  obtain ⟨-, -, hs⟩ | ⟨-, -, hs⟩ | ⟨hin, pos, p, -, -, hs⟩ | ⟨-, -, -, hs⟩ | ⟨hin, -, -, hs⟩ := intStep_cases s
  · cases hs.symm.trans h
    obtain ⟨_, hv, -⟩ := intEnter_eq s
    rw [hv]
    exact .of_eq rfl
  · cases hs.symm.trans h
    exact .of_eq rfl
  · cases hs.symm.trans h
    exact ⟨.drainStep p pos s, fun _ => ⟨rfl, hin⟩⟩
  · cases hs.symm.trans h
    exact .of_eq rfl
  · obtain ⟨u, hu, rfl⟩ := handlerStep_eq_next.1 (hs.symm.trans h)
    obtain ⟨hp, hplace⟩ := (intWithinRights_iff s).1 hr
    exact ⟨WriteHeadMoves.issueNext (s := { s with intPos := none }.swapIssuer) hp hplace hu, fun _ => ⟨rfl, hin⟩⟩

/-- A move that is not a transaction of `MAIN`, `INT` keeping to its rights. -/
theorem OtherDisciplined.runMove {m : Move} {s t : State} (hm : m = .main → s.inIrq = true)
    (hr : intWithinRights s = true) (h : runMove m s = .next t) : OtherDisciplined m s t := by
  cases m with
  | main =>
    obtain ⟨-, hs⟩ | ⟨hf, -⟩ := mainStep_cases s
    · cases hs.symm.trans h
      exact .of_eq rfl
    · cases (hm rfl).symm.trans hf
  | int => exact .intStep hr h
  | grant => cases h; rw [grant_eq]; exact .of_eq rfl
  | resume => cases h; rw [resume_eq]; exact .of_eq rfl
  | cpStep c stores ready =>
    cases h
    obtain ⟨-, hs⟩ | ⟨-, hs⟩ := cpStep_cases c stores ready s <;> rw [hs] <;> exact .of_eq rfl
  | rxArrive p b => cases h; exact .of_eq (rxArrive_guarded p b s)
  | txShift p => cases h; exact .of_eq (txShift_guarded p s)

/-- Settles O44: `MAIN`'s step by the place it is issued at, and every other step. -/
theorem rightsKeepTheDiscipline : Obligations.RightsKeepTheDiscipline := by
  intro s t h hmain hint
  by_cases hturn : MainTurn s
  · obtain ⟨hwrite, hgate, hflt⟩ := MainDisciplined.step hturn (hmain hturn) h
    exact ⟨fun hne => .inr ⟨hturn, hwrite hne⟩, fun _ => hturn, fun hne => ⟨hturn, hgate hne⟩, hflt⟩
  · have hirq (hmove : nextMove s = .main) : s.inIrq = true := by
      by_contra hin
      exact hturn ⟨hmove, by simpa using hin⟩
    rw [step_eq] at h
    obtain ⟨hmoves, hwriter⟩ := OtherDisciplined.runMove (s := afterChoice s) hirq hint h
    have hread : t.readHead = s.readHead := congrArg Guarded.readHead hmoves
    have himask : t.imask = s.imask := congrArg Guarded.imask hmoves
    have hmode : t.modeReg = s.modeReg := congrArg Guarded.modeReg hmoves
    exact ⟨fun hne => .inl (hwriter hne), fun hne => absurd hread hne,
      fun hne => hne.elim (absurd himask) (absurd hmode), congrArg Guarded.notOwned hmoves⟩

end Sys2Proof.Machine
end

