-- ==== Sys2Proof/Proofs/DrainRoutine.lean ====
section
/-! PROOF. The drain routine of the interrupt context (O49): its transactions, and the routine run to its exit with `INT`
moving alone. -/

namespace Sys2Proof.Machine

/-! ### One transaction -/

/-- The state after one transaction of the interrupt context's routine, with the position after it (R180). -/
def routineStep (p : Port) (pos : DrainPos) (s : State) : State :=
  { (drainStep p pos s).2 with intPos := (drainStep p pos s).1 }

/-- A step of `INT` inside its routine is the routine's next transaction (R180). -/
theorem step_routine {s : State} {p : Port} {pos : DrainPos} (hmove : nextMove s = .int) (hin : s.inIrq = true)
    (hport : s.port = some p) (hpos : s.intPos = some pos) :
    step s = .next (routineStep p pos (afterChoice s)) := by
  rw [step_eq, hmove, runMove, intStep, afterChoice_inIrq, if_pos hin, afterChoice_intPos, hpos, afterChoice_port,
    hport]
  rfl

section

variable {p : Port} {s : State}

theorem routineStep_check :
    routineStep p .atCheck s = { s with intPos := if (s.io p).rxFifo = [] then none else some .atRead } := by
  rw [routineStep, drainStep_atCheck]

theorem routineStep_read_of_cons {b : Byte} {rest : List Byte} (h : (s.io p).rxFifo = b :: rest) :
    routineStep p .atRead s = { s with intPos := some (.atWrite b) }.setIo p { s.io p with rxFifo := rest } := by
  rw [routineStep, drainStep, popRx_of_cons h]
  cases p <;> rfl

theorem routineStep_read_of_nil (h : (s.io p).rxFifo = []) :
    routineStep p .atRead s =
      { s with
        flt := s.flt ||| 8, raised := s.raised ++ [.rxUnderflow p], draws := s.draws + 1
        intPos := some (.atWrite (Config.freeByte s.draws)) } := by
  rw [routineStep, drainStep, popRx_of_nil h]
  rfl

theorem routineStep_write (b : Byte) :
    routineStep p (.atWrite b) s = { ringWrite b s with intPos := some .atCheck } := rfl

end

/-! ### One byte -/

/-- The bytes have gone from the front of the receive FIFO into the ring, behind those queued, and no fault was raised;
the parameters, the port and the interrupt context are as before (R180). -/
structure Drained (p : Port) (bytes : List Byte) (s t : State) : Prop where
  legal : Legal t
  cfg : t.cfg = s.cfg
  inIrq : t.inIrq = s.inIrq
  port : t.port = s.port
  fifo : (s.io p).rxFifo = bytes ++ (t.io p).rxFifo
  contents : ringContents t = ringContents s ++ bytes
  flt : t.flt = s.flt
  readHead : t.readHead = s.readHead

theorem Drained.refl {s : State} (p : Port) (h : Legal s) : Drained p [] s s :=
  ⟨h, rfl, rfl, rfl, rfl, (List.append_nil _).symm, rfl, rfl⟩

theorem Drained.trans {p : Port} {bytes bytes' : List Byte} {s t u : State} (h : Drained p bytes s t)
    (h' : Drained p bytes' t u) : Drained p (bytes ++ bytes') s u where
  legal := h'.legal
  cfg := h'.cfg.trans h.cfg
  inIrq := h'.inIrq.trans h.inIrq
  port := h'.port.trans h.port
  fifo := by rw [h.fifo, h'.fifo, List.append_assoc]
  contents := by rw [h'.contents, h.contents, List.append_assoc]
  flt := h'.flt.trans h.flt
  readHead := h'.readHead.trans h.readHead

/-- The ring buffer's content depends on the array, the cursors and the length alone. -/
theorem ringContents_setIo (s : State) (p : Port) (r : PortRegs) : ringContents (s.setIo p r) = ringContents s := by
  cases p <;> rfl

theorem ringFull_setIo (s : State) (p : Port) (r : PortRegs) : ringFull (s.setIo p r) = ringFull s := by
  cases p <;> rfl

/-- The pop and the write of one byte, with room for it. -/
theorem Drained.one {s : State} {p : Port} {b : Byte} {rest : List Byte} (h : Legal s)
    (hfifo : (s.io p).rxFifo = b :: rest) (hroom : ringFull s = false) :
    Drained p [b] s (ringWrite b (s.setIo p { s.io p with rxFifo := rest })) := by
  have hpopped : Legal (s.setIo p { s.io p with rxFifo := rest }) := by
    have hpres := Preserves.popRx p s
    rw [popRx_of_cons hfifo] at hpres
    exact hpres.legal h
  rw [← ringFull_setIo s p { s.io p with rxFifo := rest }] at hroom
  have hwrite := ringWrite_of_room hroom b
  refine ⟨(Preserves.ringWrite b _).legal hpopped, ?_, ?_, ?_, ?_, ?_, ?_, ?_⟩
  · rw [hwrite, State.setIo_cfg]
  · rw [hwrite, State.setIo_inIrq]
  · rw [hwrite, State.setIo_port]
  · rw [ringWrite_io, State.setIo_io_same, hfifo, List.singleton_append]
  · rw [hpopped.ringContents_ringWrite hroom, ringContents_setIo]
  · rw [hwrite, State.setIo_flt]
  · rw [hwrite, State.setIo_readHead]

/-! ### The routine -/

/-- The state with `INT` at a place of its routine and the next moves chosen. -/
def State.atRoutine (s : State) (pos : Option DrainPos) (moves : List Move) : State :=
  { s with intPos := pos, script := moves }

theorem ringWrite_atRoutine {s : State} (h : ringFull s = false) (b : Byte) (pos : Option DrainPos)
    (moves : List Move) : ringWrite b (s.atRoutine pos moves) = (ringWrite b s).atRoutine pos moves := by
  rw [ringWrite_of_room h, ringWrite_of_room (s := s.atRoutine pos moves) h]
  rfl

/-- One more step of `INT` alone, inside its routine: the routine's next transaction (R180). -/
theorem Steps.int {k : Nat} {s t u : State} {p : Port} {pos : DrainPos} {rest : List Move} (hin : s.inIrq = true)
    (hport : s.port = some p) (hnext : routineStep p pos (s.atRoutine (some pos) rest) = t) (h : Steps k t u) :
    Steps (k + 1) (s.atRoutine (some pos) (.int :: rest)) u :=
  ⟨t, hnext ▸ step_routine (s := s.atRoutine (some pos) (.int :: rest)) rfl hin hport rfl, h⟩

section

variable {p : Port} {s : State} (moves : List Move)

theorem routineStep_check_of_nil (h : (s.io p).rxFifo = []) :
    routineStep p .atCheck (s.atRoutine (some .atCheck) moves) = s.atRoutine none moves := by
  rw [routineStep_check, if_pos (show ((s.atRoutine _ moves).io p).rxFifo = [] from h)]
  rfl

/-- Three transactions move one byte: check, read, write (R180). -/
theorem steps_routine_byte {b : Byte} {rest : List Byte} {k : Nat} {u : State} (hin : s.inIrq = true)
    (hport : s.port = some p) (hfifo : (s.io p).rxFifo = b :: rest) (hroom : ringFull s = false)
    (h : Steps k ((ringWrite b (s.setIo p { s.io p with rxFifo := rest })).atRoutine (some .atCheck) moves) u) :
    Steps (k + 3) (s.atRoutine (some .atCheck) (.int :: .int :: .int :: moves)) u := by
  have hcheck (ms : List Move) :
      routineStep p .atCheck (s.atRoutine (some .atCheck) ms) = s.atRoutine (some .atRead) ms := by
    have hne : ((s.atRoutine (some .atCheck) ms).io p).rxFifo ≠ [] := hfifo ▸ List.cons_ne_nil b rest
    rw [routineStep_check, if_neg hne]
    rfl
  have hread (ms : List Move) : routineStep p .atRead (s.atRoutine (some .atRead) ms) =
      (s.setIo p { s.io p with rxFifo := rest }).atRoutine (some (.atWrite b)) ms := by
    rw [routineStep_read_of_cons (s := s.atRoutine (some .atRead) ms) hfifo]
    cases p <;> rfl
  have hwrite : routineStep p (.atWrite b)
      ((s.setIo p { s.io p with rxFifo := rest }).atRoutine (some (.atWrite b)) moves) =
      (ringWrite b (s.setIo p { s.io p with rxFifo := rest })).atRoutine (some .atCheck) moves := by
    rw [routineStep_write, ringWrite_atRoutine (by rwa [ringFull_setIo])]
    rfl
  exact .int hin hport (hcheck _) (.int hin hport (hread _)
    (.int (by rwa [State.setIo_inIrq]) (by rwa [State.setIo_port]) hwrite h))

/-- The routine from its check to its exit, `INT` alone and with room for every byte received (R180, R184). -/
theorem steps_routine {bytes : List Byte} (h : Legal s) (hin : s.inIrq = true) (hport : s.port = some p)
    (hfifo : (s.io p).rxFifo = bytes) (hroom : (ringContents s ++ bytes).length < s.cfg.bufLen) :
    ∃ u, Drained p bytes s u ∧
      Steps (3 * bytes.length + 1)
        (s.atRoutine (some .atCheck) (List.replicate (3 * bytes.length + 1) .int ++ moves))
        (u.atRoutine none moves) := by
  induction bytes generalizing s with
  | nil => exact ⟨s, .refl p h, .int hin hport (routineStep_check_of_nil moves hfifo) rfl⟩
  | cons b bytes ih =>
    have hone : ringUsed s + 1 < s.cfg.bufLen := by
      rw [List.length_append, ringContents_length, List.length_cons] at hroom
      omega
    have hfull := h.ringFull_eq_false hone
    have hd := Drained.one h hfifo hfull
    have hqueued := List.append_cons (ringContents s) b bytes
    obtain ⟨u, hu, hsteps⟩ := ih hd.legal (hd.inIrq.trans hin) (hd.port.trans hport)
      (List.cons.inj (hd.fifo.symm.trans hfifo)).2 (by rwa [hd.contents, hd.cfg, ← hqueued])
    exact ⟨u, hd.trans hu, steps_routine_byte _ hin hport hfifo hfull hsteps⟩

end

/-- Settles O49: each transaction, and the whole routine from its check to its exit. -/
theorem drainRoutineMovesTheFifoIntoTheRing : Obligations.DrainRoutineMovesTheFifoIntoTheRing := by
  refine ⟨fun s p hmove hin hport => ⟨fun hpos => ?_, fun b rest hpos hfifo => ?_, fun hpos hfifo => ?_,
    fun b hpos => ?_⟩, fun s p rest h hin hpos hport hroom hscript => ?_⟩
  · rw [step_routine hmove hin hport hpos, routineStep_check, afterChoice_io]
  · rw [step_routine hmove hin hport hpos, routineStep_read_of_cons (s := afterChoice s) hfifo, ← afterChoice_io]
    exact ⟨_, rfl, State.setIo_frame { afterChoice s with intPos := some (.atWrite b) } p _⟩
  · rw [step_routine hmove hin hport hpos, routineStep_read_of_nil (s := afterChoice s) hfifo]
    exact ⟨_, _, rfl, ⟨fun _ => rfl, fun _ => rfl⟩, rfl⟩
  · obtain ⟨hring, hframe⟩ := ringWrite_frame b (afterChoice s)
    rw [step_routine hmove hin hport hpos, routineStep_write]
    refine ⟨_, rfl, hring, ?_, congrArg (fun t : State => { t with intPos := some .atCheck }) hframe⟩
    rw [hframe]
    exact fun _ => rfl
  · obtain ⟨hN, -⟩ := bufLen_bounds_of_wf h.params
    obtain ⟨u, hu, hsteps⟩ := steps_routine (p := p) rest h hin hport rfl
      (by rw [List.length_append, ringContents_length]; omega)
    have hstart : s.atRoutine (some .atCheck) s.script = s := by
      rw [← hpos]
      rfl
    rw [← hscript, hstart] at hsteps
    exact ⟨_, hsteps, rfl, hu.inIrq.trans hin, List.self_eq_append_right.1 hu.fifo, hu.contents, hu.flt, hu.readHead,
      rfl⟩

end Sys2Proof.Machine
end

