-- ==== Sys2Proof/Proofs/PlatformTransactions.lean ====
section
/-! PROOF. The transactions on the platform's registers (O51), and the illegal word (O7). -/

namespace Sys2Proof.Machine

/-- `IMASK` takes the low three bits of `DATA` (R32, R211). -/
theorem dataImask_eq_setWidth (d : Word) : dataImask d = d.setWidth 3 :=
  (BitVec.setWidth_eq_extractLsb' (by decide)).symm

/-- Settles O51: the reads are the registers zero-extended, and a write takes its register's bits of `DATA` alone. -/
theorem platformRegisters : Obligations.PlatformRegisters := by
  refine ⟨encodesAs_of_rowOf rfl, encodesAs_of_rowOf rfl, encodesAs_of_rowOf rfl, fun d s =>
    ⟨encodesAs_of_rowOf rfl, encodesAs_of_rowOf rfl, rfl, ?_, rfl, ?_, rfl⟩⟩
  · rw [← dataByte_eq_setWidth]
    rfl
  · rw [← dataImask_eq_setWidth]
    rfl

theorem issueTxn_of_decode_error {w : TxnWord} {e : DecodeError} (h : decode w = .error e) (s : State) :
    issueTxn w s = .next (badTxn w s) := by
  rw [issueTxn, h]

/-- Settles O7: `MAIN` is past the command, and `BAD_TXN` has raised its one flag, by the direction of the word. -/
theorem illegalWordRaisesBadTxnAlone : Obligations.IllegalWordRaisesBadTxnAlone := by
  intro s w e hturn hpos hf hd
  have hstep : step s = .next (badTxn w (afterChoice s).advance) := by
    rw [step_idle hturn hpos hf, issueCmd, issueTxn_of_decode_error hd]
  refine ⟨rfl, _, hstep, ?_⟩
  obtain ⟨hwrite, h⟩ | ⟨hread, h⟩ := badTxn_cases w (afterChoice s).advance <;> rw [h]
  · exact ⟨rfl, fun _ => ⟨rfl, rfl⟩, fun hread => by cases hwrite.symm.trans hread⟩
  · exact ⟨rfl, fun hwrite => (by cases hread.symm.trans hwrite), fun _ => ⟨_, rfl⟩⟩

end Sys2Proof.Machine
end

