-- ==== Sys2Proof/Proofs/SingleFault.lean ====
section
/-! PROOF. Every step of every agent answers a next state and raises at most one fault (O53): each transaction holds at
most one operation that can raise, and each such operation raises in one of its branches alone. -/

namespace Sys2Proof.Machine

/-- The record of the faults raised is as it was, or one longer (R191, R206). -/
def AtMostOneFault (s t : State) : Prop := t.raised = s.raised ∨ ∃ f, t.raised = s.raised ++ [f]

/-! ### The operations that raise nothing -/

@[simp] theorem firstUse_raised (s : State) : (firstUse s).raised = s.raised := by rw [firstUse_eq]

@[simp] theorem writeArbctl_raised (d : Word) (s : State) : (writeArbctl d s).raised = s.raised := by
  rw [writeArbctl_eq]

@[simp] theorem ringReset_raised (d : Word) (s : State) : (ringReset d s).raised = s.raised := by
  obtain ⟨-, h⟩ | ⟨-, h⟩ := ringReset_cases d s <;> rw [h]

theorem pollTakenStep_raised (n : Nat) (upload : Option (List Byte)) (s : State) :
    (pollTakenStep n upload s).raised = s.raised := by
  cases htaken : s.taken with
  | false => rw [pollTakenStep_unsuccessful htaken]
  | true =>
    cases upload with
    | none => rw [pollTakenStep_ok htaken]; rfl
    | some bytes => rw [pollTakenStep_copy htaken]

theorem pollReadyStep_raised (n : Nat) (s : State) : (pollReadyStep n s).raised = s.raised := by
  cases hready : s.cpReady with
  | true => rw [pollReadyStep_ok hready]; rfl
  | false =>
    rw [pollReadyStep_unsuccessful hready]
    split <;> rfl

theorem ringClearStep_raised (init : Option Bool) (s : State) : (ringClearStep init s).raised = s.raised := by
  match init with
  | none | some false | some true => exact ringReset_raised 1 s

theorem intEnter_raised (s : State) : (intEnter s).raised = s.raised := by
  obtain ⟨_, h, -⟩ := intEnter_eq s
  rw [h]

theorem grant_raised (s : State) : (grant s).raised = s.raised := by rw [grant_eq]

theorem resume_raised (s : State) : (resume s).raised = s.raised := by rw [resume_eq]

theorem cpStep_raised (c : CpState) (stores : List Host.Cell) (ready : Bool) (s : State) :
    (cpStep c stores ready s).raised = s.raised := by
  obtain ⟨-, h⟩ | ⟨-, h⟩ := cpStep_cases c stores ready s <;> rw [h]

theorem txShift_raised (p : Port) (s : State) : (txShift p s).raised = s.raised := by
  obtain ⟨_, _, -, h⟩ | ⟨-, h⟩ := txShift_cases p s <;> rw [h]
  exact s.setIo_raised p _

namespace AtMostOneFault

variable {s t : State}

theorem of_eq (h : t.raised = s.raised) : AtMostOneFault s t := .inl h

theorem of_raise (f : Raised) (h : t.raised = s.raised ++ [f]) : AtMostOneFault s t := .inr ⟨f, h⟩

/-- What raises nothing may come before. -/
theorem after {u : State} (h : AtMostOneFault u t) (hu : u.raised = s.raised) : AtMostOneFault s t := by
  rwa [AtMostOneFault, ← hu]

/-! ### The operations that can raise -/

theorem memRead (a : Nat) (s : State) : AtMostOneFault s (memRead a s).2 := by
  obtain ⟨-, h⟩ | ⟨-, -, h⟩ | ⟨-, -, h⟩ := memRead_cases a s <;> rw [h]
  · exact of_raise (.cpmemRange a) rfl
  · exact of_raise (.busNotOwned a) rfl
  · exact of_eq rfl

theorem memWrite (a : Nat) (v : Byte) (s : State) : AtMostOneFault s (memWrite a v s) := by
  obtain ⟨-, h⟩ | ⟨-, -, h⟩ | ⟨-, -, h⟩ := memWrite_cases a v s <;> rw [h]
  · exact of_raise (.cpmemRange a) rfl
  · exact of_raise (.busNotOwned a) rfl
  · exact of_eq rfl

theorem badTxn (w : TxnWord) (s : State) : AtMostOneFault s (badTxn w s) := by
  obtain ⟨-, h⟩ | ⟨-, h⟩ := badTxn_cases w s <;> rw [h] <;> exact of_raise (.badTxn w) rfl

theorem pushTx (p : Port) (b : Byte) (s : State) : AtMostOneFault s (pushTx p b s) := by
  obtain ⟨-, h⟩ | ⟨-, h⟩ := pushTx_cases p b s <;> rw [h]
  · exact of_eq (s.setIo_raised p _)
  · exact of_raise (.txOverrun p) (State.setIo_raised _ p _)

theorem popRx (p : Port) (s : State) : AtMostOneFault s (popRx p s).2 := by
  obtain ⟨_, _, -, h⟩ | ⟨-, h⟩ := popRx_cases p s <;> rw [h]
  · exact of_eq (s.setIo_raised p _)
  · exact of_raise (.rxUnderflow p) rfl

theorem rxArrive (p : Port) (b : Byte) (s : State) : AtMostOneFault s (rxArrive p b s) := by
  obtain ⟨-, h⟩ | ⟨-, h⟩ := rxArrive_cases p b s <;> rw [h]
  · exact of_eq (s.setIo_raised p _)
  · exact of_raise (.rxfifoOverrun p) (State.setIo_raised _ p _)

theorem ringWrite (b : Byte) (s : State) : AtMostOneFault s (ringWrite b s) := by
  obtain ⟨-, h⟩ | ⟨-, -, h⟩ | ⟨-, -, h⟩ := ringWrite_cases b s <;> rw [h]
  · exact of_eq rfl
  · exact of_raise .rbOverflow rfl
  · exact of_raise .rbOverflow rfl

theorem ringRead (s : State) : AtMostOneFault s (ringRead s).2 := by
  obtain ⟨-, h⟩ | ⟨-, h⟩ := ringRead_cases s <;> rw [h]
  · exact of_eq rfl
  · exact of_raise .rbUnderflow rfl

theorem drainStep (p : Port) (pos : DrainPos) (s : State) : AtMostOneFault s (drainStep p pos s).2 := by
  obtain ⟨-, _, -, h⟩ | ⟨-, h⟩ | ⟨b, -, h⟩ := drainStep_cases p pos s <;> rw [h]
  · exact of_eq rfl
  · exact popRx p s
  · exact ringWrite b s

theorem mainDrainStep (p : Port) (pos : DrainPos) (s : State) : AtMostOneFault s (mainDrainStep p pos s) := by
  unfold Machine.mainDrainStep
  split <;> exact drainStep p pos s

/-- A serial operation raises what the operation on the selected port does: a first use raises nothing (R156, R157). -/
theorem serialOp {f : Port → State → State} (s : State) (hf : ∀ p u, AtMostOneFault u (f p u)) :
    AtMostOneFault s (serialOp f s) := by
  obtain ⟨-, h⟩ | ⟨p, -, h⟩ := serialOp_cases f s <;> rw [h]
  · exact of_eq rfl
  · exact (hf p (firstUse s)).after (firstUse_raised s)

/-! ### The transactions -/

theorem exec {i : Instr} (h : exec i s = .next t) : AtMostOneFault s t := by
  cases i with
  | rdArbctl | rdArbstat | rdFlt | rdCtrl | rdSctrl | wrMode | rdMode | wrImask | rdImask | rdRbstat | rdRbavail
  | rdRbrd | rdRbwr | isBusTaken | isPresent | rbCanRead | rbAvailable => cases h; exact of_eq rfl
  | wrArbctl | requestBus | releaseBus => cases h; exact of_eq (writeArbctl_raised _ s)
  | uploadProgram =>
    cases h
    refine of_eq ((writeArbctl_raised _ _).trans ?_)
    split <;> rfl
  | wrCtrl p | wrSctrl p => cases h; exact of_eq (s.setIo_raised p _)
  | serialInit p => cases h; exact of_eq (State.setIo_raised { s with port := some p } p _)
  | wrRbctl d => cases h; exact of_eq (ringReset_raised d s)
  | wrTxdata p d => cases h; exact pushTx p _ s
  | rdRxdata p => cases h; exact popRx p s
  | wrRbdata | rbWrite => cases h; exact ringWrite _ s
  | rdRbdata | rbRead => cases h; exact ringRead s
  | mrd a => cases h; exact memRead a.toNat s
  | mwr a b => cases h; exact memWrite a.toNat b s
  | writeReady | readReady | baudRate | resetFifos => cases h; exact serialOp s fun _ _ => of_eq rfl
  | serWrite b => cases h; exact serialOp s fun p u => pushTx p b u
  | serRead => cases h; exact serialOp s fun p u => popRx p u
  | rxDrain => cases h; exact serialOp s fun p u => mainDrainStep p .atCheck u

theorem continueOp (pos : MainPos) (s : State) : AtMostOneFault s (continueOp pos s) := by
  cases pos with
  | idle | fifoCheck | initImask | initModeRead | initModeWrite => exact of_eq rfl
  | pollTaken n upload => exact of_eq (pollTakenStep_raised n upload s)
  | withdraw => exact of_eq (writeArbctl_raised 0 s)
  | copy a rest =>
    cases rest with
    | nil => exact of_eq (writeArbctl_raised 0 s)
    | cons b bs => exact memWrite a b s
  | pollReady n => exact of_eq (pollReadyStep_raised n s)
  | initSctrl p => exact of_eq (s.setIo_raised p _)
  | fifoPop p => exact popRx p s
  | ringClear init => exact of_eq (ringClearStep_raised init s)
  | drain p pos => exact mainDrainStep p pos s

theorem issueCmd {c : Cmd} (h : issueCmd c s = .next t) : AtMostOneFault s t := by
  cases c with
  | txn w =>
    cases hd : decode w with
    | ok i => exact exec ((issueTxn_of_decode hd s).symm.trans h)
    | error e =>
      cases (issueTxn_of_decode_error hd s).symm.trans h
      exact badTxn w s
  | op i => exact exec h
  | jump k => cases h; exact of_eq rfl
  | jumpIf c k =>
    cases h
    split <;> exact of_eq rfl

theorem issueNext (h : issueNext s = .next t) : AtMostOneFault s t := by
  obtain ⟨-, hi⟩ | ⟨-, c, -, hi⟩ | ⟨-, -, hi⟩ := issueNext_cases s
  · cases hi.symm.trans h
    exact continueOp s.mainPos s
  · exact (issueCmd (hi.symm.trans h)).after s.advance_raised
  · cases hi.symm.trans h
    exact of_eq rfl

/-! ### The agents -/

theorem mainStep (h : mainStep s = .next t) : AtMostOneFault s t := by
  obtain ⟨-, hs⟩ | ⟨-, hs⟩ := mainStep_cases s
  · cases hs.symm.trans h
    exact of_eq rfl
  · exact issueNext (hs.symm.trans h)

/-- The issuers changed over, the record of the faults stays as it is. -/
theorem handlerStep (h : handlerStep s = .next t) : AtMostOneFault s t := by
  obtain ⟨u, hu, rfl⟩ := handlerStep_eq_next.1 h
  exact (issueNext hu).after s.swapIssuer_raised

theorem intStep (h : intStep s = .next t) : AtMostOneFault s t := by
  obtain ⟨-, -, hs⟩ | ⟨-, -, hs⟩ | ⟨-, pos, p, -, -, hs⟩ | ⟨-, -, -, hs⟩ | ⟨-, -, -, hs⟩ := intStep_cases s
  · cases hs.symm.trans h
    exact of_eq (intEnter_raised s)
  · cases hs.symm.trans h
    exact of_eq rfl
  · cases hs.symm.trans h
    exact drainStep p pos s
  · cases hs.symm.trans h
    exact of_eq rfl
  · exact (handlerStep (hs.symm.trans h)).after rfl

theorem runMove {m : Move} (h : runMove m s = .next t) : AtMostOneFault s t := by
  cases m with
  | main => exact mainStep h
  | int => exact intStep h
  | grant => cases h; exact of_eq (grant_raised s)
  | resume => cases h; exact of_eq (resume_raised s)
  | cpStep c stores ready => cases h; exact of_eq (cpStep_raised c stores ready s)
  | rxArrive p b => cases h; exact rxArrive p b s
  | txShift p => cases h; exact of_eq (txShift_raised p s)

end AtMostOneFault

/-- Settles O53: the agent's move answers a next state, and the choice used up before it raises nothing. -/
theorem everyStepGoesOnWithAtMostOneFault : Obligations.EveryStepGoesOnWithAtMostOneFault := by
  intro s
  obtain ⟨t, ht⟩ := runMove_next (nextMove s) (afterChoice s)
  exact ⟨t, (step_eq s).trans ht, (AtMostOneFault.runMove ht).after (afterChoice_raised s)⟩

end Sys2Proof.Machine
end

