-- ==== Sys2Proof/Proofs/InterruptContext.lean ====
section
/-! PROOF. The interrupt condition (O54), who enters and leaves the interrupt context (O56), and the entry and exit that
starve `MAIN` where no port is selected (O57). -/

namespace Sys2Proof.Machine

/-! ### The condition -/

theorem rrdy_iff (p : Port) (s : State) : rrdy p s = true ↔ (s.io p).rxFifo ≠ [] := by
  simp [rrdy]

theorem Port.exists_iff {P : Port → Prop} : (∃ p, P p) ↔ P .ext ∨ P .ctrl2 :=
  ⟨fun ⟨p, h⟩ => by cases p; exacts [.inl h, .inr h], fun h => h.elim (⟨_, ·⟩) (⟨_, ·⟩)⟩

/-- Settles O54: the three conjuncts of `irq`, the first by the two ports. -/
theorem interruptCondition : Obligations.InterruptCondition := by
  intro s
  simp only [irq, Bool.and_eq_true, Bool.or_eq_true, decide_eq_true_eq, rrdy_iff, and_assoc]
  rw [Port.exists_iff]
  rfl

/-! ### Entry and exit -/

theorem issueNext_inIrq {s t : State} (h : issueNext s = .next t) : t.inIrq = s.inIrq := by
  obtain ⟨u, hu, he⟩ := issueNext_effects s
  cases hu.symm.trans h
  exact congrArg Outside.inIrq he.outside_eq

theorem handlerStep_inIrq {s t : State} (h : handlerStep s = .next t) : t.inIrq = s.inIrq := by
  obtain ⟨u, hu, rfl⟩ := handlerStep_eq_next.1 h
  exact issueNext_inIrq (s := s.swapIssuer) (t := u) hu

theorem drainStep_inIrq (p : Port) (pos : DrainPos) (s : State) : (drainStep p pos s).2.inIrq = s.inIrq :=
  congrArg Outside.inIrq (drainStep_effects (bus := false) p pos s).outside_eq

/-- No agent but `INT` enters or leaves the interrupt context (R11, R12). -/
theorem runMove_inIrq {m : Move} {s t : State} (hm : m ≠ .int) (h : runMove m s = .next t) : t.inIrq = s.inIrq := by
  cases m with
  | int => exact absurd rfl hm
  | main =>
    obtain ⟨-, hs⟩ | ⟨-, hs⟩ := mainStep_cases s
    · cases hs.symm.trans h
      rfl
    · exact issueNext_inIrq (hs.symm.trans h)
  | grant => cases h; rw [grant_eq]
  | resume => cases h; rw [resume_eq]
  | cpStep c stores ready =>
    cases h
    obtain ⟨-, hs⟩ | ⟨-, hs⟩ := cpStep_cases c stores ready s <;> rw [hs]
  | rxArrive p b =>
    cases h
    obtain ⟨-, hs⟩ | ⟨-, hs⟩ := rxArrive_cases p b s <;> rw [hs, State.setIo_inIrq]
    rfl
  | txShift p =>
    cases h
    obtain ⟨_, _, -, hs⟩ | ⟨-, hs⟩ := txShift_cases p s <;> rw [hs]
    exact s.setIo_inIrq p _

/-- A step of `INT` that enters or leaves its context is `INT_ENTER` under the condition (R201), or `INT_EXIT` at the
end of its routine (R203). -/
theorem intStep_eq_of_inIrq_ne {s t : State} (h : intStep s = .next t) (hne : s.inIrq ≠ t.inIrq) :
    (irq s = true ∧ t = intEnter s) ∨ (drainOver s = true ∧ handlerDone s = true ∧ t = intExit s) := by
  obtain ⟨-, hirq, hs⟩ | ⟨-, -, hs⟩ | ⟨-, pos, p, -, -, hs⟩ | ⟨-, hover, hdone, hs⟩ | ⟨-, -, -, hs⟩ := intStep_cases s
  · cases hs.symm.trans h
    exact .inl ⟨hirq, rfl⟩
  · cases hs.symm.trans h
    exact absurd rfl hne
  · cases hs.symm.trans h
    exact absurd (drainStep_inIrq p pos s).symm hne
  · cases hs.symm.trans h
    exact .inr ⟨(drainOver_iff s).2 hover, hdone, rfl⟩
  · exact absurd (handlerStep_inIrq (s := { s with intPos := none }) (hs.symm.trans h)).symm hne

/-- Settles O56: the step is `INT`'s entry or exit, and neither writes a field of `MAIN`'s or a mask. -/
theorem contextChangesOnlyByEntryAndExit : Obligations.ContextChangesOnlyByEntryAndExit := by
  intro s t hstep hne
  rw [step_eq] at hstep
  have hmove : nextMove s = .int := by
    by_contra hm
    exact hne (runMove_inIrq (s := afterChoice s) hm hstep).symm
  rw [hmove] at hstep
  obtain ⟨hirq, rfl⟩ | ⟨hover, hdone, rfl⟩ := intStep_eq_of_inIrq_ne (s := afterChoice s) hstep hne
  · obtain ⟨_, henter, -⟩ := intEnter_eq (afterChoice s)
    rw [henter]
    exact ⟨hmove, fun _ => hirq, nofun, rfl, rfl, rfl, rfl, rfl, rfl⟩
  · exact ⟨hmove, nofun, fun _ => ⟨hover, hdone⟩, rfl, rfl, rfl, rfl, rfl, rfl⟩

/-! ### No port selected -/

theorem afterChoice_of_cons {s : State} {m : Move} {rest : List Move} (h : s.script = m :: rest) :
    afterChoice s = { s with script := rest } := by
  simp [afterChoice, h]

/-- `INT`'s move in the script is a step of `INT`. -/
theorem step_int_of_script {s : State} {rest : List Move} (h : s.script = .int :: rest) :
    step s = intStep { s with script := rest } := by
  have hmove : nextMove s = .int := by rw [nextMove, h]
  rw [step_eq, hmove, afterChoice_of_cons h]
  rfl

/-- `INT_ENTER` with no port selected (R201): the transport is not used. -/
theorem step_enter_of_none {s : State} {rest : List Move} (hscript : s.script = .int :: rest) (hport : s.port = none)
    (hin : s.inIrq = false) (hirq : irq s = true) :
    step s = .next { s with
      inIrq := true, intPos := some .atCheck, intIdx := 0, intOp := .idle, script := rest } := by
  rw [step_int_of_script hscript, intStep_enter (s := { s with script := rest }) hin hirq,
    intEnter_of_none (s := { s with script := rest }) hport]

/-- `INT_EXIT` with no port selected: the routine issues nothing (R202, R203). -/
theorem step_exit_of_none {s : State} {rest : List Move} (hscript : s.script = .int :: rest) (hport : s.port = none)
    (hin : s.inIrq = true) (hdone : handlerDone s = true) :
    step s = .next { s with inIrq := false, intPos := none, script := rest } := by
  rw [step_int_of_script hscript,
    intStep_exit (s := { s with script := rest }) hin ((drainOver_iff s).2 (.inr hport)) hdone]
  rfl

/-- Settles O57: `INT_ENTER` and at once `INT_EXIT`; what `irq` reads is as it was before them. -/
theorem noSelectedPortStarvesMain : Obligations.NoSelectedPortStarvesMain := by
  intro s rest hport hin hpos hhandler hirq hscript
  refine ⟨⟨_, step_enter_of_none hscript hport hin hirq, _,
    step_exit_of_none rfl hport rfl (handlerDone_nil hhandler rfl), ?_⟩, hirq⟩
  rw [hin, hpos]
  rfl

end Sys2Proof.Machine
end
